-- ==== Sys2Proof/Word.lean ====
section
/-! DEFINITION. The machine's word types (00_scope.md R9): a byte, the 16- and 32-bit words, and
the 64-bit command word. -/

namespace Sys2Proof

/-- `u8`: one byte. -/
abbrev Byte := BitVec 8

/-- `u16`: a register's worth of payload, a start address, a quantity, a checksum. -/
abbrev Half := BitVec 16

/-- `u32`: RESULT, TIMEOUT_MS and the clock. -/
abbrev Word := BitVec 32

/-- CW: one command word (30_encoding.md R80). -/
abbrev CmdWord := BitVec 64

end Sys2Proof
end

