-- ==== Sys2Proof/Syntax.lean ====
section
/-! DEFINITION. The 20 commands of 30_encoding.md R85, one constructor per row of
spec/opcode_table.json. Every field is "an unsigned number read straight from its bits" (R82). -/

namespace Sys2Proof

/-- A command with its fields (30_encoding.md R80 to R85). In the read wrappers `dflt` is the
DEFAULT_SLAVE flag (R83). -/
inductive Instr where
  /-- CRC_RESET (40_crc.md R114) -/
  | crcReset
  /-- CRC_FEED byte (40_crc.md R115) -/
  | crcFeed (byte : Byte)
  /-- CRC_READ (40_crc.md R116) -/
  | crcRead
  /-- BUILD_REQUEST slave, fc, start, qty (41_framer_transport.md R132) -/
  | buildRequest (slave fc : Byte) (start qty : Half)
  /-- REQUEST_FROM slave, fc, start, qty (44_api.md R230) -/
  | requestFrom (slave fc : Byte) (start qty : Half)
  /-- SET_TIMEOUT ms (44_api.md R233) -/
  | setTimeout (ms : Word)
  /-- DEC_BIT byteIndex, bitIndex (43_decoder.md R201) -/
  | decBit (index bit : Half)
  /-- DEC_BYTE index (43_decoder.md R202) -/
  | decByte (index : Half)
  /-- DEC_WORD16[.S] reg (43_decoder.md R203) -/
  | decWord16 (signed : Bool) (reg : Half)
  /-- DEC_DWORD32[.H][.S] reg (43_decoder.md R204) -/
  | decDword32 (signed highFirst : Bool) (reg : Half)
  /-- COIL_READ slave|*, addr (44_api.md R234) -/
  | coilRead (dflt : Bool) (slave : Byte) (addr : Half)
  /-- DISCRETE_INPUT_READ slave|*, addr (44_api.md R235) -/
  | discreteInputRead (dflt : Bool) (slave : Byte) (addr : Half)
  /-- HOLDING_REGISTER_READ[.H][.S] slave|*, addr, blocks (44_api.md R236) -/
  | holdingRegisterRead (signed highFirst dflt : Bool) (slave : Byte) (addr blocks : Half)
  /-- INPUT_REGISTER_READ[.H][.S] slave|*, addr, blocks (44_api.md R237) -/
  | inputRegisterRead (signed highFirst dflt : Bool) (slave : Byte) (addr blocks : Half)
  /-- READ_TXBUF index (44_api.md R240) -/
  | readTxbuf (index : Half)
  /-- READ_RXBUF index (44_api.md R241) -/
  | readRxbuf (index : Half)
  /-- READ_RXLEN (44_api.md R242) -/
  | readRxlen
  /-- READ_STATE (44_api.md R243) -/
  | readState
  /-- READ_CUR_SLAVE (44_api.md R244) -/
  | readCurSlave
  /-- READ_TIMEOUT (44_api.md R245) -/
  | readTimeout
deriving DecidableEq, Repr

end Sys2Proof
end

