-- ==== Sys2Proof/WellFormed.lean ====
section
/-! DEFINITION. Which terms of `Instr` are commands: the fields' widths are in their types, so the
one check left is that of 30_encoding.md R83 and R88, a read wrapper with DEFAULT_SLAVE = 1 has
SLAVE = 0. -/

namespace Sys2Proof

/-- The slave operand of a read wrapper: with DEFAULT_SLAVE = 1, "SLAVE must be 0"
(30_encoding.md R83, R88). -/
def slaveOk (dflt : Bool) (slave : Byte) : Bool := !dflt || slave == 0#8

/-- `i` is a command some command word encodes. -/
def Instr.wf : Instr → Bool
  | .crcReset => true
  | .crcFeed _ => true
  | .crcRead => true
  | .buildRequest _ _ _ _ => true
  | .requestFrom _ _ _ _ => true
  | .setTimeout _ => true
  | .decBit _ _ => true
  | .decByte _ => true
  | .decWord16 _ _ => true
  | .decDword32 _ _ _ => true
  | .coilRead dflt slave _ => slaveOk dflt slave
  | .discreteInputRead dflt slave _ => slaveOk dflt slave
  | .holdingRegisterRead _ _ dflt slave _ _ => slaveOk dflt slave
  | .inputRegisterRead _ _ dflt slave _ _ => slaveOk dflt slave
  | .readTxbuf _ => true
  | .readRxbuf _ => true
  | .readRxlen => true
  | .readState => true
  | .readCurSlave => true
  | .readTimeout => true

end Sys2Proof
end

