-- ==== Sys2Proof/Decode.lean ====
section
/-! DEFINITION. The decoder of 30_encoding.md R89, total on every 64-bit word and rejecting by
name, and after it the encoder, written from the same tables (R80, R83 to R85). -/

namespace Sys2Proof

/-! ### The fields of a command word (R80, R83) -/

/-- OP = CW[7:0] -/
def fieldOp (cw : CmdWord) : Byte := cw.extractLsb' 0 8

/-- SLAVE = CW[15:8], and BYTE of CRC_FEED -/
def fieldSlave (cw : CmdWord) : Byte := cw.extractLsb' 8 8

/-- FC = CW[23:16] -/
def fieldFc (cw : CmdWord) : Byte := cw.extractLsb' 16 8

/-- SIGNED = CW[24] -/
def fieldSigned (cw : CmdWord) : Bool := cw.getLsbD 24

/-- HIGH_FIRST = CW[25] -/
def fieldHighFirst (cw : CmdWord) : Bool := cw.getLsbD 25

/-- DEFAULT_SLAVE = CW[26] -/
def fieldDefault (cw : CmdWord) : Bool := cw.getLsbD 26

/-- A = CW[47:32] -/
def fieldA (cw : CmdWord) : Half := cw.extractLsb' 32 16

/-- B = CW[63:48] -/
def fieldB (cw : CmdWord) : Half := cw.extractLsb' 48 16

/-- T32 = CW[63:32] -/
def fieldT32 (cw : CmdWord) : Word := cw.extractLsb' 32 32

/-! ### Formats and the opcode map (R84, R85) -/

/-- The ten command formats of R84. -/
inductive Format where
  | N | BY | RQ | TM | IX | BT | D16 | D32 | W1 | W2
deriving DecidableEq, Repr

/-- The mask of each format (R84): the bits that are fixed. -/
def Format.mask : Format → CmdWord
  | .N   => 0xFFFFFFFFFFFFFFFF#64
  | .BY  => 0xFFFFFFFFFFFF00FF#64
  | .RQ  => 0x00000000FF0000FF#64
  | .TM  => 0x00000000FFFFFFFF#64
  | .IX  => 0xFFFF0000FFFFFFFF#64
  | .BT  => 0x00000000FFFFFFFF#64
  | .D16 => 0xFFFF0000FEFFFFFF#64
  | .D32 => 0xFFFF0000FCFFFFFF#64
  | .W1  => 0xFFFF0000FBFF00FF#64
  | .W2  => 0x00000000F8FF00FF#64

/-- Formats of the read wrappers: the ones whose DEFAULT_SLAVE flag is checked (R88). -/
def Format.hasSlaveFlag : Format → Bool
  | .W1 | .W2 => true
  | .N | .BY | .RQ | .TM | .IX | .BT | .D16 | .D32 => false

/-- One row of the opcode map. -/
structure OpRow where
  op : Byte
  format : Format
deriving DecidableEq, Repr

/-- The opcode map of R85: OP and format, row by row. -/
def opTable : List OpRow :=
  [⟨0x01#8, .N⟩, ⟨0x02#8, .BY⟩, ⟨0x03#8, .N⟩, ⟨0x10#8, .RQ⟩, ⟨0x20#8, .RQ⟩, ⟨0x21#8, .TM⟩,
   ⟨0x30#8, .BT⟩, ⟨0x31#8, .IX⟩, ⟨0x32#8, .D16⟩, ⟨0x33#8, .D32⟩] ++
  [⟨0x40#8, .W1⟩, ⟨0x41#8, .W1⟩, ⟨0x42#8, .W2⟩, ⟨0x43#8, .W2⟩, ⟨0x50#8, .IX⟩, ⟨0x51#8, .IX⟩,
   ⟨0x52#8, .N⟩, ⟨0x53#8, .N⟩, ⟨0x54#8, .N⟩, ⟨0x55#8, .N⟩]

/-- The first row with this OP. -/
def findRow (op : Byte) : List OpRow → Option OpRow
  | [] => none
  | r :: rs => if op = r.op then some r else findRow op rs

/-- Why a word is no command (R86 to R88). -/
inductive Reject where
  /-- "Every OP value not in rule R85 … is reserved" (R86). -/
  | reservedOpcode
  /-- "a 1 in a bit its format does not use" (R87). -/
  | reservedBits
  /-- "DEFAULT_SLAVE = 1 and SLAVE ≠ 0" (R88). -/
  | defaultSlaveWithSlave
deriving DecidableEq, Repr

/-- The command of a word whose OP is in the table, with its fields assembled by R82; `none` for
an OP outside the table. -/
def assembleFields (cw : CmdWord) : Option Instr :=
  match (fieldOp cw).toNat with
  | 0x01 => some .crcReset
  | 0x02 => some (.crcFeed (fieldSlave cw))
  | 0x03 => some .crcRead
  | 0x10 => some (.buildRequest (fieldSlave cw) (fieldFc cw) (fieldA cw) (fieldB cw))
  | 0x20 => some (.requestFrom (fieldSlave cw) (fieldFc cw) (fieldA cw) (fieldB cw))
  | 0x21 => some (.setTimeout (fieldT32 cw))
  | 0x30 => some (.decBit (fieldA cw) (fieldB cw))
  | 0x31 => some (.decByte (fieldA cw))
  | 0x32 => some (.decWord16 (fieldSigned cw) (fieldA cw))
  | 0x33 => some (.decDword32 (fieldSigned cw) (fieldHighFirst cw) (fieldA cw))
  | 0x40 => some (.coilRead (fieldDefault cw) (fieldSlave cw) (fieldA cw))
  | 0x41 => some (.discreteInputRead (fieldDefault cw) (fieldSlave cw) (fieldA cw))
  | 0x42 => some (.holdingRegisterRead (fieldSigned cw) (fieldHighFirst cw) (fieldDefault cw)
      (fieldSlave cw) (fieldA cw) (fieldB cw))
  | 0x43 => some (.inputRegisterRead (fieldSigned cw) (fieldHighFirst cw) (fieldDefault cw)
      (fieldSlave cw) (fieldA cw) (fieldB cw))
  | 0x50 => some (.readTxbuf (fieldA cw))
  | 0x51 => some (.readRxbuf (fieldA cw))
  | 0x52 => some .readRxlen
  | 0x53 => some .readState
  | 0x54 => some .readCurSlave
  | 0x55 => some .readTimeout
  | _ => none

/-- `decode(CW)` of R89, with its checks in their order: OP, then the format's fixed bits, then
DEFAULT_SLAVE against SLAVE. -/
def decode (cw : CmdWord) : Except Reject Instr :=
  match findRow (fieldOp cw) opTable with
  | none => .error .reservedOpcode
  | some row =>
    if cw &&& row.format.mask = row.op.setWidth 64 then
      if row.format.hasSlaveFlag && fieldDefault cw && fieldSlave cw != 0#8 then
        .error .defaultSlaveWithSlave
      else
        match assembleFields cw with
        | some i => .ok i
        | none => .error .reservedOpcode
    else .error .reservedBits

/-! ### The encoder -/

/-- "CW = OP | SLAVE<<8 | FC<<16 | FLAGS<<24 | A<<32 | B<<48" (R80). -/
def packWord (op slave fc flags : Byte) (a b : Half) : CmdWord :=
  op.setWidth 64 ||| (slave.setWidth 64 <<< 8) ||| (fc.setWidth 64 <<< 16) |||
    (flags.setWidth 64 <<< 24) ||| (a.setWidth 64 <<< 32) ||| (b.setWidth 64 <<< 48)

/-- "CW = OP | T32<<32" (R80). -/
def packTimeout (op : Byte) (t : Word) : CmdWord := op.setWidth 64 ||| (t.setWidth 64 <<< 32)

/-- The FLAGS byte (R83): SIGNED is CW[24], HIGH_FIRST CW[25], DEFAULT_SLAVE CW[26]. -/
def packFlags (signed highFirst dflt : Bool) : Byte :=
  (BitVec.ofBool signed).setWidth 8 ||| ((BitVec.ofBool highFirst).setWidth 8 <<< 1) |||
    ((BitVec.ofBool dflt).setWidth 8 <<< 2)

/-- OP of each command (R85). -/
def Instr.op : Instr → Byte
  | .crcReset => 0x01#8
  | .crcFeed _ => 0x02#8
  | .crcRead => 0x03#8
  | .buildRequest _ _ _ _ => 0x10#8
  | .requestFrom _ _ _ _ => 0x20#8
  | .setTimeout _ => 0x21#8
  | .decBit _ _ => 0x30#8
  | .decByte _ => 0x31#8
  | .decWord16 _ _ => 0x32#8
  | .decDword32 _ _ _ => 0x33#8
  | .coilRead _ _ _ => 0x40#8
  | .discreteInputRead _ _ _ => 0x41#8
  | .holdingRegisterRead _ _ _ _ _ _ => 0x42#8
  | .inputRegisterRead _ _ _ _ _ _ => 0x43#8
  | .readTxbuf _ => 0x50#8
  | .readRxbuf _ => 0x51#8
  | .readRxlen => 0x52#8
  | .readState => 0x53#8
  | .readCurSlave => 0x54#8
  | .readTimeout => 0x55#8

/-- The command word of a command; a field its format does not use is 0 (R84). -/
def encode (i : Instr) : CmdWord :=
  match i with
  | .crcReset => packWord i.op 0 0 0 0 0
  | .crcFeed byte => packWord i.op byte 0 0 0 0
  | .crcRead => packWord i.op 0 0 0 0 0
  | .buildRequest slave fc start qty => packWord i.op slave fc 0 start qty
  | .requestFrom slave fc start qty => packWord i.op slave fc 0 start qty
  | .setTimeout ms => packTimeout i.op ms
  | .decBit index bit => packWord i.op 0 0 0 index bit
  | .decByte index => packWord i.op 0 0 0 index 0
  | .decWord16 signed reg => packWord i.op 0 0 (packFlags signed false false) reg 0
  | .decDword32 signed high reg => packWord i.op 0 0 (packFlags signed high false) reg 0
  | .coilRead dflt slave addr => packWord i.op slave 0 (packFlags false false dflt) addr 0
  | .discreteInputRead dflt slave addr => packWord i.op slave 0 (packFlags false false dflt) addr 0
  | .holdingRegisterRead signed high dflt slave addr blocks =>
      packWord i.op slave 0 (packFlags signed high dflt) addr blocks
  | .inputRegisterRead signed high dflt slave addr blocks =>
      packWord i.op slave 0 (packFlags signed high dflt) addr blocks
  | .readTxbuf index => packWord i.op 0 0 0 index 0
  | .readRxbuf index => packWord i.op 0 0 0 index 0
  | .readRxlen => packWord i.op 0 0 0 0 0
  | .readState => packWord i.op 0 0 0 0 0
  | .readCurSlave => packWord i.op 0 0 0 0 0
  | .readTimeout => packWord i.op 0 0 0 0 0

/-! ### The opcode table's numbering -/

/-- The command word whose low `nbits` bits are those of `w` and whose other bits are 0. The
command word is one 64-bit port write (R81) with bit 0 its least significant bit, as the table
numbers it. -/
def tableWord (nbits w : Nat) : CmdWord := BitVec.ofNat 64 (w % 2 ^ nbits)

/-- The instruction `decode` reads from an instruction of the table's numbering; a word of more
than 64 bits is no command word. -/
def decodeTableWord (nbits w : Nat) : Option Instr :=
  if nbits ≤ 64 then
    match decode (tableWord nbits w) with
    | .ok i => some i
    | .error _ => none
  else none

end Sys2Proof
end

