-- ==== Sys2Proof/Config.lean ====
section
/-! DEFINITION. What an implementation fixes (00_scope.md R7), what the agents around the engine
may do next (00_scope.md R6), and the free values: constants without a body, of which nothing can
be proved but that they are there. -/

namespace Sys2Proof

/-- A level of the direction output: `setLevel(high|low)` (60_exceptions.md R282). -/
inductive Level where
  | low
  | high
deriving DecidableEq, Repr, Inhabited

/-- The level that is not this one (41_framer_transport.md R146). -/
def Level.other : Level → Level
  | .low => .high
  | .high => .low

/-- The OPEN implementation parameters of 00_scope.md R7, "fixed when the hardware is built"
(70_reset_and_hazards.md R302). State holds them and nothing writes them, so that a statement
about every state is a statement about every choice of them (log 4). -/
structure Params where
  /-- `RX_CAP`: receive buffer bytes, at least 512. -/
  rxCap : Nat
  /-- `DIR_PRESENT`: whether a direction output is configured. -/
  dirPresent : Bool
  /-- `DIR_TX_LEVEL`: the level that means transmit-enable. -/
  dirTxLevel : Level
  /-- `INIT_SLAVE_ID`: CUR_SLAVE after reset. -/
  initSlaveId : Byte
deriving DecidableEq, Repr

/-- The receive-enable level: "the level that is not DIR_TX_LEVEL" (41_framer_transport.md R145). -/
def Params.dirRxLevel (p : Params) : Level := p.dirTxLevel.other

/-- One move of one agent. "Each agent has its own step; any enabled step of any agent may be
taken next" (00_scope.md R6). -/
inductive Move where
  /-- The host writes the command port CW (10_state.md R22). -/
  | host (cw : CmdWord)
  /-- The engine takes a transmit or receive step. -/
  | engine
  /-- `line_deliver(b)` (60_exceptions.md R281). -/
  | deliver (b : Byte)
  /-- `line_send` (60_exceptions.md R281). -/
  | send
  /-- `clock_step` (60_exceptions.md R280). -/
  | tick
  /-- The reset input is asserted (70_reset_and_hazards.md R300). -/
  | reset
deriving DecidableEq, Repr, Inhabited

namespace Config

/-- `TX_CAP` (00_scope.md R7). -/
def txCap : Nat := 8

/-- The least `RX_CAP` a model may take (00_scope.md R8). -/
def rxCapMin : Nat := 512

/-- `SETTLE_MS` (00_scope.md R7). -/
def settleMs : Nat := 1

/-- `TIMEOUT_RESET` (00_scope.md R7). -/
def timeoutReset : Word := 100#32

/-- `MAX_BLOCKS` (00_scope.md R7). -/
def maxBlocks : Nat := 2

/-- FREE VALUE (log 11): the unspecified RESULT of the n-th `raise S(?)`: "any value, drawn fresh
at each such completion" (93_implementation_defined.md I4). -/
opaque freeResult : Nat → Word

/-- FREE VALUE (log 1): the n-th move of the agents that no one has listed: the interleaving and
the line's bytes are "the model's choice (a draw)" (60_exceptions.md R281, R288). -/
opaque freeMove : Nat → Move

/-- FREE VALUE (log 5): `INIT_SLAVE_ID` of the machine `State.reset` is, "OPEN, any 8-bit value"
(00_scope.md R7). -/
opaque initSlaveId : Byte

/-- The parameters of `State.reset`. RX_CAP and DIR_TX_LEVEL are the values R7 gives "where a
model needs one value"; DIR_PRESENT is the model's (DESIGN CHOICE, log 4). -/
def params : Params :=
  { rxCap := 512, dirPresent := true, dirTxLevel := .high, initSlaveId := initSlaveId }

end Config

end Sys2Proof
end

