-- ==== Sys2Proof/Machine/State.lean ====
section
/-! DEFINITION. The machine's state (10_state.md), as plain data, the reasons a step can stop, and
the state right after reset (70_reset_and_hazards.md R300). -/

namespace Sys2Proof
namespace Machine

/-- CMD_STATUS: the six codes of 60_exceptions.md R270. Codes 6 to 15 are "reserved, never
written" and are not values of this type (log 15). -/
inductive Status where
  | ok
  | illegalCommand
  | illegalOperand
  | unsupportedFunction
  | decodePrecondition
  | transactionFailed
deriving DecidableEq, Repr

/-- STATE: the ten states of 10_state.md R28. Codes 7 and 11 to 15 are "reserved, never written"
and are not values of this type (log 15). -/
inductive TxnState where
  | idle
  | txSettlePre
  | txSending
  | txSettlePost
  | awaitingSync
  | headerCaptured
  | accumulating
  | complete
  | timedOut
  | crcError
deriving DecidableEq, Repr

/-- A byte-indexed memory (20_memory.md R60): the bytes written since reset, each with its index.
An index not listed has no value: its reset value is unspecified (10_state.md R45, log 10). -/
abbrev Memory := List Host.Cell

/-- The canonical form: indices strictly rising. (An unlisted index has no value, so no entry can
equal what it reads as.) -/
abbrev Memory.wf (m : Memory) : Prop := m.Pairwise (fun a b => a.1 < b.1)

/-- The state: the engine's registers and buffers, the direction output, the environment's state
(10_state.md R20), the implementation parameters, and the model's own bookkeeping. -/
structure State where
  /-- The implementation parameters (00_scope.md R7). Nothing writes them. -/
  params : Params
  /-- BUSY (10_state.md R23) -/
  busy : Bool
  /-- CMD_STATUS (10_state.md R24) -/
  cmdStatus : Status
  /-- RESULT (10_state.md R25) -/
  result : Word
  /-- TIMEOUT_MS (10_state.md R26) -/
  timeoutMs : Word
  /-- CUR_SLAVE (10_state.md R27) -/
  curSlave : Byte
  /-- STATE (10_state.md R28) -/
  txnState : TxnState
  /-- M, the match counter, "values 0, 1 and 2 only" (10_state.md R29) -/
  m : Fin 3
  /-- EXP_LEN (10_state.md R30) -/
  expLen : BitVec 9
  /-- RX_LEN (10_state.md R31) -/
  rxLen : Half
  /-- T_LAST (10_state.md R32) -/
  tLast : Word
  /-- T_MARK (10_state.md R33) -/
  tMark : Word
  /-- PEND (10_state.md R34) -/
  pend : CmdWord
  /-- TXBUF (10_state.md R35): indices 0 to 7 -/
  txbuf : Memory
  /-- RXBUF (10_state.md R36): indices 0 to RX_CAP−1 -/
  rxbuf : Memory
  /-- CRC_ACC (10_state.md R37) -/
  crcAcc : Half
  /-- DIR (10_state.md R38): an output only when DIR_PRESENT (log 18) -/
  dir : Level
  /-- NOW (10_state.md R39) -/
  now : Word
  /-- INQ (10_state.md R40), oldest byte first -/
  inq : List Byte
  /-- OUTQ (10_state.md R41), oldest byte first -/
  outq : List Byte
  /-- WIRE_TX (10_state.md R41), first byte sent first -/
  wireTx : List Byte
  /-- MODEL'S OWN (log 1): the agents' next moves, the next one first. -/
  moves : List Move
  /-- MODEL'S OWN (log 1, 17): how many free moves have been drawn. -/
  moveIdx : Nat
  /-- MODEL'S OWN (log 11, 17): how many unspecified RESULTs have been drawn. -/
  freeIdx : Nat
  /-- MODEL'S OWN (log 3): a CW write was made while BUSY = 1 ("A model records the refusal as a
  violation of the host's duty", 60_exceptions.md R277). -/
  dutyViolated : Bool
deriving DecidableEq, Repr

/-- Why a step stops although the engine would go on. -/
inductive Fault where
  /-- SAFE. Raised by READ_TXBUF of a TXBUF byte nothing has written since reset: "the hardware
  returns some byte, and a model faults" (10_state.md R45, 44_api.md R240). The transmit steps
  would raise it too, but always find TXBUF written. -/
  | unwrittenTxbuf (index : Nat)
  /-- SAFE. Raised by READ_RXBUF of an RXBUF byte nothing has written since reset (10_state.md R45,
  44_api.md R241). The decoder and the validator would raise it too, but only read bytes of a
  frame taken. -/
  | unwrittenRxbuf (index : Nat)
  /-- SAFE. Raised by the synchronizer when M = 2 in AWAITING_SYNC: the prefix has no third byte. No
  run reaches it (log 13). -/
  | syncCounterSpent
  /-- SAFE. Raised by the validator when RX_LEN < 2: the frame has no trailing CRC. No run reaches
  it (log 13). -/
  | frameTooShort
deriving DecidableEq, Repr

/-- Why the model has no meaning for a step. -/
inductive Refusal where
  /-- SAFE. An instruction whose arm of `exec` has no meaning yet. -/
  | notModelled (mnemonic : String)
  /-- SAFE. Raised by every step of a machine whose RX_CAP is below 512: "A model must refuse a
  parameter choice of RX_CAP below 512" (00_scope.md R8). -/
  | rxCapBelowMinimum
  /-- SAFE. Raised by a receive step that would store at an index RX_CAP or above: "If a model's
  parameter made it reachable: refuse" (93_implementation_defined.md I9). No run reaches it
  (42_receiver.md R169, log 14). -/
  | rxbufOverflow (index : Nat)
deriving DecidableEq, Repr

/-- What a meaning or a step answers. -/
abbrev Result := Host.Outcome State Fault Refusal

/-- The machine with parameters `p` right after power-on, "a reset" (70_reset_and_hazards.md R300).
T_LAST, T_MARK and PEND are unspecified there: 0 is the model's (DESIGN CHOICE, log 6 to 8). NOW and
INQ are draws in the spec: 0 and empty are the model's (DESIGN CHOICE, log 9). -/
def State.powerOn (p : Params) : State :=
  { params := p, busy := false, cmdStatus := .ok, result := 0#32, timeoutMs := Config.timeoutReset,
    curSlave := p.initSlaveId, txnState := .idle, m := 0, expLen := 0#9, rxLen := 0#16,
    tLast := 0#32, tMark := 0#32, pend := 0#64, txbuf := [], rxbuf := [], crcAcc := 0xFFFF#16,
    dir := p.dirRxLevel, now := 0#32, inq := [], outq := [], wireTx := [],
    moves := [], moveIdx := 0, freeIdx := 0, dutyViolated := false }

/-- The machine right after reset. -/
def State.reset : State := State.powerOn Config.params

end Machine
end Sys2Proof
end

