-- ==== Sys2Proof/Machine/Flags.lean ====
section
/-! DEFINITION. The status flags: "BUSY …, CMD_STATUS … STATE …. There are no condition codes,
predicates or carry flags" (10_state.md R42). Their codes, what the host reads, and the groups of
STATE values the rules speak of. -/

namespace Sys2Proof
namespace Machine

/-- CMD_STATUS as the host reads it (60_exceptions.md R270). -/
def Status.code : Status → BitVec 4
  | .ok => 0#4
  | .illegalCommand => 1#4
  | .illegalOperand => 2#4
  | .unsupportedFunction => 3#4
  | .decodePrecondition => 4#4
  | .transactionFailed => 5#4

/-- STATE as READ_STATE gives it (10_state.md R28). -/
def TxnState.code : TxnState → BitVec 4
  | .idle => 0#4
  | .txSettlePre => 1#4
  | .txSending => 2#4
  | .txSettlePost => 3#4
  | .awaitingSync => 4#4
  | .headerCaptured => 5#4
  | .accumulating => 6#4
  | .complete => 8#4
  | .timedOut => 9#4
  | .crcError => 10#4

/-- STATE is one of the transmit sub-states (41_framer_transport.md R147). -/
def TxnState.transmitting : TxnState → Bool
  | .txSettlePre | .txSending | .txSettlePost => true
  | .idle | .awaitingSync | .headerCaptured | .accumulating | .complete | .timedOut | .crcError =>
    false

/-- STATE is one of the receiving states (42_receiver.md R161). -/
def TxnState.receiving : TxnState → Bool
  | .awaitingSync | .headerCaptured | .accumulating => true
  | .idle | .txSettlePre | .txSending | .txSettlePost | .complete | .timedOut | .crcError => false

/-- A transaction is running. -/
def TxnState.active (t : TxnState) : Bool := t.transmitting || t.receiving

/-- "Terminal state: COMPLETE, TIMED_OUT or CRC_ERROR" (00_scope.md R14). -/
def TxnState.terminal : TxnState → Bool
  | .complete | .timedOut | .crcError => true
  | .idle | .txSettlePre | .txSending | .txSettlePost | .awaitingSync | .headerCaptured
  | .accumulating => false

/-- The host's read of BUSY (10_state.md R23). -/
def readBusy (s : State) : BitVec 1 := BitVec.ofBool s.busy

/-- The host's read of CMD_STATUS (10_state.md R24). -/
def readCmdStatus (s : State) : BitVec 4 := s.cmdStatus.code

/-- The host's read of RESULT (10_state.md R25). -/
def readResult (s : State) : Word := s.result

/-- The direction output pin: absent when DIR_PRESENT is false (60_exceptions.md R282). -/
def dirOutput (s : State) : Option Level := if s.params.dirPresent then some s.dir else none

/-- The word the host is writing to CW in the next move, if that move is its (10_state.md R22,
log 23). -/
def State.cw (s : State) : Option CmdWord :=
  match s.moves with
  | .host w :: _ => some w
  | _ => none

/-- `supported(fc)`: "true exactly when fc ∈ {1, 2, 3, 4}" (41_framer_transport.md R131). -/
def supported (fc : Byte) : Bool := fc == 1#8 || fc == 2#8 || fc == 3#8 || fc == 4#8

end Machine
end Sys2Proof
end

