-- ==== Sys2Proof/Machine/Ops.lean ====
section
/-! DEFINITION. The named operations over the state: completion (`finish`, `raise`: the one way a
failure is taken, and there is nothing to return from, 60_exceptions.md R275, R276), acceptance,
the two buffers, the line, the clock, the direction output, the CRC function, and reset. The names
are those of 00_scope.md R10. -/

namespace Sys2Proof
namespace Machine

/-! ### Results -/

/-- Go on with `k` when `r` is a next state; a fault or refusal ends the step. -/
def andThen (r : Result) (k : State → Result) : Result :=
  match r with
  | .next s => k s
  | .fault f => .fault f
  | .refused f => .refused f

/-- Go on with a value read from a buffer; an unwritten byte ends the step in its fault. -/
def withRead {α : Type} (v : Except Fault α) (k : α → Result) : Result :=
  match v with
  | .ok a => k a
  | .error f => .fault f

/-! ### Completion (00_scope.md R10, 60_exceptions.md R270, R275) -/

/-- `finish(v)`: "CMD_STATUS <- 0; RESULT <- v; BUSY <- 0". -/
def finish (v : Word) (s : State) : State :=
  { s with cmdStatus := .ok, result := v, busy := false }

/-- `raise S(v)`: "CMD_STATUS <- S; RESULT <- v; BUSY <- 0". The one operation by which a failure is
taken: "A failure does not save state, change mode, mask anything, push anything or redirect
control" (60_exceptions.md R275). -/
def raise (st : Status) (v : Word) (s : State) : State :=
  { s with cmdStatus := st, result := v, busy := false }

/-- `raise S(?)`: RESULT is "any value, drawn fresh at each such completion"
(93_implementation_defined.md I4, log 11). -/
def raiseFree (st : Status) (s : State) : State :=
  { raise st (Config.freeResult s.freeIdx) s with freeIdx := s.freeIdx + 1 }

/-- The source's −1 (10_state.md R25). -/
def minusOne : Word := 0xFFFFFFFF#32

/-- `finish` with a value assembled from buffer bytes. -/
def finishRead (v : Except Fault Word) (s : State) : Result :=
  withRead v fun w => .next (finish w s)

/-- "an accepted write is copied to PEND (rule R34), sets BUSY to 1" (10_state.md R22). -/
def accept (cw : CmdWord) (s : State) : State := { s with pend := cw, busy := true }

/-! ### The buffers (10_state.md R35, R36; 20_memory.md R60) -/

/-- The byte at index `i`, if one has been written. -/
def Memory.read : Memory → Nat → Option Byte
  | [], _ => none
  | (a, b) :: rest, i => if i = a then some b else Memory.read rest i

/-- Write one byte, keeping the indices rising. -/
def Memory.write : Memory → Nat → Byte → Memory
  | [], i, v => [(i, v)]
  | (a, b) :: rest, i, v =>
    if i < a then (i, v) :: (a, b) :: rest
    else if i = a then (i, v) :: rest
    else (a, b) :: Memory.write rest i v

/-- `MemWrite(BUF, i, n, list)`: the list's bytes from index `i` up, in order. -/
def Memory.writeList : Memory → Nat → List Byte → Memory
  | m, _, [] => m
  | m, i, b :: bs => Memory.writeList (Memory.write m i b) (i + 1) bs

/-- `TXBUF[i]`; a byte nothing has written is the fault of 10_state.md R45. -/
def txRead (s : State) (i : Nat) : Except Fault Byte :=
  match Memory.read s.txbuf i with
  | some b => .ok b
  | none => .error (.unwrittenTxbuf i)

/-- `RXBUF[i]`; a byte nothing has written is the fault of 10_state.md R45. -/
def rxRead (s : State) (i : Nat) : Except Fault Byte :=
  match Memory.read s.rxbuf i with
  | some b => .ok b
  | none => .error (.unwrittenRxbuf i)

/-- `MemRead(TXBUF, i, n)` -/
def txReadList (s : State) : Nat → Nat → Except Fault (List Byte)
  | _, 0 => .ok []
  | i, n + 1 => do
    let b ← txRead s i
    let bs ← txReadList s (i + 1) n
    return b :: bs

/-- `MemRead(RXBUF, i, n)` -/
def rxReadList (s : State) : Nat → Nat → Except Fault (List Byte)
  | _, 0 => .ok []
  | i, n + 1 => do
    let b ← rxRead s i
    let bs ← rxReadList s (i + 1) n
    return b :: bs

/-- `RXBUF[i] <- b`, refused outside the buffer (93_implementation_defined.md I9). -/
def storeRx (i : Nat) (b : Byte) (s : State) : Result :=
  if i < s.params.rxCap then .next { s with rxbuf := Memory.write s.rxbuf i b }
  else .refused (.rxbufOverflow i)

/-! ### Byte order (00_scope.md R10, 20_memory.md R62 to R64) -/

/-- bits [7:0] -/
def lo8 (w : Half) : Byte := w.extractLsb' 0 8

/-- bits [15:8] -/
def hi8 (w : Half) : Byte := w.extractLsb' 8 8

/-- `be16(hi, lo) = (zext_16(hi) << 8) | zext_16(lo)` -/
def be16 (hi lo : Byte) : Half := (hi.setWidth 16 <<< 8) ||| lo.setWidth 16

/-- `le16(lo, hi) = (zext_16(hi) << 8) | zext_16(lo)` -/
def le16 (lo hi : Byte) : Half := (hi.setWidth 16 <<< 8) ||| lo.setWidth 16

/-! ### The CRC function (40_crc.md R111) -/

/-- `n` rounds of the shift loop: "if c[0] == 1: c <- (c >> 1) ^ 0xA001 else: c <- c >> 1". -/
def crcShift : Nat → Half → Half
  | 0, c => c
  | n + 1, c => crcShift n (if c.getLsbD 0 then (c >>> 1) ^^^ 0xA001#16 else c >>> 1)

/-- `crc_step(c, b)`: XOR into the low byte, then eight shift rounds. -/
def crcStep (c : Half) (b : Byte) : Half := crcShift 8 (c ^^^ b.setWidth 16)

/-- `crc16(list)`, from 0xFFFF. -/
def crc16 (bs : List Byte) : Half := bs.foldl crcStep 0xFFFF#16

/-! ### The line, the clock and the direction output (00_scope.md R10) -/

/-- `elapsed(t) = (NOW − t) mod 2^32` -/
def elapsed (s : State) (t : Word) : Word := s.now - t

/-- The inter-byte timeout's test: `elapsed(T_LAST) >= TIMEOUT_MS` (42_receiver.md R161). -/
def timeoutElapsed (s : State) : Bool := decide (s.timeoutMs.toNat ≤ (elapsed s s.tLast).toNat)

/-- The settling delay's test: `elapsed(T_MARK) >= 1` (41_framer_transport.md R143, R145). -/
def settled (s : State) : Bool := decide (Config.settleMs ≤ (elapsed s s.tMark).toNat)

/-- `LineAvail()` -/
def lineAvail (s : State) : Bool := !s.inq.isEmpty

/-- `LineDrained()` -/
def lineDrained (s : State) : Bool := s.outq.isEmpty

/-- `LineWrite(list)` -/
def lineWrite (bs : List Byte) (s : State) : State := { s with outq := s.outq ++ bs }

/-- `SetDir(level)`: "When DIR_PRESENT is false there is no output and SetDir does nothing"
(41_framer_transport.md R146). -/
def setDir (l : Level) (s : State) : State :=
  { s with dir := if s.params.dirPresent then l else s.dir }

/-- `clock_step` (60_exceptions.md R280) -/
def clockStep (s : State) : State := { s with now := s.now + 1#32 }

/-- `line_deliver(b)` (60_exceptions.md R281) -/
def lineDeliver (b : Byte) (s : State) : State := { s with inq := s.inq ++ [b] }

/-- `line_send` (60_exceptions.md R281), enabled when OUTQ is not empty (log 2). -/
def lineSend (s : State) : State :=
  match s.outq with
  | [] => s
  | b :: rest => { s with outq := rest, wireTx := s.wireTx ++ [b] }

/-! ### Reset (70_reset_and_hazards.md R300, R301) -/

/-- The reset input: the engine's state takes the values of 10_state.md R45, the environment's
state (NOW, INQ, OUTQ, WIRE_TX) stays. The unspecified registers take the values `State.powerOn`
names (log 6 to 8, 22) and every buffer byte is unwritten again. -/
def engineReset (s : State) : State :=
  setDir s.params.dirRxLevel
    { s with
      busy := false, cmdStatus := .ok, result := 0#32, timeoutMs := Config.timeoutReset,
      curSlave := s.params.initSlaveId, txnState := .idle, m := 0, expLen := 0#9, rxLen := 0#16,
      tLast := 0#32, tMark := 0#32, pend := 0#64, txbuf := [], rxbuf := [], crcAcc := 0xFFFF#16 }

end Machine
end Sys2Proof
end

