-- ==== Sys2Proof/Machine/Operands.lean ====
section
/-! DEFINITION. The operand forms: the payload and its precondition (43_decoder.md R200), the 16-
and 32-bit register values (R205, R206), the slave selector (44_api.md R239) and the clamp of the
block count (44_api.md R236). -/

namespace Sys2Proof
namespace Machine

/-- `payload(i) = RXBUF[3 + i]` (43_decoder.md R200) -/
def payload (s : State) (i : Nat) : Except Fault Byte := rxRead s (3 + i)

/-- `require(first, n)` and then `k`: DECODE_PRECONDITION with an unspecified RESULT unless STATE is
COMPLETE and first + n <= BC, "exact integers, no wrap" (43_decoder.md R200). BC = RXBUF[2] is read
only in COMPLETE. -/
def require (first n : Nat) (s : State) (k : Result) : Result :=
  if s.txnState = .complete then
    withRead (rxRead s 2) fun bc =>
      if first + n ≤ bc.toNat then k else .next (raiseFree .decodePrecondition s)
  else .next (raiseFree .decodePrecondition s)

/-- The big-endian 16-bit word of register `r`: payload bytes 2r and 2r + 1. -/
def regWord (s : State) (r : Nat) : Except Fault Half := do
  let hi ← payload s (2 * r)
  let lo ← payload s (2 * r + 1)
  return be16 hi lo

/-- A 16-bit word widened to RESULT: `sext_32` when signed, `zext_32` otherwise (43_decoder.md
R205). -/
def widen (signed : Bool) (w : Half) : Word := if signed then w.signExtend 32 else w.setWidth 32

/-- `w16(r, s)` (43_decoder.md R205) -/
def w16 (s : State) (r : Nat) (signed : Bool) : Except Fault Word := do
  let w ← regWord s r
  return widen signed w

/-- The two words of a 32-bit value, the most significant first. -/
def joinWords (high low : Half) : Word := (high.setWidth 32 <<< 16) ||| low.setWidth 32

/-- `w32(r, hf)` (43_decoder.md R206) -/
def w32 (s : State) (r : Nat) (highFirst : Bool) : Except Fault Word := do
  let w0 ← regWord s r
  let w1 ← regWord s (r + 1)
  return if highFirst then joinWords w0 w1 else joinWords w1 w0

/-- Bit `k` of a payload byte, bit 0 the least significant: `zext_32((p >> k) & 1)` (43_decoder.md
R201). -/
def payloadBit (p : Byte) (k : Nat) : Word := ((p >>> k) &&& 1#8).setWidth 32

/-- `slave_sel()` (44_api.md R239) -/
def slaveSel (dflt : Bool) (slave : Byte) (s : State) : Byte := if dflt then s.curSlave else slave

/-- `min(B, 2)`: "clamped to a maximum of 2 blocks" (44_api.md R236) -/
def clampBlocks (blocks : Half) : Half :=
  if Config.maxBlocks < blocks.toNat then BitVec.ofNat 16 Config.maxBlocks else blocks

end Machine
end Sys2Proof
end

