-- ==== Sys2Proof/Machine/Framer.lean ====
section
/-! DEFINITION. The frame builder and the half-duplex transmit sequencer
(41_framer_transport.md). -/

namespace Sys2Proof
namespace Machine

/-- Bytes 0 to 5 of a request (41_framer_transport.md R130, 30_encoding.md R90): start address and
quantity big-endian. -/
def frameHead (slave fc : Byte) (start qty : Half) : List Byte :=
  [slave, fc, hi8 start, lo8 start, hi8 qty, lo8 qty]

/-- `frame(slave, fc, start, qty)` (41_framer_transport.md R130): the head and its CRC, low byte
first. -/
def frame (slave fc : Byte) (start qty : Half) : List Byte :=
  let h := frameHead slave fc start qty
  let c := crc16 h
  h ++ [lo8 c, hi8 c]

/-- What `build_step` returns: `le16(f[6], f[7])` (41_framer_transport.md R132). -/
def frameCrc (slave fc : Byte) (start qty : Half) : Half :=
  let c := crc16 (frameHead slave fc start qty)
  le16 (lo8 c) (hi8 c)

/-- `build_step` (41_framer_transport.md R132): "MemWrite(TXBUF, 0, 8, f); CUR_SLAVE <- slave". -/
def buildStep (slave fc : Byte) (start qty : Half) (s : State) : State :=
  { s with txbuf := Memory.writeList s.txbuf 0 (frame slave fc start qty), curSlave := slave }

/-- BUILD_REQUEST (41_framer_transport.md R132), R131 for a function code not supported. -/
def execBuildRequest (slave fc : Byte) (start qty : Half) (s : State) : Result :=
  if supported fc then
    .next (finish ((frameCrc slave fc start qty).setWidth 32) (buildStep slave fc start qty s))
  else .next (raise .unsupportedFunction minusOne s)

/-! ### The transmit sequencer -/

/-- `LineWrite(MemRead(TXBUF, 0, 8)); STATE <- TX_SENDING` (41_framer_transport.md R142, R143). -/
def sendFrame (s : State) : Result :=
  withRead (txReadList s 0 Config.txCap) fun f =>
    .next { lineWrite f s with txnState := .txSending }

/-- "T_LAST <- NOW; STATE <- AWAITING_SYNC": the end of transmission (41_framer_transport.md R144,
R145). -/
def beginReceive (s : State) : State := { s with tLast := s.now, txnState := .awaitingSync }

/-- `start_tx` (41_framer_transport.md R140 to R142) -/
def startTx (s : State) : Result :=
  if s.params.dirPresent then
    .next { setDir s.params.dirTxLevel s with tMark := s.now, txnState := .txSettlePre }
  else sendFrame s

/-- The step in TX_SETTLE_PRE (41_framer_transport.md R143); while the delay lasts there is no step
(log 2). -/
def txSettlePreStep (s : State) : Result := if settled s then sendFrame s else .next s

/-- The step in TX_SENDING (41_framer_transport.md R144); while OUTQ holds bytes there is no step
(log 2). -/
def txSendingStep (s : State) : Result :=
  if lineDrained s then
    if s.params.dirPresent then .next { s with tMark := s.now, txnState := .txSettlePost }
    else .next (beginReceive s)
  else .next s

/-- The step in TX_SETTLE_POST (41_framer_transport.md R145); while the delay lasts there is no step
(log 2). -/
def txSettlePostStep (s : State) : Result :=
  if settled s then .next (beginReceive (setDir s.params.dirRxLevel s)) else .next s

end Machine
end Sys2Proof
end

