-- ==== Sys2Proof/Machine/Api.lean ====
section
/-! DEFINITION. The request, the configuration, the read wrappers and the diagnostic reads
(44_api.md). A transaction command's meaning is its accepting step; the transmit and receive steps
follow (Machine/Framer.lean, Machine/Receiver.lean) and end in `completeTxn`. -/

namespace Sys2Proof
namespace Machine

/-! ### The accepting steps -/

/-- The accepting step of a transaction (44_api.md R230, R238): "M <- 0; RX_LEN <- 0; build_step;
start_tx". -/
def startTransaction (slave fc : Byte) (start qty : Half) (s : State) : Result :=
  startTx (buildStep slave fc start qty { s with m := 0, rxLen := 0#16 })

/-- REQUEST_FROM (44_api.md R230); R231 for a function code not supported: "STATE <- IDLE; raise
UNSUPPORTED_FUNCTION(0xFFFFFFFF)". -/
def execRequestFrom (slave fc : Byte) (start qty : Half) (s : State) : Result :=
  if supported fc then startTransaction slave fc start qty s
  else .next (raise .unsupportedFunction minusOne { s with txnState := .idle })

/-- SET_TIMEOUT (44_api.md R233): "TIMEOUT_MS <- T32; finish(T32)". -/
def execSetTimeout (ms : Word) (s : State) : Result := .next (finish ms { s with timeoutMs := ms })

/-- COIL_READ (44_api.md R234): function code 1, quantity 1. -/
def execCoilRead (dflt : Bool) (slave : Byte) (addr : Half) (s : State) : Result :=
  startTransaction (slaveSel dflt slave s) 1#8 addr 1#16 s

/-- DISCRETE_INPUT_READ (44_api.md R235): function code 2, quantity 1. -/
def execDiscreteInputRead (dflt : Bool) (slave : Byte) (addr : Half) (s : State) : Result :=
  startTransaction (slaveSel dflt slave s) 2#8 addr 1#16 s

/-- The accepting step of a register wrapper (44_api.md R236, R237): "if B == 0: raise
ILLEGAL_OPERAND(?); q <- min(B, 2); wrapper_start(…)". -/
def startRegisterRead (fc : Byte) (dflt : Bool) (slave : Byte) (addr blocks : Half) (s : State) :
    Result :=
  if blocks = 0#16 then .next (raiseFree .illegalOperand s)
  else startTransaction (slaveSel dflt slave s) fc addr (clampBlocks blocks) s

/-- HOLDING_REGISTER_READ (44_api.md R236): function code 3. SIGNED and HIGH_FIRST are read at
completion, from PEND (R246). -/
def execHoldingRegisterRead (_signed _highFirst dflt : Bool) (slave : Byte) (addr blocks : Half)
    (s : State) : Result :=
  startRegisterRead 3#8 dflt slave addr blocks s

/-- INPUT_REGISTER_READ (44_api.md R237): function code 4. -/
def execInputRegisterRead (_signed _highFirst dflt : Bool) (slave : Byte) (addr blocks : Half)
    (s : State) : Result :=
  startRegisterRead 4#8 dflt slave addr blocks s

/-! ### Completion of a transaction -/

/-- `request_complete()` (44_api.md R232) -/
def requestComplete (s : State) : Result :=
  if s.txnState = .complete then finishRead ((rxRead s 2).map (·.setWidth 32)) s
  else .next (raise .transactionFailed minusOne s)

/-- `wrapper_complete()` (44_api.md R246): op = PEND[7:0], q = min(PEND[63:48], 2), SIGNED =
PEND[24], HIGH_FIRST = PEND[25]. -/
def wrapperComplete (s : State) : Result :=
  if s.txnState = .complete then
    let op := s.pend.extractLsb' 0 8
    if op = 0x40#8 ∨ op = 0x41#8 then
      require 0 1 s <| withRead (payload s 0) fun p => .next (finish ((p &&& 1#8).setWidth 32) s)
    else if clampBlocks (s.pend.extractLsb' 48 16) = 1#16 then
      require 0 2 s (finishRead (w16 s 0 (s.pend.getLsbD 24)) s)
    else
      require 0 4 s (finishRead (w32 s 0 (s.pend.getLsbD 25)) s)
  else .next (raise .transactionFailed minusOne s)

/-- `complete_txn()` (42_receiver.md R168): by the OP of PEND. -/
def completeTxn (s : State) : Result :=
  if s.pend.extractLsb' 0 8 = 0x20#8 then requestComplete s else wrapperComplete s

/-! ### Diagnostic reads -/

/-- READ_TXBUF (44_api.md R240) -/
def execReadTxbuf (index : Half) (s : State) : Result :=
  if Config.txCap ≤ index.toNat then .next (raiseFree .illegalOperand s)
  else withRead (txRead s index.toNat) fun b => .next (finish (b.setWidth 32) s)

/-- READ_RXBUF (44_api.md R241) -/
def execReadRxbuf (index : Half) (s : State) : Result :=
  if s.params.rxCap ≤ index.toNat then .next (raiseFree .illegalOperand s)
  else withRead (rxRead s index.toNat) fun b => .next (finish (b.setWidth 32) s)

/-- READ_RXLEN (44_api.md R242) -/
def execReadRxlen (s : State) : Result := .next (finish (s.rxLen.setWidth 32) s)

/-- READ_STATE (44_api.md R243) -/
def execReadState (s : State) : Result := .next (finish (s.txnState.code.setWidth 32) s)

/-- READ_CUR_SLAVE (44_api.md R244) -/
def execReadCurSlave (s : State) : Result := .next (finish (s.curSlave.setWidth 32) s)

/-- READ_TIMEOUT (44_api.md R245) -/
def execReadTimeout (s : State) : Result := .next (finish s.timeoutMs s)

end Machine
end Sys2Proof
end

