-- ==== Sys2Proof/Machine/CrcUnit.lean ====
section
/-! DEFINITION. The accumulator commands of the CRC unit (40_crc.md R114 to R116). -/

namespace Sys2Proof
namespace Machine

/-- CRC_RESET (40_crc.md R114): "CRC_ACC <- 0xFFFF; finish(0x0000FFFF)". -/
def execCrcReset (s : State) : Result :=
  .next (finish 0x0000FFFF#32 { s with crcAcc := 0xFFFF#16 })

/-- CRC_FEED (40_crc.md R115): "CRC_ACC <- crc_step(CRC_ACC, BYTE); finish(zext_32(CRC_ACC))". -/
def execCrcFeed (byte : Byte) (s : State) : Result :=
  let c := crcStep s.crcAcc byte
  .next (finish (c.setWidth 32) { s with crcAcc := c })

/-- CRC_READ (40_crc.md R116): "finish(zext_32(CRC_ACC))". -/
def execCrcRead (s : State) : Result := .next (finish (s.crcAcc.setWidth 32) s)

end Machine
end Sys2Proof
end

