-- ==== Sys2Proof/Machine/Decoder.lean ====
section
/-! DEFINITION. The register/bit decoder's commands (43_decoder.md R201 to R204). They "write only
CMD_STATUS, RESULT and BUSY" (R207). -/

namespace Sys2Proof
namespace Machine

/-- DEC_BIT (43_decoder.md R201): the operand check comes before the precondition
(60_exceptions.md R273). -/
def execDecBit (index bit : Half) (s : State) : Result :=
  if 8 ≤ bit.toNat then .next (raiseFree .illegalOperand s)
  else
    require index.toNat 1 s <|
      withRead (payload s index.toNat) fun p => .next (finish (payloadBit p bit.toNat) s)

/-- DEC_BYTE (43_decoder.md R202) -/
def execDecByte (index : Half) (s : State) : Result :=
  require index.toNat 1 s <|
    withRead (payload s index.toNat) fun p => .next (finish (p.setWidth 32) s)

/-- DEC_WORD16 (43_decoder.md R203): "2A is computed exactly". -/
def execDecWord16 (signed : Bool) (reg : Half) (s : State) : Result :=
  require (2 * reg.toNat) 2 s (finishRead (w16 s reg.toNat signed) s)

/-- DEC_DWORD32 (43_decoder.md R204): "SIGNED selects only whether the host reads RESULT as i32 or
u32", so it has no effect here. -/
def execDecDword32 (_signed highFirst : Bool) (reg : Half) (s : State) : Result :=
  require (2 * reg.toNat) 4 s (finishRead (w32 s reg.toNat highFirst) s)

end Machine
end Sys2Proof
end

