-- ==== Sys2Proof/Machine/Dispatch.lean ====
section
/-! DEFINITION. One arm per command: its meaning in the step that accepts it. -/

namespace Sys2Proof
namespace Machine

def exec (i : Instr) (s : State) : Host.Outcome State Fault Refusal :=
  match i with
  -- 40_crc.md
  | .crcReset => Sys2Proof.Machine.execCrcReset s
  | .crcFeed byte => Sys2Proof.Machine.execCrcFeed byte s
  | .crcRead => Sys2Proof.Machine.execCrcRead s
  -- 41_framer_transport.md
  | .buildRequest slave fc start qty => Sys2Proof.Machine.execBuildRequest slave fc start qty s
  -- 44_api.md
  | .requestFrom slave fc start qty => Sys2Proof.Machine.execRequestFrom slave fc start qty s
  | .setTimeout ms => Sys2Proof.Machine.execSetTimeout ms s
  -- 43_decoder.md
  | .decBit index bit => Sys2Proof.Machine.execDecBit index bit s
  | .decByte index => Sys2Proof.Machine.execDecByte index s
  | .decWord16 signed reg => Sys2Proof.Machine.execDecWord16 signed reg s
  | .decDword32 signed highFirst reg => Sys2Proof.Machine.execDecDword32 signed highFirst reg s
  -- 44_api.md
  | .coilRead dflt slave addr => Sys2Proof.Machine.execCoilRead dflt slave addr s
  | .discreteInputRead dflt slave addr => Sys2Proof.Machine.execDiscreteInputRead dflt slave addr s
  | .holdingRegisterRead signed highFirst dflt slave addr blocks => Sys2Proof.Machine.execHoldingRegisterRead signed highFirst dflt slave addr blocks s
  | .inputRegisterRead signed highFirst dflt slave addr blocks => Sys2Proof.Machine.execInputRegisterRead signed highFirst dflt slave addr blocks s
  | .readTxbuf index => Sys2Proof.Machine.execReadTxbuf index s
  | .readRxbuf index => Sys2Proof.Machine.execReadRxbuf index s
  | .readRxlen => Sys2Proof.Machine.execReadRxlen s
  | .readState => Sys2Proof.Machine.execReadState s
  | .readCurSlave => Sys2Proof.Machine.execReadCurSlave s
  | .readTimeout => Sys2Proof.Machine.execReadTimeout s

end Machine
end Sys2Proof
end

