-- ==== Sys2Proof/Machine/Receiver.lean ====
section
/-! DEFINITION. The response synchronizer and the receiver state machine (42_receiver.md). -/

namespace Sys2Proof
namespace Machine

/-- "RXBUF[0] <- P[0]; RXBUF[1] <- P[1]; RX_LEN <- 2; STATE <- HEADER_CAPTURED", with M = 2
(42_receiver.md R163). -/
def captureHeader (p0 p1 : Byte) (s : State) : Result :=
  andThen (storeRx 0 p0 { s with m := 2 }) fun s =>
  andThen (storeRx 1 p1 s) fun s =>
  .next { s with rxLen := 2#16, txnState := .headerCaptured }

/-- `sync_step(b)` (42_receiver.md R163), with P = [TXBUF[0], TXBUF[1]]. P has no third byte: M = 2
here is a fault, and no run reaches it (log 13). -/
def syncStep (b : Byte) (s : State) : Result :=
  withRead (txRead s 0) fun p0 =>
  withRead (txRead s 1) fun p1 =>
  match s.m with
  | 0 => if b = p0 then .next { s with m := 1 } else .next { s with m := 0 }
  | 1 =>
    if b = p1 then captureHeader p0 p1 s
    else if b = p0 then .next { s with m := 1 }
    else .next { s with m := 0 }
  | 2 => .fault .syncCounterSpent

/-- `header_step(b)` (42_receiver.md R164): "EXP_LEN <- zext_9(b) + 5". -/
def headerStep (b : Byte) (s : State) : Result :=
  andThen (storeRx 2 b s) fun s =>
  .next { s with rxLen := 3#16, expLen := b.setWidth 9 + 5#9, txnState := .accumulating }

/-- `validate()` (42_receiver.md R166). A frame of fewer than two bytes has no trailing CRC: a
fault, and no run reaches it (log 13). -/
def validate (s : State) : Result :=
  let n := s.rxLen.toNat
  if n < 2 then .fault .frameTooShort
  else
    withRead (rxReadList s 0 (n - 2)) fun body =>
    withRead (rxRead s (n - 2)) fun lo =>
    withRead (rxRead s (n - 1)) fun hi =>
    completeTxn { s with
      txnState := if crc16 body = le16 lo hi then .complete else .crcError }

/-- `accumulate_step(b)` (42_receiver.md R165) -/
def accumulateStep (b : Byte) (s : State) : Result :=
  andThen (storeRx s.rxLen.toNat b s) fun s =>
  let t := { s with rxLen := s.rxLen + 1#16 }
  if t.rxLen.toNat = t.expLen.toNat then validate t else .next t

/-- What a byte taken in each receiving state does (42_receiver.md R161). -/
def takeByte (b : Byte) (s : State) : Result :=
  match s.txnState with
  | .awaitingSync => syncStep b s
  | .headerCaptured => headerStep b s
  | .accumulating => accumulateStep b s
  | .idle | .txSettlePre | .txSending | .txSettlePost | .complete | .timedOut | .crcError => .next s

/-- `receive_step` (42_receiver.md R161): the timeout is tested first; then a byte is taken, which
refreshes T_LAST (R162); with neither there is no step (log 2). -/
def receiveStep (s : State) : Result :=
  if timeoutElapsed s then completeTxn { s with txnState := .timedOut }
  else
    match s.inq with
    | b :: rest => takeByte b { s with inq := rest, tLast := s.now }
    | [] => .next s

/-- One engine step, by STATE (10_state.md R21). In IDLE and the terminal states "no engine step
leaves them" (42_receiver.md R160). -/
def engineStep (s : State) : Result :=
  match s.txnState with
  | .txSettlePre => txSettlePreStep s
  | .txSending => txSendingStep s
  | .txSettlePost => txSettlePostStep s
  | .awaitingSync => receiveStep s
  | .headerCaptured => receiveStep s
  | .accumulating => receiveStep s
  | .idle => .next s
  | .complete => .next s
  | .timedOut => .next s
  | .crcError => .next s

/-- The engine has a step: the condition its `wait until` names holds. -/
def engineEnabled (s : State) : Bool :=
  match s.txnState with
  | .txSettlePre => settled s
  | .txSending => lineDrained s
  | .txSettlePost => settled s
  | .awaitingSync => timeoutElapsed s || lineAvail s
  | .headerCaptured => timeoutElapsed s || lineAvail s
  | .accumulating => timeoutElapsed s || lineAvail s
  | .idle => false
  | .complete => false
  | .timedOut => false
  | .crcError => false

end Machine
end Sys2Proof
end

