-- ==== Sys2Proof/Machine/Agents.lean ====
section
/-! DEFINITION. The moves of the agents (00_scope.md R6, 60_exceptions.md R277 to R281): what each
one does to the state. -/

namespace Sys2Proof
namespace Machine

/-- A CW write. While BUSY = 1 it is refused: "it is not accepted, it is not queued, and it changes
no state of the engine"; the model records it (60_exceptions.md R277, log 3). Otherwise it is
accepted (10_state.md R22), decoded (30_encoding.md R89) and run; a word that is no command
completes ILLEGAL_COMMAND with an unspecified RESULT (R86 to R88). -/
def hostWrite (cw : CmdWord) (s : State) : Result :=
  if s.busy then .next { s with dutyViolated := true }
  else
    match decode cw with
    | .ok i => exec i (accept cw s)
    | .error _ => .next (raiseFree .illegalCommand (accept cw s))

/-- One move of one agent. -/
def runMove (mv : Move) (s : State) : Result :=
  match mv with
  | .host cw => hostWrite cw s
  | .engine => engineStep s
  | .deliver b => .next (lineDeliver b s)
  | .send => .next (lineSend s)
  | .tick => .next (clockStep s)
  | .reset => .next (engineReset s)

/-- The next move and the state without it: the first listed one, or else a free value (log 1). -/
def nextMove (s : State) : Move × State :=
  match s.moves with
  | mv :: rest => (mv, { s with moves := rest })
  | [] => (Config.freeMove s.moveIdx, { s with moveIdx := s.moveIdx + 1 })

end Machine
end Sys2Proof
end

