-- ==== Sys2Proof/Machine/Step.lean ====
section
/-! DEFINITION. One step of the machine, and where an instruction word is put for the next step to
run it. -/

namespace Sys2Proof
namespace Machine

/-- One step: the next move of the agents is taken. A machine whose RX_CAP is below 512 is refused
(00_scope.md R8). -/
def step (s : State) : Host.Outcome State Fault Refusal :=
  if s.params.rxCap < Config.rxCapMin then .refused .rxCapBelowMinimum
  else runMove (nextMove s).1 (nextMove s).2

/-- `s` with the host about to write the command word `w` (numbered as the opcode table numbers it):
commands are not fetched, "the host writes each one to the CW port" (10_state.md R21), and a write
is taken only when BUSY = 0 (R22). The very next step accepts and runs it (log 16). -/
def State.withFetchWord (s : State) (nbits w : Nat) : State :=
  { s with busy := false, moves := .host (Sys2Proof.tableWord nbits w) :: s.moves }

end Machine
end Sys2Proof
end

