-- ==== Sys2Proof/Machine/Asm.lean ====
section
/-! DEFINITION. The assembler and the pseudo-instruction CRC16 (30_encoding.md R93, R94).
WAIT "is not a command: it is the host reading BUSY until it is 0" (R94). -/

namespace Sys2Proof
namespace Machine

/-- The mnemonics of 30_encoding.md R85. -/
inductive Mnemonic where
  | crcReset | crcFeed | crcRead | buildRequest | requestFrom | setTimeout
  | decBit | decByte | decWord16 | decDword32
  | coilRead | discreteInputRead | holdingRegisterRead | inputRegisterRead
  | readTxbuf | readRxbuf | readRxlen | readState | readCurSlave | readTimeout
deriving DecidableEq, Repr

/-- How a mnemonic is written. -/
def Mnemonic.text : Mnemonic → String
  | .crcReset => "CRC_RESET"
  | .crcFeed => "CRC_FEED"
  | .crcRead => "CRC_READ"
  | .buildRequest => "BUILD_REQUEST"
  | .requestFrom => "REQUEST_FROM"
  | .setTimeout => "SET_TIMEOUT"
  | .decBit => "DEC_BIT"
  | .decByte => "DEC_BYTE"
  | .decWord16 => "DEC_WORD16"
  | .decDword32 => "DEC_DWORD32"
  | .coilRead => "COIL_READ"
  | .discreteInputRead => "DISCRETE_INPUT_READ"
  | .holdingRegisterRead => "HOLDING_REGISTER_READ"
  | .inputRegisterRead => "INPUT_REGISTER_READ"
  | .readTxbuf => "READ_TXBUF"
  | .readRxbuf => "READ_RXBUF"
  | .readRxlen => "READ_RXLEN"
  | .readState => "READ_STATE"
  | .readCurSlave => "READ_CUR_SLAVE"
  | .readTimeout => "READ_TIMEOUT"

/-- An operand: a number, or the slave operand written `*`. -/
inductive AsmOperand where
  | num (n : Nat)
  | star
deriving DecidableEq, Repr

/-- A line: "the mnemonic, optional suffixes, then operands" (R93). -/
structure AsmLine where
  mnemonic : Mnemonic
  /-- suffix `.H` -/
  high : Bool
  /-- suffix `.S` -/
  signed : Bool
  operands : List AsmOperand
deriving DecidableEq, Repr

/-- The number, if it fits a field of `w` bits: "An assembler refuses an operand that does not fit
its field" (R93). -/
def fitField (w n : Nat) : Option (BitVec w) := if n < 2 ^ w then some (BitVec.ofNat w n) else none

/-- The slave operand of a read wrapper: "A slave operand written `*` sets DEFAULT_SLAVE = 1 and
SLAVE = 0" (R93). -/
def slaveOperand : AsmOperand → Option (Bool × Byte)
  | .num n => (fitField 8 n).map fun s => (false, s)
  | .star => some (true, 0#8)

/-- The operands of a line without suffixes. -/
def assemblePlain (mn : Mnemonic) (ops : List AsmOperand) : Option Instr :=
  match mn, ops with
  | .crcReset, [] => some .crcReset
  | .crcFeed, [.num b] => do return .crcFeed (← fitField 8 b)
  | .crcRead, [] => some .crcRead
  | .buildRequest, [.num s, .num f, .num a, .num q] => do
      return .buildRequest (← fitField 8 s) (← fitField 8 f) (← fitField 16 a) (← fitField 16 q)
  | .requestFrom, [.num s, .num f, .num a, .num q] => do
      return .requestFrom (← fitField 8 s) (← fitField 8 f) (← fitField 16 a) (← fitField 16 q)
  | .setTimeout, [.num t] => do return .setTimeout (← fitField 32 t)
  | .decBit, [.num i, .num b] => do return .decBit (← fitField 16 i) (← fitField 16 b)
  | .decByte, [.num i] => do return .decByte (← fitField 16 i)
  | .coilRead, [s, .num a] => do
      let (dflt, slave) ← slaveOperand s
      return .coilRead dflt slave (← fitField 16 a)
  | .discreteInputRead, [s, .num a] => do
      let (dflt, slave) ← slaveOperand s
      return .discreteInputRead dflt slave (← fitField 16 a)
  | .readTxbuf, [.num i] => do return .readTxbuf (← fitField 16 i)
  | .readRxbuf, [.num i] => do return .readRxbuf (← fitField 16 i)
  | .readRxlen, [] => some .readRxlen
  | .readState, [] => some .readState
  | .readCurSlave, [] => some .readCurSlave
  | .readTimeout, [] => some .readTimeout
  | _, _ => none

/-- The command of a line (R93): the suffixes stand only on the mnemonics whose syntax shows them, and
elsewhere the line is refused (log 25). -/
def assemble (l : AsmLine) : Option Instr :=
  match l.mnemonic, l.operands with
  | .decWord16, [.num r] =>
      if l.high then none else do return .decWord16 l.signed (← fitField 16 r)
  | .decDword32, [.num r] => do return .decDword32 l.signed l.high (← fitField 16 r)
  | .holdingRegisterRead, [s, .num a, .num b] => do
      let (dflt, slave) ← slaveOperand s
      return .holdingRegisterRead l.signed l.high dflt slave (← fitField 16 a) (← fitField 16 b)
  | .inputRegisterRead, [s, .num a, .num b] => do
      let (dflt, slave) ← slaveOperand s
      return .inputRegisterRead l.signed l.high dflt slave (← fitField 16 a) (← fitField 16 b)
  | mn, ops => if l.high || l.signed then none else assemblePlain mn ops

/-- The slave operand of a wrapper, written back. -/
def slaveText (dflt : Bool) (slave : Byte) : AsmOperand := if dflt then .star else .num slave.toNat

/-- A line without suffixes whose operands are numbers. -/
def plainLine (mn : Mnemonic) (ns : List Nat) : AsmLine := ⟨mn, false, false, ns.map .num⟩

/-- The line of a command (R93). -/
def asmLine : Instr → AsmLine
  | .crcReset => plainLine .crcReset []
  | .crcFeed byte => plainLine .crcFeed [byte.toNat]
  | .crcRead => plainLine .crcRead []
  | .buildRequest slave fc start qty =>
      plainLine .buildRequest [slave.toNat, fc.toNat, start.toNat, qty.toNat]
  | .requestFrom slave fc start qty =>
      plainLine .requestFrom [slave.toNat, fc.toNat, start.toNat, qty.toNat]
  | .setTimeout ms => plainLine .setTimeout [ms.toNat]
  | .decBit index bit => plainLine .decBit [index.toNat, bit.toNat]
  | .decByte index => plainLine .decByte [index.toNat]
  | .decWord16 signed reg => ⟨.decWord16, false, signed, [.num reg.toNat]⟩
  | .decDword32 signed high reg => ⟨.decDword32, high, signed, [.num reg.toNat]⟩
  | .coilRead dflt slave addr => ⟨.coilRead, false, false, [slaveText dflt slave, .num addr.toNat]⟩
  | .discreteInputRead dflt slave addr =>
      ⟨.discreteInputRead, false, false, [slaveText dflt slave, .num addr.toNat]⟩
  | .holdingRegisterRead signed high dflt slave addr blocks =>
      ⟨.holdingRegisterRead, high, signed,
        [slaveText dflt slave, .num addr.toNat, .num blocks.toNat]⟩
  | .inputRegisterRead signed high dflt slave addr blocks =>
      ⟨.inputRegisterRead, high, signed,
        [slaveText dflt slave, .num addr.toNat, .num blocks.toNat]⟩
  | .readTxbuf index => plainLine .readTxbuf [index.toNat]
  | .readRxbuf index => plainLine .readRxbuf [index.toNat]
  | .readRxlen => plainLine .readRxlen []
  | .readState => plainLine .readState []
  | .readCurSlave => plainLine .readCurSlave []
  | .readTimeout => plainLine .readTimeout []

/-! ### The text of a line (R93) -/

/-- The value of a decimal or hexadecimal digit. -/
def digitValue (c : Char) : Option Nat :=
  let n := c.toNat
  if 48 ≤ n ∧ n ≤ 57 then some (n - 48)
  else if 65 ≤ n ∧ n ≤ 70 then some (n - 55)
  else if 97 ≤ n ∧ n ≤ 102 then some (n - 87)
  else none

/-- The number the digits write, after the value `acc` of those before them. -/
def readDigits (base : Nat) : Nat → List Char → Option Nat
  | acc, [] => some acc
  | acc, c :: cs =>
    match digitValue c with
    | some d => if d < base then readDigits base (base * acc + d) cs else none
    | none => none

/-- "Numbers are decimal or `0x` hexadecimal" (R93). -/
def readNumber : List Char → Option Nat
  | [] => none
  | ['0', 'x'] => none
  | '0' :: 'x' :: cs => readDigits 16 0 cs
  | cs => readDigits 10 0 cs

/-- The parts between separators; a text without one is one part. -/
def splitAt (sep : Char) : List Char → List (List Char)
  | [] => [[]]
  | c :: cs =>
    if c = sep then [] :: splitAt sep cs
    else
      match splitAt sep cs with
      | [] => [[c]]
      | w :: ws => (c :: w) :: ws

/-- Without the blanks at both ends (log 25). -/
def trimBlanks (cs : List Char) : List Char :=
  ((cs.dropWhile (· = ' ')).reverse.dropWhile (· = ' ')).reverse

/-- One operand. -/
def readOperand (cs : List Char) : Option AsmOperand :=
  if cs = ['*'] then some .star else (readNumber cs).map .num

/-- "operands separated by commas" (R93) -/
def readOperands (cs : List Char) : Option (List AsmOperand) :=
  let t := trimBlanks cs
  if t = [] then some [] else (splitAt ',' t).mapM fun o => readOperand (trimBlanks o)

/-- All mnemonics. -/
def allMnemonics : List Mnemonic :=
  [.crcReset, .crcFeed, .crcRead, .buildRequest, .requestFrom, .setTimeout, .decBit, .decByte,
   .decWord16, .decDword32] ++
  [.coilRead, .discreteInputRead, .holdingRegisterRead, .inputRegisterRead, .readTxbuf, .readRxbuf,
   .readRxlen, .readState, .readCurSlave, .readTimeout]

/-- The mnemonic these characters spell. -/
def readMnemonic (cs : List Char) : Option Mnemonic :=
  allMnemonics.find? fun m => m.text.toList = cs

/-- The suffixes HIGH_FIRST and SIGNED: "when both are written, `.H` comes first" (R93). -/
def readSuffixes : List (List Char) → Option (Bool × Bool)
  | [] => some (false, false)
  | [['H']] => some (true, false)
  | [['S']] => some (false, true)
  | [['H'], ['S']] => some (true, true)
  | _ => none

/-- The line a text writes: "the mnemonic, optional suffixes, then operands separated by commas"
(R93). -/
def readLine (text : String) : Option AsmLine :=
  let cs := trimBlanks text.toList
  let head := cs.takeWhile (· ≠ ' ')
  match splitAt '.' head with
  | [] => none
  | m :: suffixes => do
    let mn ← readMnemonic m
    let (high, signed) ← readSuffixes suffixes
    let ops ← readOperands (cs.drop head.length)
    return ⟨mn, high, signed, ops⟩

/-- The command word a text assembles to, if it is a line of the syntax. -/
def assembleText (text : String) : Option CmdWord := ((readLine text).bind assemble).map encode

/-- "`CRC16 b0, b1, ..., b(n-1)` expands to `CRC_RESET`, then `CRC_FEED bi` for i = 0 to n−1 in order,
then `CRC_READ`" (R94). -/
def crc16Expansion (bs : List Byte) : List Instr := .crcReset :: bs.map .crcFeed ++ [.crcRead]

end Machine
end Sys2Proof
end

