-- ==== Sys2Proof/Safety.lean ====
section
/-! DEFINITION. What claims mean by a legal state and a safe step: the invariant the spec's rules
keep (each part with the rules it is read from), and the runs whose host keeps its duties
(60_exceptions.md R288). -/

namespace Sys2Proof
namespace Machine

/-- "A model must refuse a parameter choice of RX_CAP below 512" (00_scope.md R8). -/
abbrev paramsOk (s : State) : Prop := Config.rxCapMin ≤ s.params.rxCap

/-- Both buffers are in canonical form and list no index outside them (20_memory.md R60: "Each index
names one byte; no index names anything else"). -/
abbrev buffersOk (s : State) : Prop :=
  (Memory.wf s.txbuf ∧ ∀ c ∈ s.txbuf, c.1 < Config.txCap) ∧
    (Memory.wf s.rxbuf ∧ ∀ c ∈ s.rxbuf, c.1 < s.params.rxCap)

/-- BUSY = 1 exactly while a transaction runs (10_state.md R23). -/
abbrev busyOk (s : State) : Prop := s.busy = s.txnState.active

/-- The direction output is "at the transmit-enable level exactly while STATE is TX_SETTLE_PRE,
TX_SENDING or TX_SETTLE_POST of a transaction with DIR_PRESENT" (41_framer_transport.md R146);
without one the settling states are not entered (R140 to R142). -/
abbrev dirOk (s : State) : Prop :=
  if s.params.dirPresent then
    s.dir = if s.txnState.transmitting then s.params.dirTxLevel else s.params.dirRxLevel
  else s.txnState ≠ .txSettlePre ∧ s.txnState ≠ .txSettlePost

/-- The function code, start address and quantity a transaction command sends (44_api.md R230, R234
to R237); `none` for a command that starts no transaction. -/
def requestOf : Instr → Option (Byte × Half × Half)
  | .requestFrom _ fc start qty => if supported fc then some (fc, start, qty) else none
  | .coilRead _ _ addr => some (1#8, addr, 1#16)
  | .discreteInputRead _ _ addr => some (2#8, addr, 1#16)
  | .holdingRegisterRead _ _ _ _ addr blocks =>
      if blocks = 0#16 then none else some (3#8, addr, clampBlocks blocks)
  | .inputRegisterRead _ _ _ _ addr blocks =>
      if blocks = 0#16 then none else some (4#8, addr, clampBlocks blocks)
  | .crcReset | .crcFeed _ | .crcRead | .buildRequest _ _ _ _ | .setTimeout _ | .decBit _ _
  | .decByte _ | .decWord16 _ _ | .decDword32 _ _ _ | .readTxbuf _ | .readRxbuf _ | .readRxlen
  | .readState | .readCurSlave | .readTimeout => none

/-- PEND is a transaction command and TXBUF holds the frame of it, sent to CUR_SLAVE
(10_state.md R34, R35). -/
def requestHeld (s : State) : Bool :=
  match decode s.pend with
  | .ok i =>
    match requestOf i with
    | some (fc, start, qty) => (txReadList s 0 8).toOption == some (frame s.curSlave fc start qty)
    | none => false
  | .error _ => false

/-- While a transaction runs, its command and its request are held. -/
abbrev requestOk (s : State) : Prop := s.txnState.active = true → requestHeld s = true

/-- Every byte of the frame taken so far has been written: "the number of frame bytes held in RXBUF
from index 0 … Values 0 to 260" (10_state.md R31). -/
abbrev takenOk (s : State) : Prop :=
  s.rxLen.toNat ≤ 260 ∧ ∀ i < s.rxLen.toNat, (Memory.read s.rxbuf i).isSome = true

/-- RXBUF[0], RXBUF[1] are the prefix TXBUF[0], TXBUF[1] (42_receiver.md R163). -/
def headerTaken (s : State) : Bool :=
  Memory.read s.rxbuf 0 == Memory.read s.txbuf 0 && Memory.read s.rxbuf 1 == Memory.read s.txbuf 1

/-- `byteCount + 5`, from RXBUF[2] (42_receiver.md R164). -/
def frameLength (s : State) : Option Nat := (Memory.read s.rxbuf 2).map fun bc => bc.toNat + 5

/-- The frame's first RX_LEN − 2 bytes have the CRC its last two hold, low byte first
(42_receiver.md R166). -/
def crcMatches (s : State) : Bool :=
  match (rxReadList s 0 (s.rxLen.toNat - 2)).toOption, Memory.read s.rxbuf (s.rxLen.toNat - 2),
      Memory.read s.rxbuf (s.rxLen.toNat - 1) with
  | some body, some lo, some hi => crc16 body == le16 lo hi
  | _, _, _ => false

/-- What each STATE says of M, EXP_LEN, RX_LEN and RXBUF (42_receiver.md R163 to R167, R174). -/
def receiverOk (s : State) : Bool :=
  match s.txnState with
  | .idle => true
  | .txSettlePre | .txSending | .txSettlePost => s.m == 0 && s.rxLen == 0#16
  | .awaitingSync => s.m != 2 && s.rxLen == 0#16
  | .headerCaptured => s.m == 2 && s.rxLen == 2#16 && headerTaken s
  | .accumulating =>
    s.m == 2 && decide (3 ≤ s.rxLen.toNat) && decide (s.rxLen.toNat < s.expLen.toNat) &&
      frameLength s == some s.expLen.toNat && headerTaken s
  | .complete => frameLength s == some s.rxLen.toNat && crcMatches s
  | .crcError => frameLength s == some s.rxLen.toNat && !crcMatches s
  | .timedOut => decide (s.rxLen.toNat < 260)

/-- The invariant of every step. -/
structure Legal (s : State) : Prop where
  params : paramsOk s
  buffers : buffersOk s
  busy : busyOk s
  dir : dirOk s
  request : requestOk s
  taken : takenOk s
  receiver : receiverOk s = true

/-- The host breaks no duty in the next step: it writes no command while BUSY = 1
(60_exceptions.md R277, R288). -/
def hostKeepsDuty (s : State) : Bool :=
  match (nextMove s).1 with
  | .host _ => !s.busy
  | .engine | .deliver _ | .send | .tick | .reset => true

/-- The next move is the host's write of READ_TXBUF or READ_RXBUF: "The only reads that can reach"
an unspecified byte (10_state.md R45). -/
def hostReadsBuffer (s : State) : Bool :=
  match (nextMove s).1 with
  | .host cw =>
    match decode cw with
    | .ok (.readTxbuf _) | .ok (.readRxbuf _) => true
    | _ => false
  | .engine | .deliver _ | .send | .tick | .reset => false

/-- RESULT may be used as a value: the command is done and succeeded (70_reset_and_hazards.md
R304). -/
def resultUsable (s : State) : Bool := !s.busy && s.cmdStatus == .ok

/-- A step is safe: it goes on, and the host has broken no duty. -/
def safeStep (s : State) : Bool :=
  match step s with
  | .next t => !t.dutyViolated
  | .fault _ => false
  | .refused _ => false

/-- A run in which the n-th move is `σ n`: each step takes the move the schedule lists next. -/
def RunOf (σ : Nat → Move) (r : Nat → State) : Prop :=
  ∀ n, step { r n with moves := [σ n] } = .next (r (n + 1))

/-- The fairness of 60_exceptions.md R287, of a schedule and its run (log 19). -/
structure Fair (σ : Nat → Move) (r : Nat → State) : Prop where
  /-- (a) "an enabled engine step is taken eventually" -/
  engine : ∀ n, engineEnabled (r n) = true →
    ∃ m, n ≤ m ∧ σ m = .engine ∧ engineEnabled (r m) = true
  /-- (b) "the clock steps infinitely often" -/
  clock : ∀ n, ∃ m, n ≤ m ∧ σ m = .tick
  /-- (c) "the line takes `line_send` eventually whenever OUTQ is not empty" -/
  line : ∀ n, (r n).outq ≠ [] → ∃ m, n ≤ m ∧ σ m = .send ∧ (r m).outq ≠ []

/-! ### Terms the statements use -/

/-- Nothing but CMD_STATUS, RESULT, BUSY and the model's count of draws differs: what a completion
writes (00_scope.md R10). -/
def OnlyCompletes (s t : State) : Prop :=
  t = { s with cmdStatus := t.cmdStatus, result := t.result, busy := false, freeIdx := t.freeIdx }

/-- `t` is `s` after the accepting step of a transaction that sends this request: the session is
reset, TXBUF holds the frame and CUR_SLAVE the slave, and the transmission has begun
(44_api.md R230, R238; 41_framer_transport.md R132, R141, R142). Nothing else differs. -/
def StartedTransaction (slave fc : Byte) (start qty : Half) (s t : State) : Prop :=
  (∀ k, Memory.read t.txbuf k =
    if k < 8 then (frame slave fc start qty)[k]? else Memory.read s.txbuf k) ∧
  t = if s.params.dirPresent then
        { s with m := 0, rxLen := 0#16, txbuf := t.txbuf, curSlave := slave,
                 dir := s.params.dirTxLevel, tMark := s.now, txnState := .txSettlePre }
      else
        { s with m := 0, rxLen := 0#16, txbuf := t.txbuf, curSlave := slave,
                 outq := s.outq ++ frame slave fc start qty, txnState := .txSending }

/-- The receive step takes the byte `b`: INQ holds it first and the timeout has not elapsed
(42_receiver.md R161). -/
abbrev takesByte (s : State) (b : Byte) (rest : List Byte) : Prop :=
  s.inq = b :: rest ∧ (s.now - s.tLast).toNat < s.timeoutMs.toNat

/-- "Every OP value not in rule R85", as 30_encoding.md R86 lists them. -/
def reservedOp (op : Nat) : Bool :=
  op == 0x00 || (0x04 ≤ op && op ≤ 0x0F) || (0x11 ≤ op && op ≤ 0x1F) || (0x22 ≤ op && op ≤ 0x2F) ||
    (0x34 ≤ op && op ≤ 0x3F) || (0x44 ≤ op && op ≤ 0x4F) || (0x56 ≤ op && op ≤ 0xFF)

/-- A bit the format of its OP does not use is 1, read off the "fields used" column of
30_encoding.md R84 (not off its masks). -/
def unusedBitSet (cw : CmdWord) : Bool :=
  match (fieldOp cw).toNat with
  | 0x01 | 0x03 | 0x52 | 0x53 | 0x54 | 0x55 => cw.extractLsb' 8 56 != 0#56
  | 0x02 => cw.extractLsb' 16 48 != 0#48
  | 0x10 | 0x20 => cw.extractLsb' 24 8 != 0#8
  | 0x21 | 0x30 => cw.extractLsb' 8 24 != 0#24
  | 0x31 | 0x50 | 0x51 => cw.extractLsb' 8 24 != 0#24 || cw.extractLsb' 48 16 != 0#16
  | 0x32 => cw.extractLsb' 8 16 != 0#16 || cw.extractLsb' 25 7 != 0#7 || cw.extractLsb' 48 16 != 0#16
  | 0x33 => cw.extractLsb' 8 16 != 0#16 || cw.extractLsb' 26 6 != 0#6 || cw.extractLsb' 48 16 != 0#16
  | 0x40 | 0x41 =>
    cw.extractLsb' 16 8 != 0#8 || cw.extractLsb' 24 2 != 0#2 || cw.extractLsb' 27 5 != 0#5 ||
      cw.extractLsb' 48 16 != 0#16
  | 0x42 | 0x43 => cw.extractLsb' 16 8 != 0#8 || cw.extractLsb' 27 5 != 0#5
  | _ => false

/-- The OP of a read wrapper (30_encoding.md R85, R88). -/
def wrapperOp (op : Nat) : Bool := op == 0x40 || op == 0x41 || op == 0x42 || op == 0x43

/-- The command runs the frame build step: "every BUILD_REQUEST, REQUEST_FROM and read wrapper with
a supported function code" (10_state.md R27). -/
def buildsFrame : Instr → Bool
  | .buildRequest _ fc _ _ => supported fc
  | i => (requestOf i).isSome

/-- The command of the host's next move, if it is accepted and is a command. -/
def acceptedNext (s : State) : Option Instr :=
  match (nextMove s).1 with
  | .host cw => if s.busy then none else (decode cw).toOption
  | .engine | .deliver _ | .send | .tick | .reset => none

/-- The table of 60_exceptions.md R272: the statuses a command that decodes can end with (all but
ILLEGAL_COMMAND, which is a malformed word's). -/
def mayEndWith : Instr → Status → Bool
  | _, .ok => true
  | _, .illegalCommand => false
  | .decBit _ _, .illegalOperand => true
  | .holdingRegisterRead _ _ _ _ _ _, .illegalOperand => true
  | .inputRegisterRead _ _ _ _ _ _, .illegalOperand => true
  | .readTxbuf _, .illegalOperand => true
  | .readRxbuf _, .illegalOperand => true
  | _, .illegalOperand => false
  | .buildRequest _ _ _ _, .unsupportedFunction => true
  | .requestFrom _ _ _ _, .unsupportedFunction => true
  | _, .unsupportedFunction => false
  | .decBit _ _, .decodePrecondition => true
  | .decByte _, .decodePrecondition => true
  | .decWord16 _ _, .decodePrecondition => true
  | .decDword32 _ _ _, .decodePrecondition => true
  | .coilRead _ _ _, .decodePrecondition => true
  | .discreteInputRead _ _ _, .decodePrecondition => true
  | .holdingRegisterRead _ _ _ _ _ _, .decodePrecondition => true
  | .inputRegisterRead _ _ _ _ _ _, .decodePrecondition => true
  | _, .decodePrecondition => false
  | .requestFrom _ _ _ _, .transactionFailed => true
  | .coilRead _ _ _, .transactionFailed => true
  | .discreteInputRead _ _ _, .transactionFailed => true
  | .holdingRegisterRead _ _ _ _ _ _, .transactionFailed => true
  | .inputRegisterRead _ _ _ _ _ _, .transactionFailed => true
  | _, .transactionFailed => false

/-- The decoder commands and the diagnostic reads: those of 20_memory.md R67. -/
def readsOnly : Instr → Bool
  | .decBit _ _ | .decByte _ | .decWord16 _ _ | .decDword32 _ _ _ | .readTxbuf _ | .readRxbuf _
  | .readRxlen | .readState | .readCurSlave | .readTimeout | .crcRead => true
  | .crcReset | .crcFeed _ | .buildRequest _ _ _ _ | .requestFrom _ _ _ _ | .setTimeout _
  | .coilRead _ _ _ | .discreteInputRead _ _ _ | .holdingRegisterRead _ _ _ _ _ _
  | .inputRegisterRead _ _ _ _ _ _ => false

/-- Noise that leaves the synchronizer ready for a reply: it holds no [p0, p1] at consecutive
positions, and where p0 = p1 it does not end with that byte (95_test_vectors.md X4). -/
def harmlessNoise (p0 p1 : Byte) (noise : List Byte) : Prop :=
  (∀ k : Nat, ¬ (noise[k]? = some p0 ∧ noise[k + 1]? = some p1)) ∧
    (p0 = p1 → noise.getLast? ≠ some p0)

/-- A reply with this payload: slave, function code, byte count, data, CRC low byte first
(30_encoding.md R91). -/
def replyFrame (slave fc : Byte) (data : List Byte) : List Byte :=
  let body := [slave, fc, BitVec.ofNat 8 data.length] ++ data
  body ++ [lo8 (crc16 body), hi8 (crc16 body)]

end Machine
end Sys2Proof
end

