-- ==== Sys2Proof/Certificates/Slice0/Obligations.lean ====
section
/-! DEFINITION. The statements for the provers, from the spec's rules. Those about `exec` and
`engineStep` give the whole next state, so that each is also the frame: what the record update does
not name is unchanged. A statement about an unspecified RESULT says `Config.freeResult …`, a
constant of which nothing can be proved. -/

open Sys2Proof Sys2Proof.Machine

/-! ### Encoding (30_encoding.md) -/

/-- Words written out in 95_test_vectors.md decode to the commands they stand for, one at least for
each format (30_encoding.md R80, R83 to R85). -/
def Obligations.SpecWordsDecodeToTheirCommands : Prop :=
  decodeTableWord 64 0x0000000000000001 = some .crcReset ∧
  decodeTableWord 64 0x0000000000003102 = some (.crcFeed 0x31#8) ∧
  decodeTableWord 64 0x0003006B00031110 = some (.buildRequest 0x11#8 3#8 0x006B#16 3#16) ∧
  decodeTableWord 64 0x0003006B00031120 = some (.requestFrom 0x11#8 3#8 0x006B#16 3#16) ∧
  decodeTableWord 64 0x000000FA00000021 = some (.setTimeout 250#32) ∧
  decodeTableWord 64 0x0004000000000030 = some (.decBit 0#16 4#16) ∧
  decodeTableWord 64 0x0007000700000030 = some (.decBit 7#16 7#16) ∧
  decodeTableWord 64 0x0000000700000031 = some (.decByte 7#16) ∧
  decodeTableWord 64 0x0000000301000032 = some (.decWord16 true 3#16) ∧
  decodeTableWord 64 0x0000000202000033 = some (.decDword32 false true 2#16) ∧
  decodeTableWord 64 0x0000001300000140 = some (.coilRead false 1#8 0x13#16) ∧
  decodeTableWord 64 0x0000000004000041 = some (.discreteInputRead true 0#8 0#16) ∧
  decodeTableWord 64 0x0002010003000A43 =
    some (.inputRegisterRead true true false 0x0A#8 0x0100#16 2#16)

/-- Decode and encode agree: every well-formed command is read back from its word, every field at
every value (30_encoding.md R80, R82, R89). -/
def Obligations.DecodeOfEncodeIsTheCommand : Prop :=
  ∀ i : Instr, i.wf = true → decode (encode i) = .ok i

/-- The other direction: a word that decodes is the word of its command, and the command is
well-formed: every 64-bit value decodes to exactly one command or to none (30_encoding.md R89). -/
def Obligations.EncodeOfDecodeIsTheWord : Prop :=
  ∀ (cw : CmdWord) (i : Instr), decode cw = .ok i → i.wf = true ∧ encode i = cw

/-- When a word is rejected, and for which reason, in R89's order: a reserved OP (R86), then a 1 in
a bit its format does not use (R87), then a read wrapper with DEFAULT_SLAVE = 1 and SLAVE /= 0
(R88). -/
def Obligations.WordsAreRejectedForTheRulesReasons : Prop :=
  ∀ cw : CmdWord,
    (decode cw = .error .reservedOpcode ↔ reservedOp (fieldOp cw).toNat = true) ∧
    (decode cw = .error .reservedBits ↔
      reservedOp (fieldOp cw).toNat = false ∧ unusedBitSet cw = true) ∧
    (decode cw = .error .defaultSlaveWithSlave ↔
      unusedBitSet cw = false ∧ wrapperOp (fieldOp cw).toNat = true ∧ cw.getLsbD 26 = true ∧
        cw.extractLsb' 8 8 ≠ 0#8)

/-- The assembler and the commands' lines are inverse (30_encoding.md R93): a line assembles to a
command exactly when it is that command's line and the command is well-formed; a line with an
operand that does not fit its field assembles to none. That a line with a suffix its mnemonic's
syntax does not show is refused is the model's choice (log 25). -/
def Obligations.AssemblerInvertsTheCommandsLine : Prop :=
  (∀ (l : AsmLine) (i : Instr), assemble l = some i ↔ i.wf = true ∧ asmLine i = l) ∧
  (∀ b : Nat, 256 ≤ b → assemble ⟨.crcFeed, false, false, [.num b]⟩ = none)

/-! ### Steps and the host's port (10_state.md, 60_exceptions.md) -/

/-- A step runs the decoded command: when the next move is the host's write of a word that decodes
and BUSY = 0, the step is `exec` of the command on the state with the word in PEND and BUSY = 1
(10_state.md R22; the schedule of moves is the model's, log 1). -/
def Obligations.StepRunsTheDecodedCommand : Prop :=
  ∀ (s : State) (cw : CmdWord) (rest : List Move) (i : Instr),
    512 ≤ s.params.rxCap → s.busy = false → s.moves = .host cw :: rest → decode cw = .ok i →
      step s = exec i { s with moves := rest, pend := cw, busy := true }

/-- A word that is no command ends ILLEGAL_COMMAND with an unspecified RESULT and changes no other
state of the engine but PEND, which every accepted write writes (30_encoding.md R86 to R88;
10_state.md R22; log 11, 12). -/
def Obligations.MalformedWordEndsIllegalCommand : Prop :=
  ∀ (s : State) (cw : CmdWord) (rest : List Move) (r : Reject),
    512 ≤ s.params.rxCap → s.busy = false → s.moves = .host cw :: rest → decode cw = .error r →
      step s = .next { s with
        moves := rest, pend := cw, busy := false, cmdStatus := .illegalCommand,
        result := Config.freeResult s.freeIdx, freeIdx := s.freeIdx + 1 }

/-- A CW write while BUSY = 1 is refused: nothing of the engine changes, and the breach of the host's
duty is recorded (60_exceptions.md R277; log 3). -/
def Obligations.CommandWriteWhileBusyIsRefused : Prop :=
  ∀ (s : State) (cw : CmdWord) (rest : List Move),
    512 ≤ s.params.rxCap → s.busy = true → s.moves = .host cw :: rest →
      step s = .next { s with moves := rest, dutyViolated := true }

/-- A machine whose RX_CAP is below 512 is refused, whatever its next move (00_scope.md R8). -/
def Obligations.SmallReceiveBufferIsRefused : Prop :=
  ∀ s : State, s.params.rxCap < 512 → step s = .refused .rxCapBelowMinimum

/-- The record of a breach is made by a CW write while BUSY = 1 and by nothing else, and is never
taken back (60_exceptions.md R277, R288; log 26). -/
def Obligations.DutyRecordIsExactlyTheBusyWrites : Prop :=
  ∀ s t : State, step s = .next t →
    (t.dutyViolated = true ↔ s.dutyViolated = true ∨ hostKeepsDuty s = false)

/-! ### The CRC unit (40_crc.md) -/

/-- The source's worked example (40_crc.md R112), and the words it is sent as. -/
def Obligations.CanonicalRequestHasCrc8776 : Prop :=
  crc16 [0x11#8, 0x03#8, 0x00#8, 0x6B#8, 0x00#8, 0x03#8] = 0x8776#16 ∧
  lo8 0x8776#16 = 0x76#8 ∧ hi8 0x8776#16 = 0x87#8

/-- The laws of the CRC function (40_crc.md R113): the empty list, one more byte, and the residue of
a list with its own CRC appended, low byte first. -/
def Obligations.CrcLaws : Prop :=
  crc16 [] = 0xFFFF#16 ∧
  (∀ (xs : List Byte) (b : Byte), crc16 (xs ++ [b]) = crcStep (crc16 xs) b) ∧
  (∀ xs : List Byte, crc16 (xs ++ [lo8 (crc16 xs), hi8 (crc16 xs)]) = 0x0000#16)

/-- The accumulator commands complete in every state, with the effects of 40_crc.md R114 to R116,
and change nothing else. -/
def Obligations.CrcCommandsComplete : Prop :=
  ∀ (s : State) (b : Byte),
    exec .crcReset s = .next { s with
      crcAcc := 0xFFFF#16, cmdStatus := .ok, result := 0x0000FFFF#32, busy := false } ∧
    exec (.crcFeed b) s = .next { s with
      crcAcc := crcStep s.crcAcc b, cmdStatus := .ok,
      result := (crcStep s.crcAcc b).setWidth 32, busy := false } ∧
    exec .crcRead s = .next { s with
      cmdStatus := .ok, result := s.crcAcc.setWidth 32, busy := false }

/-- The pseudo-instruction CRC16 (30_encoding.md R94): after its expansion has been written word by
word, "RESULT is then zext_32(crc16([b0, ..., b(n-1)]))", and CRC_ACC is that CRC. -/
def Obligations.Crc16ExpansionGivesTheCrc : Prop :=
  ∀ (s : State) (bs : List Byte) (more : List Move),
    512 ≤ s.params.rxCap → s.busy = false →
    s.moves = (crc16Expansion bs).map (fun i => Move.host (encode i)) ++ more →
    ∃ t, Host.Core.run Sys2Proof.core (bs.length + 2) s = .next t ∧
      t.result = (crc16 bs).setWidth 32 ∧ t.cmdStatus = .ok ∧ t.busy = false ∧
      t.crcAcc = crc16 bs ∧ t.moves = more ∧ t.txnState = s.txnState ∧ t.txbuf = s.txbuf ∧
      t.rxbuf = s.rxbuf ∧ t.curSlave = s.curSlave

/-! ### The frame builder and the transmit sequencer (41_framer_transport.md) -/

/-- The request frame byte by byte (41_framer_transport.md R130, 30_encoding.md R90): start address
and quantity big-endian, the CRC of bytes 0 to 5 low byte first. -/
def Obligations.RequestFrameLayout : Prop :=
  ∀ (slave fc : Byte) (start qty : Half),
    let c := crc16 [slave, fc, start.extractLsb' 8 8, start.extractLsb' 0 8,
      qty.extractLsb' 8 8, qty.extractLsb' 0 8]
    frame slave fc start qty =
      [slave, fc, start.extractLsb' 8 8, start.extractLsb' 0 8,
       qty.extractLsb' 8 8, qty.extractLsb' 0 8, c.extractLsb' 0 8, c.extractLsb' 8 8]

/-- BUILD_REQUEST with a supported function code completes in every state (41_framer_transport.md
R132): TXBUF is the frame, CUR_SLAVE the slave, RESULT the frame's CRC; every other byte of TXBUF
and everything else, RXBUF and STATE among it, is unchanged. -/
def Obligations.BuildRequestWritesTheFrame : Prop :=
  ∀ (s : State) (slave fc : Byte) (start qty : Half),
    (fc = 1#8 ∨ fc = 2#8 ∨ fc = 3#8 ∨ fc = 4#8) →
    ∃ t, exec (.buildRequest slave fc start qty) s = .next t ∧
      (∀ k, Memory.read t.txbuf k =
        if k < 8 then (frame slave fc start qty)[k]? else Memory.read s.txbuf k) ∧
      t = { s with
        txbuf := t.txbuf, curSlave := slave, cmdStatus := .ok, busy := false,
        result := (crc16 ((frame slave fc start qty).take 6)).setWidth 32 }

/-- The function codes supported are 1 to 4, and with any other nothing is built or sent
(41_framer_transport.md R131): BUILD_REQUEST and REQUEST_FROM complete UNSUPPORTED_FUNCTION with
RESULT 0xFFFFFFFF, and REQUEST_FROM also sets STATE to IDLE (44_api.md R231). -/
def Obligations.UnsupportedFunctionBuildsNothing : Prop :=
  (∀ fc : Byte, supported fc = true ↔ fc = 1#8 ∨ fc = 2#8 ∨ fc = 3#8 ∨ fc = 4#8) ∧
  ∀ (s : State) (slave fc : Byte) (start qty : Half),
    fc ≠ 1#8 → fc ≠ 2#8 → fc ≠ 3#8 → fc ≠ 4#8 →
    exec (.buildRequest slave fc start qty) s = .next { s with
      cmdStatus := .unsupportedFunction, result := 0xFFFFFFFF#32, busy := false } ∧
    exec (.requestFrom slave fc start qty) s = .next { s with
      txnState := .idle, cmdStatus := .unsupportedFunction, result := 0xFFFFFFFF#32,
      busy := false }

/-- Every built frame checks (95_test_vectors.md X3): the CRC of its first six bytes is what its last
two say, and the CRC of the whole frame is 0. -/
def Obligations.BuiltFrameCarriesItsCrc : Prop :=
  ∀ (slave fc : Byte) (start qty : Half),
    crc16 ((frame slave fc start qty).take 6) =
      le16 ((frame slave fc start qty)[6]?.getD 0#8) ((frame slave fc start qty)[7]?.getD 0#8) ∧
    crc16 (frame slave fc start qty) = 0x0000#16

/-- The step in TX_SETTLE_PRE (41_framer_transport.md R143): no step before NOW has passed T_MARK;
then the eight bytes of TXBUF are written to OUTQ and STATE is TX_SENDING. That an engine move
without a step changes nothing is the model's (log 2). -/
def Obligations.SettlePreSendsTheFrame : Prop :=
  ∀ (s : State) (f : List Byte),
    s.txnState = .txSettlePre → f.length = 8 → (∀ k < 8, Memory.read s.txbuf k = f[k]?) →
    (s.now = s.tMark → engineStep s = .next s) ∧
    (s.now ≠ s.tMark →
      engineStep s = .next { s with outq := s.outq ++ f, txnState := .txSending })

/-- The step in TX_SENDING (41_framer_transport.md R144): no step while OUTQ holds bytes; then, with
a direction output, the second settling delay begins, and without one the receiver (a move without
a step: log 2). -/
def Obligations.SendingWaitsForTheFlush : Prop :=
  ∀ s : State, s.txnState = .txSending →
    (s.outq ≠ [] → engineStep s = .next s) ∧
    (s.outq = [] → s.params.dirPresent = true →
      engineStep s = .next { s with tMark := s.now, txnState := .txSettlePost }) ∧
    (s.outq = [] → s.params.dirPresent = false →
      engineStep s = .next { s with tLast := s.now, txnState := .awaitingSync })

/-- The step in TX_SETTLE_POST (41_framer_transport.md R145): no step before NOW has passed T_MARK;
then a direction output goes to the receive-enable level, "the level that is not DIR_TX_LEVEL", and
the receiver begins (a move without a step: log 2). -/
def Obligations.SettlePostBeginsReceiving : Prop :=
  ∀ s : State, s.txnState = .txSettlePost →
    s.params.dirRxLevel ≠ s.params.dirTxLevel ∧
    (s.now = s.tMark → engineStep s = .next s) ∧
    (s.now ≠ s.tMark → engineStep s = .next { s with
      dir := if s.params.dirPresent then s.params.dirRxLevel else s.dir,
      tLast := s.now, txnState := .awaitingSync })

/-- The transmit phase under the schedule of 95_test_vectors.md section 0 (case S1): one tick, the
frame written and sent byte by byte, one tick, and the receiver begins 2 ms after acceptance with
the frame on the wire, DIR at the receive-enable level and INQ untouched. -/
def Obligations.TransmitPhaseSendsTheFrame : Prop :=
  ∀ (s : State) (f : List Byte) (more : List Move),
    512 ≤ s.params.rxCap → s.params.dirPresent = true → s.txnState = .txSettlePre →
    s.tMark = s.now → s.outq = [] → f.length = 8 → (∀ k < 8, Memory.read s.txbuf k = f[k]?) →
    s.moves = [.tick, .engine] ++ List.replicate 8 .send ++ [.engine, .tick, .engine] ++ more →
    ∃ t, Host.Core.run Sys2Proof.core 13 s = .next t ∧
      t = { s with
        moves := more, now := s.now + 2#32, tMark := s.now + 1#32, tLast := s.now + 2#32,
        dir := s.params.dirRxLevel, wireTx := s.wireTx ++ f, txnState := .awaitingSync }

/-! ### Transactions: acceptance (44_api.md) -/

/-- REQUEST_FROM with a supported function code is accepted in every state: the session is reset, the
frame is built, and the transmission begins; BUSY, RXBUF and everything else stay (44_api.md R230,
41_framer_transport.md R140 to R142). -/
def Obligations.RequestFromStartsATransaction : Prop :=
  ∀ (s : State) (slave fc : Byte) (start qty : Half),
    (fc = 1#8 ∨ fc = 2#8 ∨ fc = 3#8 ∨ fc = 4#8) →
    ∃ t, exec (.requestFrom slave fc start qty) s = .next t ∧
      StartedTransaction slave fc start qty s t

/-- The read wrappers are accepted in every state (44_api.md R234 to R239): function codes 1 to 4,
quantity 1 for the bit reads, the blocks clamped to 2 for the register reads, CUR_SLAVE when
DEFAULT_SLAVE is set. -/
def Obligations.ReadWrappersStartTheirTransaction : Prop :=
  ∀ (s : State) (signed highFirst dflt : Bool) (slave : Byte) (addr blocks : Half),
    (∃ t, exec (.coilRead dflt slave addr) s = .next t ∧
      StartedTransaction (if dflt then s.curSlave else slave) 1#8 addr 1#16 s t) ∧
    (∃ t, exec (.discreteInputRead dflt slave addr) s = .next t ∧
      StartedTransaction (if dflt then s.curSlave else slave) 2#8 addr 1#16 s t) ∧
    (blocks ≠ 0#16 →
      (∃ t, exec (.holdingRegisterRead signed highFirst dflt slave addr blocks) s = .next t ∧
        StartedTransaction (if dflt then s.curSlave else slave) 3#8 addr
          (BitVec.ofNat 16 (min blocks.toNat 2)) s t) ∧
      (∃ t, exec (.inputRegisterRead signed highFirst dflt slave addr blocks) s = .next t ∧
        StartedTransaction (if dflt then s.curSlave else slave) 4#8 addr
          (BitVec.ofNat 16 (min blocks.toNat 2)) s t))

/-- A register wrapper with blocks = 0, and DEC_BIT with a bit index of 8 or more, end ILLEGAL_OPERAND
at once with an unspecified RESULT, in every state, and do nothing else (44_api.md R236, R237;
43_decoder.md R201: the operand check comes before the precondition, 60_exceptions.md R273; the
RESULT is a free value, log 11). -/
def Obligations.IllegalOperandsAreReportedFirst : Prop :=
  ∀ (s : State) (signed highFirst dflt : Bool) (slave : Byte) (addr a k : Half), 8 ≤ k.toNat →
    let t := { s with
      cmdStatus := .illegalOperand, result := Config.freeResult s.freeIdx, busy := false,
      freeIdx := s.freeIdx + 1 }
    exec (.holdingRegisterRead signed highFirst dflt slave addr 0#16) s = .next t ∧
    exec (.inputRegisterRead signed highFirst dflt slave addr 0#16) s = .next t ∧
    exec (.decBit a k) s = .next t

/-- A wrapper runs the same transaction as REQUEST_FROM, and on success the same computation as the
decoder (30_encoding.md R95): the accepting steps are equal, and in COMPLETE the completion of a
two-block or one-block wrapper answers what the decoder command on register 0 answers. -/
def Obligations.WrappersAreRequestThenDecode : Prop :=
  (∀ (s : State) (signed highFirst : Bool) (slave : Byte) (addr blocks : Half), blocks ≠ 0#16 →
    exec (.holdingRegisterRead signed highFirst false slave addr blocks) s =
      exec (.requestFrom slave 3#8 addr (BitVec.ofNat 16 (min blocks.toNat 2))) s ∧
    exec (.inputRegisterRead signed highFirst false slave addr blocks) s =
      exec (.requestFrom slave 4#8 addr (BitVec.ofNat 16 (min blocks.toNat 2))) s) ∧
  (∀ (s : State) (signed highFirst dflt : Bool) (slave : Byte) (addr blocks : Half),
    s.txnState = .complete → blocks ≠ 0#16 →
    s.pend = encode (.holdingRegisterRead signed highFirst dflt slave addr blocks) ∨
      s.pend = encode (.inputRegisterRead signed highFirst dflt slave addr blocks) →
    completeTxn s =
      if blocks = 1#16 then exec (.decWord16 signed 0#16) s
      else exec (.decDword32 signed highFirst 0#16) s)

/-! ### The receiver (42_receiver.md) -/

/-- The timeout is tested first (42_receiver.md R161): in a receiving state, once TIMEOUT_MS has
elapsed since T_LAST, the engine step ends the transaction TIMED_OUT whatever INQ holds, with
CMD_STATUS TRANSACTION_FAILED and RESULT 0xFFFFFFFF (44_api.md R232, R246), and takes no byte. -/
def Obligations.TimeoutEndsTheTransaction : Prop :=
  ∀ s : State,
    (s.txnState = .awaitingSync ∨ s.txnState = .headerCaptured ∨ s.txnState = .accumulating) →
    s.timeoutMs.toNat ≤ (s.now - s.tLast).toNat →
    engineStep s = .next { s with
      txnState := .timedOut, cmdStatus := .transactionFailed, result := 0xFFFFFFFF#32,
      busy := false }

/-- Before the timeout and with INQ empty the engine has no step: the transaction cannot end earlier
(42_receiver.md R161, R175). That an engine move without a step changes nothing is the model's
(log 2). -/
def Obligations.ReceiverWaitsForAByte : Prop :=
  ∀ s : State,
    (s.txnState = .awaitingSync ∨ s.txnState = .headerCaptured ∨ s.txnState = .accumulating) →
    (s.now - s.tLast).toNat < s.timeoutMs.toNat → s.inq = [] → engineStep s = .next s

/-- `sync_step` (42_receiver.md R163), with the prefix P = [p0, p1] from TXBUF: the match counter, the
resynchronization on p0, and at the second match the prefix in RXBUF[0], RXBUF[1]. Every byte taken
leaves INQ and refreshes T_LAST (R161, R162). -/
def Obligations.SynchronizerMatchesThePrefix : Prop :=
  ∀ (s : State) (b p0 p1 : Byte) (rest : List Byte),
    512 ≤ s.params.rxCap → s.txnState = .awaitingSync → takesByte s b rest →
    Memory.read s.txbuf 0 = some p0 → Memory.read s.txbuf 1 = some p1 →
    (s.m = 0 → b = p0 → engineStep s = .next { s with inq := rest, tLast := s.now, m := 1 }) ∧
    (s.m = 0 → b ≠ p0 → engineStep s = .next { s with inq := rest, tLast := s.now, m := 0 }) ∧
    (s.m = 1 → b ≠ p1 → b = p0 →
      engineStep s = .next { s with inq := rest, tLast := s.now, m := 1 }) ∧
    (s.m = 1 → b ≠ p1 → b ≠ p0 →
      engineStep s = .next { s with inq := rest, tLast := s.now, m := 0 }) ∧
    (s.m = 1 → b = p1 → ∃ t, engineStep s = .next t ∧
      (∀ k, Memory.read t.rxbuf k =
        if k = 0 then some p0 else if k = 1 then some p1 else Memory.read s.rxbuf k) ∧
      t = { s with
        inq := rest, tLast := s.now, m := 2, rxbuf := t.rxbuf, rxLen := 2#16,
        txnState := .headerCaptured })

/-- `header_step` (42_receiver.md R164): the byte count goes to RXBUF[2], RX_LEN is 3 and EXP_LEN is
the byte count plus 5, exactly. -/
def Obligations.HeaderStepTakesTheByteCount : Prop :=
  ∀ (s : State) (b : Byte) (rest : List Byte),
    512 ≤ s.params.rxCap → s.txnState = .headerCaptured → takesByte s b rest →
    ∃ t, engineStep s = .next t ∧
      (∀ k, Memory.read t.rxbuf k = if k = 2 then some b else Memory.read s.rxbuf k) ∧
      t.expLen.toNat = b.toNat + 5 ∧
      t = { s with
        inq := rest, tLast := s.now, rxbuf := t.rxbuf, rxLen := 3#16, expLen := t.expLen,
        txnState := .accumulating }

/-- `accumulate_step` before the last byte (42_receiver.md R165): the byte goes to RXBUF[RX_LEN] and
RX_LEN counts it; STATE and everything else stay. -/
def Obligations.AccumulateStepAppendsTheByte : Prop :=
  ∀ (s : State) (b : Byte) (rest : List Byte),
    512 ≤ s.params.rxCap → s.txnState = .accumulating → takesByte s b rest →
    s.rxLen.toNat < 260 → s.rxLen.toNat + 1 ≠ s.expLen.toNat →
    ∃ t, engineStep s = .next t ∧
      (∀ k, Memory.read t.rxbuf k =
        if k = s.rxLen.toNat then some b else Memory.read s.rxbuf k) ∧
      t.rxLen.toNat = s.rxLen.toNat + 1 ∧
      t = { s with inq := rest, tLast := s.now, rxbuf := t.rxbuf, rxLen := t.rxLen }

/-- The last byte of a frame is validated in its own step (42_receiver.md R165, R166): the CRC of the
bytes before the last two is compared with the last two, low byte first; STATE is COMPLETE or
CRC_ERROR, and the transaction is completed from that state. -/
def Obligations.LastByteIsValidated : Prop :=
  ∀ (s : State) (b lo : Byte) (body rest : List Byte),
    512 ≤ s.params.rxCap → s.txnState = .accumulating → takesByte s b rest →
    s.rxLen.toNat < 260 → s.rxLen.toNat + 1 = s.expLen.toNat →
    s.rxLen.toNat = body.length + 1 →
    (∀ k < body.length + 1, Memory.read s.rxbuf k = (body ++ [lo])[k]?) →
    ∃ v, engineStep s = completeTxn v ∧
      (∀ k, Memory.read v.rxbuf k =
        if k = s.rxLen.toNat then some b else Memory.read s.rxbuf k) ∧
      v.rxLen.toNat = s.rxLen.toNat + 1 ∧
      v = { s with
        inq := rest, tLast := s.now, rxbuf := v.rxbuf, rxLen := v.rxLen,
        txnState := if crc16 body = le16 lo b then .complete else .crcError }

/-- `request_complete` (44_api.md R232): in COMPLETE a REQUEST_FROM succeeds with the byte count; in
any other STATE it ends TRANSACTION_FAILED with RESULT 0xFFFFFFFF. -/
def Obligations.RequestCompletesWithTheByteCount : Prop :=
  ∀ s : State, s.pend.extractLsb' 0 8 = 0x20#8 →
    (∀ bc, s.txnState = .complete → Memory.read s.rxbuf 2 = some bc →
      completeTxn s = .next { s with
        cmdStatus := .ok, result := bc.setWidth 32, busy := false }) ∧
    (s.txnState ≠ .complete →
      completeTxn s = .next { s with
        cmdStatus := .transactionFailed, result := 0xFFFFFFFF#32, busy := false })

/-- `wrapper_complete` (44_api.md R246): TRANSACTION_FAILED unless COMPLETE; the bit reads give bit 0
of payload byte 0, the one-block reads the 16-bit word, the two-block reads the 32-bit value in the
word order PEND asks for; a COMPLETE reply that is too short ends DECODE_PRECONDITION, with a free
value for RESULT (log 11), and leaves STATE = COMPLETE. -/
def Obligations.WrapperCompletesWithTheDecodedValue : Prop :=
  ∀ s : State, s.pend.extractLsb' 0 8 ≠ 0x20#8 →
    (s.txnState ≠ .complete →
      completeTxn s = .next { s with
        cmdStatus := .transactionFailed, result := 0xFFFFFFFF#32, busy := false }) ∧
    (∀ (bc : Byte) (p : Nat → Byte), s.txnState = .complete →
      Memory.read s.rxbuf 2 = some bc →
      (∀ k < bc.toNat, Memory.read s.rxbuf (3 + k) = some (p k)) →
      let bits : Bool := s.pend.extractLsb' 0 8 == 0x40#8 || s.pend.extractLsb' 0 8 == 0x41#8
      let q := min (s.pend.extractLsb' 48 16).toNat 2
      let need := if bits then 1 else if q = 1 then 2 else 4
      let value : Word :=
        if bits then (if (p 0).getLsbD 0 then 1#32 else 0#32)
        else if q = 1 then widen (s.pend.getLsbD 24) (be16 (p 0) (p 1))
        else if s.pend.getLsbD 25 then joinWords (be16 (p 0) (p 1)) (be16 (p 2) (p 3))
        else joinWords (be16 (p 2) (p 3)) (be16 (p 0) (p 1))
      completeTxn s =
        if need ≤ bc.toNat then
          .next { s with cmdStatus := .ok, result := value, busy := false }
        else
          .next { s with
            cmdStatus := .decodePrecondition, result := Config.freeResult s.freeIdx,
            busy := false, freeIdx := s.freeIdx + 1 })

/-- The reply completes the request, and what precedes it does no harm (95_test_vectors.md X4, from
42_receiver.md R163 to R166): from the start of the receive phase, with harmless noise and then a
reply of any payload waiting in INQ and no time passing, one engine step a byte ends COMPLETE: RXBUF
is the reply, RESULT its byte count, and the bytes after it stay in INQ. -/
def Obligations.ReplyAfterNoiseCompletesTheRequest : Prop :=
  ∀ (s : State) (p0 p1 : Byte) (noise data rest : List Byte) (more : List Move),
    512 ≤ s.params.rxCap → s.txnState = .awaitingSync → s.m = 0 →
    Memory.read s.txbuf 0 = some p0 → Memory.read s.txbuf 1 = some p1 →
    s.pend.extractLsb' 0 8 = 0x20#8 → (s.now - s.tLast).toNat < s.timeoutMs.toNat →
    data.length ≤ 255 → harmlessNoise p0 p1 noise →
    s.inq = noise ++ replyFrame p0 p1 data ++ rest →
    s.moves = List.replicate (noise.length + data.length + 5) .engine ++ more →
    ∃ t, Host.Core.run Sys2Proof.core (noise.length + data.length + 5) s = .next t ∧
      t.txnState = .complete ∧ t.cmdStatus = .ok ∧ t.busy = false ∧
      t.result = BitVec.ofNat 32 data.length ∧ t.rxLen.toNat = data.length + 5 ∧
      t.inq = rest ∧ t.moves = more ∧
      (∀ k < data.length + 5, Memory.read t.rxbuf k = (replyFrame p0 p1 data)[k]?) ∧
      t.txbuf = s.txbuf ∧ t.curSlave = s.curSlave ∧ t.crcAcc = s.crcAcc

/-- A full echo of a request whose start address has high byte 3 ends COMPLETE on the echo itself,
with byte count 3, and the reply stays in INQ (42_receiver.md R171). -/
def Obligations.EchoWithHighByteThreeCompletesOnItself : Prop :=
  ∀ (s : State) (slave fc : Byte) (start qty : Half) (rest : List Byte) (more : List Move),
    512 ≤ s.params.rxCap → s.txnState = .awaitingSync → s.m = 0 →
    (∀ k < 8, Memory.read s.txbuf k = (frame slave fc start qty)[k]?) →
    s.pend.extractLsb' 0 8 = 0x20#8 → (s.now - s.tLast).toNat < s.timeoutMs.toNat →
    start.extractLsb' 8 8 = 3#8 →
    s.inq = frame slave fc start qty ++ rest →
    s.moves = List.replicate 8 .engine ++ more →
    ∃ t, Host.Core.run Sys2Proof.core 8 s = .next t ∧
      t.txnState = .complete ∧ t.cmdStatus = .ok ∧ t.result = 3#32 ∧ t.inq = rest ∧
      (∀ k < 8, Memory.read t.rxbuf k = Memory.read s.txbuf k)

/-! ### The decoder (43_decoder.md) -/

/-- The decoder commands on bytes inside the data of a COMPLETE frame complete with the payload's
value (43_decoder.md R200 to R206) and change only CMD_STATUS, RESULT and BUSY. -/
def Obligations.DecoderCommandsGiveThePayload : Prop :=
  ∀ (s : State) (bc : Byte) (p : Nat → Byte) (a k : Half) (signed highFirst : Bool),
    s.txnState = .complete → Memory.read s.rxbuf 2 = some bc →
    (∀ j < bc.toNat, Memory.read s.rxbuf (3 + j) = some (p j)) →
    let r := a.toNat
    (a.toNat + 1 ≤ bc.toNat → k.toNat < 8 → exec (.decBit a k) s = .next { s with
      cmdStatus := .ok, result := if (p r).getLsbD k.toNat then 1#32 else 0#32,
      busy := false }) ∧
    (a.toNat + 1 ≤ bc.toNat → exec (.decByte a) s = .next { s with
      cmdStatus := .ok, result := (p r).setWidth 32, busy := false }) ∧
    (2 * a.toNat + 2 ≤ bc.toNat → exec (.decWord16 signed a) s = .next { s with
      cmdStatus := .ok, result := widen signed (be16 (p (2 * r)) (p (2 * r + 1))),
      busy := false }) ∧
    (2 * a.toNat + 4 ≤ bc.toNat → exec (.decDword32 signed highFirst a) s = .next { s with
      cmdStatus := .ok, busy := false,
      result :=
        if highFirst then
          joinWords (be16 (p (2 * r)) (p (2 * r + 1))) (be16 (p (2 * r + 2)) (p (2 * r + 3)))
        else
          joinWords (be16 (p (2 * r + 2)) (p (2 * r + 3))) (be16 (p (2 * r)) (p (2 * r + 1))) })

/-- The decoder's precondition (43_decoder.md R200): with STATE not COMPLETE, or a byte beyond the
byte count, each decoder command reads nothing and ends DECODE_PRECONDITION with an unspecified
RESULT (a free value, log 11). -/
def Obligations.DecoderPreconditionIsChecked : Prop :=
  ∀ (s : State) (a k : Half) (signed highFirst : Bool),
    let t := { s with
      cmdStatus := .decodePrecondition, result := Config.freeResult s.freeIdx, busy := false,
      freeIdx := s.freeIdx + 1 }
    let fails := fun last : Nat => s.txnState ≠ .complete ∨
      ∃ bc, Memory.read s.rxbuf 2 = some bc ∧ bc.toNat < last
    (fails (a.toNat + 1) → k.toNat < 8 → exec (.decBit a k) s = .next t) ∧
    (fails (a.toNat + 1) → exec (.decByte a) s = .next t) ∧
    (fails (2 * a.toNat + 2) → exec (.decWord16 signed a) s = .next t) ∧
    (fails (2 * a.toNat + 4) → exec (.decDword32 signed highFirst a) s = .next t)

/-- `w16` (43_decoder.md R205): big-endian, and RESULT is the same integer as the word, read as `i16`
when signed and as `u16` otherwise. -/
def Obligations.Word16KeepsItsInteger : Prop :=
  ∀ (s : State) (r : Nat) (hi lo : Byte),
    Memory.read s.rxbuf (3 + 2 * r) = some hi → Memory.read s.rxbuf (3 + (2 * r + 1)) = some lo →
    (∃ v, w16 s r false = .ok v ∧ v.toNat = hi.toNat * 256 + lo.toNat) ∧
    (∃ v, w16 s r true = .ok v ∧ v.toInt = (be16 hi lo).toInt)

/-- `w32` (43_decoder.md R206): with HIGH_FIRST the lower register is the most significant word,
without it the least. -/
def Obligations.Dword32JoinsTwoRegisters : Prop :=
  ∀ (s : State) (r : Nat) (b0 b1 b2 b3 : Byte),
    Memory.read s.rxbuf (3 + 2 * r) = some b0 → Memory.read s.rxbuf (3 + (2 * r + 1)) = some b1 →
    Memory.read s.rxbuf (3 + (2 * r + 2)) = some b2 →
    Memory.read s.rxbuf (3 + (2 * r + 3)) = some b3 →
    (∃ v, w32 s r true = .ok v ∧
      v.toNat = (b0.toNat * 256 + b1.toNat) * 65536 + (b2.toNat * 256 + b3.toNat)) ∧
    (∃ v, w32 s r false = .ok v ∧
      v.toNat = (b2.toNat * 256 + b3.toNat) * 65536 + (b0.toNat * 256 + b1.toNat))

/-! ### Configuration and diagnostics (44_api.md) -/

/-- SET_TIMEOUT and the register reads complete in every state (44_api.md R233, R242 to R245), and
change nothing but what they name. -/
def Obligations.RegisterAccessCommandsComplete : Prop :=
  ∀ (s : State) (ms : Word),
    exec (.setTimeout ms) s = .next { s with
      timeoutMs := ms, cmdStatus := .ok, result := ms, busy := false } ∧
    exec .readRxlen s = .next { s with
      cmdStatus := .ok, result := s.rxLen.setWidth 32, busy := false } ∧
    exec .readState s = .next { s with
      cmdStatus := .ok, result := s.txnState.code.setWidth 32, busy := false } ∧
    exec .readCurSlave s = .next { s with
      cmdStatus := .ok, result := s.curSlave.setWidth 32, busy := false } ∧
    exec .readTimeout s = .next { s with
      cmdStatus := .ok, result := s.timeoutMs, busy := false }

/-- READ_TXBUF (44_api.md R240): an index of 8 or more ends ILLEGAL_OPERAND (its RESULT a free value,
log 11); a written byte is the RESULT; a byte nothing has written since reset is a fault of the model
(10_state.md R45; log 10). -/
def Obligations.ReadTxbufGivesTheByte : Prop :=
  ∀ (s : State) (a : Half),
    (8 ≤ a.toNat → exec (.readTxbuf a) s = .next { s with
      cmdStatus := .illegalOperand, result := Config.freeResult s.freeIdx, busy := false,
      freeIdx := s.freeIdx + 1 }) ∧
    (∀ b : Byte, a.toNat < 8 → Memory.read s.txbuf a.toNat = some b →
      exec (.readTxbuf a) s = .next { s with
        cmdStatus := .ok, result := b.setWidth 32, busy := false }) ∧
    (a.toNat < 8 → Memory.read s.txbuf a.toNat = none →
      exec (.readTxbuf a) s = .fault (.unwrittenTxbuf a.toNat))

/-- READ_RXBUF (44_api.md R241): an index of RX_CAP or more ends ILLEGAL_OPERAND (its RESULT a free
value, log 11); a written byte is the RESULT; a byte nothing has written since reset is a fault of
the model (10_state.md R45; log 10). -/
def Obligations.ReadRxbufGivesTheByte : Prop :=
  ∀ (s : State) (a : Half),
    (s.params.rxCap ≤ a.toNat → exec (.readRxbuf a) s = .next { s with
      cmdStatus := .illegalOperand, result := Config.freeResult s.freeIdx, busy := false,
      freeIdx := s.freeIdx + 1 }) ∧
    (∀ b : Byte, a.toNat < s.params.rxCap → Memory.read s.rxbuf a.toNat = some b →
      exec (.readRxbuf a) s = .next { s with
        cmdStatus := .ok, result := b.setWidth 32, busy := false }) ∧
    (a.toNat < s.params.rxCap → Memory.read s.rxbuf a.toNat = none →
      exec (.readRxbuf a) s = .fault (.unwrittenRxbuf a.toNat))

/-- Reads and decoder commands are idempotent (20_memory.md R67): issued again they complete with the
same CMD_STATUS, and the same RESULT whenever it is OK (a failing command's is fresh each time). -/
def Obligations.ReadCommandsAreIdempotent : Prop :=
  ∀ (i : Instr) (s t : State), readsOnly i = true → exec i s = .next t →
    ∃ u, exec i t = .next u ∧ u.cmdStatus = t.cmdStatus ∧
      (t.cmdStatus = .ok → u.result = t.result)

/-! ### The environment and reset (60_exceptions.md, 70_reset_and_hazards.md) -/

/-- The clock's and the line's steps (60_exceptions.md R280, R281): NOW counts modulo 2^32, a
delivered byte goes to the end of INQ, and the oldest byte of OUTQ to the end of WIRE_TX; with OUTQ
empty `line_send` is not enabled, and the model's move changes nothing (log 2). -/
def Obligations.ClockAndLineSteps : Prop :=
  ∀ (s : State) (rest : List Move), 512 ≤ s.params.rxCap →
    (s.moves = .tick :: rest →
      ∃ t, step s = .next t ∧ t.now.toNat = (s.now.toNat + 1) % 2 ^ 32 ∧
        t = { s with moves := rest, now := t.now }) ∧
    (∀ b, s.moves = .deliver b :: rest →
      step s = .next { s with moves := rest, inq := s.inq ++ [b] }) ∧
    (∀ b out, s.moves = .send :: rest → s.outq = b :: out →
      step s = .next { s with moves := rest, outq := out, wireTx := s.wireTx ++ [b] }) ∧
    (s.moves = .send :: rest → s.outq = [] → step s = .next { s with moves := rest })

/-- Reset (70_reset_and_hazards.md R300, R301) in any state, also in the middle of a transaction:
the engine's registers take the values of the rule, every buffer byte is unwritten again
(10_state.md R45; log 10, 22), and the clock, the line's queues and the wire stay. -/
def Obligations.ResetSetsTheEngine : Prop :=
  ∀ (s : State) (rest : List Move), 512 ≤ s.params.rxCap → s.moves = .reset :: rest →
    ∃ t, step s = .next t ∧
      t.busy = false ∧ t.cmdStatus = .ok ∧ t.result = 0x00000000#32 ∧ t.timeoutMs = 100#32 ∧
      t.curSlave = s.params.initSlaveId ∧ t.txnState = .idle ∧ t.m = 0 ∧ t.expLen = 0#9 ∧
      t.rxLen = 0#16 ∧ t.crcAcc = 0xFFFF#16 ∧
      (s.params.dirPresent = true → t.dir = s.params.dirRxLevel) ∧
      (s.params.dirPresent = false → t.dir = s.dir) ∧
      (∀ k, Memory.read t.txbuf k = none ∧ Memory.read t.rxbuf k = none) ∧
      t.now = s.now ∧ t.inq = s.inq ∧ t.outq = s.outq ∧ t.wireTx = s.wireTx ∧
      t.params = s.params ∧ t.moves = rest

/-- The state after power-on, for every choice of the parameters (10_state.md R45): the values the
spec gives, and a byte of neither buffer readable. The spec gives DIR a level only where there is a
direction output; that the field holds the receive-enable level also without one is the model's
reading (log 18). -/
def Obligations.PowerOnStateIsAsTheSpecSays : Prop :=
  ∀ p : Params,
    let s := State.powerOn p
    readBusy s = 0#1 ∧ readCmdStatus s = 0#4 ∧ readResult s = 0#32 ∧ s.timeoutMs = 100#32 ∧
    s.curSlave = p.initSlaveId ∧ s.txnState.code = 0#4 ∧ s.m = 0 ∧ s.expLen = 0#9 ∧
    s.rxLen = 0#16 ∧ s.crcAcc = 0xFFFF#16 ∧ s.dir ≠ p.dirTxLevel ∧ s.outq = [] ∧ s.wireTx = [] ∧
    (∀ k, Memory.read s.txbuf k = none ∧ Memory.read s.rxbuf k = none)

/-! ### Rules of the whole machine -/

/-- Who writes the configuration registers, the accumulator and TXBUF (10_state.md R26, R27, R35,
R37, R44; 40_crc.md R117): TIMEOUT_MS only SET_TIMEOUT, CUR_SLAVE and TXBUF only a frame build,
CRC_ACC only CRC_RESET and CRC_FEED, each besides reset; and no step writes the implementation
parameters. -/
def Obligations.RegistersHaveOnlyTheirWriters : Prop :=
  ∀ s t : State, step s = .next t →
    t.params = s.params ∧
    (t.timeoutMs ≠ s.timeoutMs → (nextMove s).1 = .reset ∨
      ∃ ms, acceptedNext s = some (.setTimeout ms) ∧ t.timeoutMs = ms) ∧
    (t.curSlave ≠ s.curSlave ∨ t.txbuf ≠ s.txbuf → (nextMove s).1 = .reset ∨
      ∃ i, acceptedNext s = some i ∧ buildsFrame i = true) ∧
    (t.crcAcc ≠ s.crcAcc → (nextMove s).1 = .reset ∨ acceptedNext s = some .crcReset ∨
      ∃ b, acceptedNext s = some (.crcFeed b))

/-- Who writes RXBUF, and who takes from INQ (10_state.md R36, R40; 20_memory.md R61, R71;
41_framer_transport.md R147): RXBUF only the engine in a receiving state, besides reset; INQ loses
its oldest byte only there, grows only at its end by a delivery, and stays otherwise. -/
def Obligations.OnlyTheReceiverTakesBytes : Prop :=
  ∀ s t : State, step s = .next t →
    (t.rxbuf ≠ s.rxbuf → (nextMove s).1 = .reset ∨
      (nextMove s).1 = .engine ∧ s.txnState.receiving = true) ∧
    (t.inq = s.inq ∨
      (∃ b, (nextMove s).1 = .deliver b ∧ t.inq = s.inq ++ [b]) ∨
      (∃ b, (nextMove s).1 = .engine ∧ s.txnState.receiving = true ∧ s.inq = b :: t.inq))

/-- The wire carries what the engine wrote, in order, and nothing else (20_memory.md R71,
41_framer_transport.md R149): the bytes sent and the bytes still in OUTQ are, after a step, what they
were, or those with one whole TXBUF behind them; and from a legal state those eight bytes are the
frame of the request that the command in PEND makes of CUR_SLAVE. -/
def Obligations.WireCarriesOnlyRequestFrames : Prop :=
  ∀ s t : State, step s = .next t →
    t.wireTx ++ t.outq = s.wireTx ++ s.outq ∨
    ∃ f, f.length = 8 ∧ (∀ k < 8, Memory.read t.txbuf k = f[k]?) ∧
      t.wireTx ++ t.outq = s.wireTx ++ s.outq ++ f ∧
      (Legal s → ∃ i fc start qty, decode t.pend = .ok i ∧ requestOf i = some (fc, start, qty) ∧
        f = frame t.curSlave fc start qty)

/-- A terminal STATE is held until the next request or reset (10_state.md R28, 42_receiver.md R160):
no engine step leaves it, and the only command that does is REQUEST_FROM or a read wrapper. -/
def Obligations.TerminalStateIsHeld : Prop :=
  ∀ s t : State, step s = .next t → s.txnState.terminal = true → t.txnState ≠ s.txnState →
    (nextMove s).1 = .reset ∨
    ∃ i, acceptedNext s = some i ∧
      ((requestOf i).isSome = true ∨ ∃ slave fc start qty, i = .requestFrom slave fc start qty)

/-- Failures are precise (60_exceptions.md R275): a command that fails in its accepting step changes
nothing but CMD_STATUS, RESULT and BUSY, and for REQUEST_FROM STATE, which becomes IDLE. -/
def Obligations.FailuresArePrecise : Prop :=
  ∀ (i : Instr) (s t : State), s.busy = true → exec i s = .next t → t.busy = false →
    t.cmdStatus ≠ .ok →
    OnlyCompletes s t ∨
    (∃ slave fc start qty, i = .requestFrom slave fc start qty) ∧
      OnlyCompletes { s with txnState := .idle } t

/-- The statuses of 60_exceptions.md R272: a command ends only with a status the table gives it,
whether it completes when it is accepted or at the end of its transaction. -/
def Obligations.CommandsEndOnlyWithTheirStatuses : Prop :=
  ∀ (s t : State) (i : Instr), Legal s → step s = .next t → t.busy = false →
    (acceptedNext s = some i → mayEndWith i t.cmdStatus = true) ∧
    (s.busy = true → decode s.pend = .ok i → (nextMove s).1 = .engine →
      mayEndWith i t.cmdStatus = true)

/-- READ_STATE only ever gives 0, 8, 9 or 10 (44_api.md R243). -/
def Obligations.HostReadsOnlyIdleOrTerminalStates : Prop :=
  ∀ s t : State, Legal s → step s = .next t → acceptedNext s = some .readState →
    t.result = 0#32 ∨ t.result = 8#32 ∨ t.result = 9#32 ∨ t.result = 10#32

/-- Fair runs end their transactions (60_exceptions.md R287): from a legal state every transaction
leaves its transmit states, and one whose header is captured ends, whatever bytes arrive. (A
transaction in AWAITING_SYNC need not end; fairness is a premise, log 19.) -/
def Obligations.FairRunsEndTransactions : Prop :=
  ∀ (σ : Nat → Move) (r : Nat → State) (n : Nat),
    RunOf σ r → Fair σ r → Legal (r n) →
    ((r n).txnState.transmitting = true →
      ∃ m, n ≤ m ∧ (r m).txnState.transmitting = false) ∧
    ((r n).txnState = .headerCaptured ∨ (r n).txnState = .accumulating →
      ∃ m, n ≤ m ∧ (r m).txnState.active = false)

/-! ### Invariants -/

/-- Every step keeps both buffers canonical and inside their bounds (20_memory.md R60, R69). -/
def Obligations.EveryStepKeepsTheBuffersCanonical : Prop :=
  ∀ s t : State, buffersOk s → step s = .next t → buffersOk t

/-- Every step keeps BUSY equal to "a transaction is running" (10_state.md R23) and the direction
output at the transmit-enable level exactly in the transmit states (41_framer_transport.md R146). -/
def Obligations.EveryStepKeepsBusyAndDirection : Prop :=
  ∀ s t : State, busyOk s → dirOk s → step s = .next t → busyOk t ∧ dirOk t

/-- The state after reset is legal, and so is the state after power-on with any parameters whose
RX_CAP the spec allows. -/
def Obligations.ResetStateIsLegal : Prop :=
  Legal State.reset ∧ ∀ p : Params, 512 ≤ p.rxCap → Legal (State.powerOn p)

/-- The invariant of the machine: every step from a legal state goes to a legal state, whichever
agent moves and whatever the line delivers (10_state.md R23, R31, R35; 41_framer_transport.md R146;
42_receiver.md R163 to R167, R169). -/
def Obligations.EveryStepKeepsTheStateLegal : Prop :=
  ∀ s t : State, Legal s → step s = .next t → Legal t

/-- From a legal state every step goes on, unless it is the host's READ_TXBUF or READ_RXBUF: "The
engine's own rules never read" an unwritten byte (10_state.md R45), nothing is stored outside RXBUF
(42_receiver.md R169), and no other stop is reachable. -/
def Obligations.LegalStepsNeverStop : Prop :=
  ∀ s : State, Legal s → hostReadsBuffer s = false → ∃ t, step s = .next t
end

