-- ==== Sys2Proof/Laws/Encoding.lean ====
section
/-! SUPPORT. The fields of a packed word, and what the encoder leaves 0 (30_encoding.md R80, R84). -/

namespace Sys2Proof

/-- Each bit of a packed word is a bit of the field it lies in. -/
theorem getLsbD_packWord (op slave fc flags : Byte) (a b : Half) (k : Nat) :
    (packWord op slave fc flags a b).getLsbD k =
      if k < 8 then op.getLsbD k
      else if k < 16 then slave.getLsbD (k - 8)
      else if k < 24 then fc.getLsbD (k - 16)
      else if k < 32 then flags.getLsbD (k - 24)
      else if k < 48 then a.getLsbD (k - 32)
      else b.getLsbD (k - 48) := by
  have hz : ∀ {w : Nat} (x : BitVec w) (j : Nat), w ≤ j → x.getLsbD j = false :=
    fun x j h => BitVec.getLsbD_of_ge x j h
  simp only [packWord, BitVec.getLsbD_or, BitVec.getLsbD_shiftLeft, BitVec.getLsbD_setWidth]
  by_cases h0 : k < 8
  · simp [h0, show k < 64 by omega, show k < 16 by omega, show k < 24 by omega,
      show k < 32 by omega, show k < 48 by omega]
  by_cases h1 : k < 16
  · simp [h0, h1, show k < 64 by omega, show k < 24 by omega, show k < 32 by omega,
      show k < 48 by omega, show k - 8 < 64 by omega, hz op k (by omega)]
  by_cases h2 : k < 24
  · simp [h0, h1, h2, show k < 64 by omega, show k < 32 by omega, show k < 48 by omega,
      show k - 16 < 64 by omega, hz op k (by omega), hz slave (k - 8) (by omega)]
  by_cases h3 : k < 32
  · simp [h0, h1, h2, h3, show k < 64 by omega, show k < 48 by omega, show k - 24 < 64 by omega,
      hz op k (by omega), hz slave (k - 8) (by omega), hz fc (k - 16) (by omega)]
  by_cases h4 : k < 48
  · simp [h0, h1, h2, h3, h4, show k < 64 by omega, show k - 32 < 64 by omega,
      hz op k (by omega), hz slave (k - 8) (by omega), hz fc (k - 16) (by omega),
      hz flags (k - 24) (by omega)]
  by_cases h5 : k < 64
  · simp [h0, h1, h2, h3, h4, h5, show k - 48 < 64 by omega,
      hz op k (by omega), hz slave (k - 8) (by omega), hz fc (k - 16) (by omega),
      hz flags (k - 24) (by omega), hz a (k - 32) (by omega)]
  · simp [h0, h1, h2, h3, h4, h5, hz op k (by omega), hz b (k - 48) (by omega)]

/-- Each field of a packed word is what was packed. -/
@[simp] theorem fieldOp_packWord (op slave fc flags : Byte) (a b : Half) :
    fieldOp (packWord op slave fc flags a b) = op := by
  ext i h
  simp [fieldOp, getLsbD_packWord, h]

@[simp] theorem fieldSlave_packWord (op slave fc flags : Byte) (a b : Half) :
    fieldSlave (packWord op slave fc flags a b) = slave := by
  ext i h
  simp [fieldSlave, getLsbD_packWord, show 8 + i < 16 by omega, BitVec.getLsbD_eq_getElem h]

@[simp] theorem fieldFc_packWord (op slave fc flags : Byte) (a b : Half) :
    fieldFc (packWord op slave fc flags a b) = fc := by
  ext i h
  simp [fieldFc, getLsbD_packWord, show ¬ 16 + i < 8 by omega, show 16 + i < 24 by omega,
    BitVec.getLsbD_eq_getElem h]

@[simp] theorem fieldA_packWord (op slave fc flags : Byte) (a b : Half) :
    fieldA (packWord op slave fc flags a b) = a := by
  ext i h
  simp [fieldA, getLsbD_packWord, show ¬ 32 + i < 8 by omega, show ¬ 32 + i < 16 by omega,
    show ¬ 32 + i < 24 by omega, show 32 + i < 48 by omega, BitVec.getLsbD_eq_getElem h]

@[simp] theorem fieldB_packWord (op slave fc flags : Byte) (a b : Half) :
    fieldB (packWord op slave fc flags a b) = b := by
  ext i h
  simp [fieldB, getLsbD_packWord, show ¬ 48 + i < 8 by omega, show ¬ 48 + i < 16 by omega,
    show ¬ 48 + i < 24 by omega, show ¬ 48 + i < 32 by omega, BitVec.getLsbD_eq_getElem h]

@[simp] theorem fieldSigned_packWord (op slave fc : Byte) (sg hf df : Bool) (a b : Half) :
    fieldSigned (packWord op slave fc (packFlags sg hf df) a b) = sg := by
  simp only [fieldSigned, getLsbD_packWord]
  cases sg <;> cases hf <;> cases df <;> rfl

@[simp] theorem fieldHighFirst_packWord (op slave fc : Byte) (sg hf df : Bool) (a b : Half) :
    fieldHighFirst (packWord op slave fc (packFlags sg hf df) a b) = hf := by
  simp only [fieldHighFirst, getLsbD_packWord]
  cases sg <;> cases hf <;> cases df <;> rfl

@[simp] theorem fieldDefault_packWord (op slave fc : Byte) (sg hf df : Bool) (a b : Half) :
    fieldDefault (packWord op slave fc (packFlags sg hf df) a b) = df := by
  simp only [fieldDefault, getLsbD_packWord]
  cases sg <;> cases hf <;> cases df <;> rfl

@[simp] theorem fieldOp_packTimeout (op : Byte) (t : Word) : fieldOp (packTimeout op t) = op := by
  ext i h
  simp [fieldOp, packTimeout, h, show i < 64 by omega, show i < 32 by omega]

@[simp] theorem fieldT32_packTimeout (op : Byte) (t : Word) : fieldT32 (packTimeout op t) = t := by
  ext i h
  have hop : op.getLsbD (32 + i) = false := BitVec.getLsbD_of_ge op _ (by omega)
  simp [fieldT32, packTimeout, hop, show 32 + i < 64 by omega,
    BitVec.getLsbD_eq_getElem h]

/-- The fixed bits of a format, as fields: what `(CW & mask) = match` asks of a packed word. -/
theorem packWord_and_mask (op slave fc flags : Byte) (a b : Half) (mo ms mf ml : Byte)
    (ma mb : Half) :
    packWord op slave fc flags a b &&& packWord mo ms mf ml ma mb =
      packWord (op &&& mo) (slave &&& ms) (fc &&& mf) (flags &&& ml) (a &&& ma) (b &&& mb) := by
  ext i h
  rw [← BitVec.getLsbD_eq_getElem, ← BitVec.getLsbD_eq_getElem, BitVec.getLsbD_and]
  simp only [getLsbD_packWord]
  split_ifs <;> simp

/-- The opcode field of the encoder's word. -/
theorem fieldOp_encode (i : Instr) : fieldOp (encode i) = i.op := by
  cases i <;> simp [encode]

/-- A word is its fields, packed. -/
theorem packWord_fields (cw : CmdWord) :
    packWord (fieldOp cw) (fieldSlave cw) (fieldFc cw) (cw.extractLsb' 24 8) (fieldA cw)
      (fieldB cw) = cw := by
  apply BitVec.eq_of_getLsbD_eq
  intro i h
  rw [getLsbD_packWord]
  simp only [fieldOp, fieldSlave, fieldFc, fieldA, fieldB, BitVec.getLsbD_extractLsb']
  split_ifs <;>
    first
      | (rw [show 0 + i = i by omega]; simp; omega)
      | (rw [show 8 + (i - 8) = i by omega]; simp; omega)
      | (rw [show 16 + (i - 16) = i by omega]; simp; omega)
      | (rw [show 24 + (i - 24) = i by omega]; simp; omega)
      | (rw [show 32 + (i - 32) = i by omega]; simp; omega)
      | (rw [show 48 + (i - 48) = i by omega]; simp; omega)

/-- Two packed words are equal exactly when their fields are. -/
theorem packWord_inj (op slave fc flags op' slave' fc' flags' : Byte) (a b a' b' : Half) :
    packWord op slave fc flags a b = packWord op' slave' fc' flags' a' b' ↔
      op = op' ∧ slave = slave' ∧ fc = fc' ∧ flags = flags' ∧ a = a' ∧ b = b' := by
  constructor
  · intro h
    have hfl : flags = flags' := by
      apply BitVec.eq_of_getLsbD_eq
      intro i hi
      have hb := congrArg (fun w => BitVec.getLsbD w (24 + i)) h
      simpa [getLsbD_packWord, show ¬ 24 + i < 8 by omega, show ¬ 24 + i < 16 by omega,
        show 24 + i < 32 by omega] using hb
    refine ⟨?_, ?_, ?_, hfl, ?_, ?_⟩
    · simpa using congrArg fieldOp h
    · simpa using congrArg fieldSlave h
    · simpa using congrArg fieldFc h
    · simpa using congrArg fieldA h
    · simpa using congrArg fieldB h
  · rintro ⟨rfl, rfl, rfl, rfl, rfl, rfl⟩
    rfl

/-- The match value of a row, as a packed word. -/
theorem setWidth_eq_packWord (op : Byte) : op.setWidth 64 = packWord op 0 0 0 0 0 := by
  simp [packWord]

/-- SET_TIMEOUT's word, as a packed word: T32 lies over A and B. -/
theorem packTimeout_eq_packWord (op : Byte) (t : Word) :
    packTimeout op t = packWord op 0 0 0 (t.setWidth 16) (t.extractLsb' 16 16) := by
  apply BitVec.eq_of_getLsbD_eq
  intro i h
  rw [getLsbD_packWord]
  simp only [packTimeout, BitVec.getLsbD_or, BitVec.getLsbD_shiftLeft, BitVec.getLsbD_setWidth,
    BitVec.getLsbD_extractLsb']
  by_cases h8 : i < 8
  · simp [h8, show i < 64 by omega, show i < 32 by omega]
  · have hop := BitVec.getLsbD_of_ge op i (by omega)
    by_cases h32 : i < 32
    · simp [h8, hop, h32]
    · by_cases h48 : i < 48
      · simp [h8, hop, h32, h, show ¬ i < 16 by omega, show ¬ i < 24 by omega, h48,
          show i - 32 < 16 by omega, show i - 32 < 64 by omega]
      · simp [h8, hop, h32, h, show ¬ i < 16 by omega, show ¬ i < 24 by omega, h48,
          show i - 48 < 16 by omega, show 16 + (i - 48) = i - 32 by omega,
          show i - 32 < 64 by omega]

/-! The masks of 30_encoding.md R84, field by field. -/

theorem mask_N : Format.mask .N = packWord 255 255 255 255 65535 65535 := by decide
theorem mask_BY : Format.mask .BY = packWord 255 0 255 255 65535 65535 := by decide
theorem mask_RQ : Format.mask .RQ = packWord 255 0 0 255 0 0 := by decide
theorem mask_TM : Format.mask .TM = packWord 255 255 255 255 0 0 := by decide
theorem mask_IX : Format.mask .IX = packWord 255 255 255 255 0 65535 := by decide
theorem mask_BT : Format.mask .BT = packWord 255 255 255 255 0 0 := by decide
theorem mask_D16 : Format.mask .D16 = packWord 255 255 255 254 0 65535 := by decide
theorem mask_D32 : Format.mask .D32 = packWord 255 255 255 252 0 65535 := by decide
theorem mask_W1 : Format.mask .W1 = packWord 255 0 255 251 0 65535 := by decide
theorem mask_W2 : Format.mask .W2 = packWord 255 0 255 248 0 0 := by decide

/-! The FLAGS bits each format leaves 0. -/

theorem packFlags_and_D16 (sg : Bool) : packFlags sg false false &&& 254#8 = 0#8 := by
  cases sg <;> decide
theorem packFlags_and_D32 (sg hf : Bool) : packFlags sg hf false &&& 252#8 = 0#8 := by
  cases sg <;> cases hf <;> decide
theorem packFlags_and_W1 (df : Bool) : packFlags false false df &&& 251#8 = 0#8 := by
  cases df <;> decide
theorem packFlags_and_W2 (sg hf df : Bool) : packFlags sg hf df &&& 248#8 = 0#8 := by
  cases sg <;> cases hf <;> cases df <;> decide

/-- A row found is a row of the table, with the OP looked for. -/
theorem findRow_some {op : Byte} {rows : List OpRow} {r : OpRow} (h : findRow op rows = some r) :
    r ∈ rows ∧ r.op = op := by
  induction rows with
  | nil => cases h
  | cons q qs ih =>
    simp only [findRow] at h
    split at h
    · cases h; exact ⟨by simp, by simp_all⟩
    · exact ⟨List.mem_cons_of_mem _ (ih h).1, (ih h).2⟩

end Sys2Proof
end

