-- ==== Sys2Proof/Laws/Memory.lean ====
section
/-! SUPPORT. The laws of the two buffers: a read after a write, and the canonical form kept by every
memory operation. -/

namespace Sys2Proof
namespace Machine

/-- A write is seen at its own index and nowhere else. -/
@[simp] theorem read_write (m : Memory) (i j : Nat) (v : Byte) :
    Memory.read (Memory.write m i v) j = if j = i then some v else Memory.read m j := by
  induction m with
  | nil => simp [Memory.write, Memory.read]
  | cons c rest ih =>
    obtain ⟨a, b⟩ := c
    simp only [Memory.write]
    split
    · simp [Memory.read]
    · split
      · subst i; simp only [Memory.read]; split <;> rfl
      · simp only [Memory.read, ih]
        split_ifs <;> first | rfl | omega

theorem read_write_same (m : Memory) (i : Nat) (v : Byte) :
    Memory.read (Memory.write m i v) i = some v := by simp

theorem read_write_other (m : Memory) {i j : Nat} (v : Byte) (h : j ≠ i) :
    Memory.read (Memory.write m i v) j = Memory.read m j := by simp [h]

/-- The indices listed after a write are the old ones and the written one. -/
theorem mem_write {m : Memory} {i : Nat} {v : Byte} {c : Host.Cell} (h : c ∈ Memory.write m i v) :
    c = (i, v) ∨ c ∈ m := by
  induction m with
  | nil => simpa [Memory.write] using h
  | cons d rest ih =>
    obtain ⟨a, b⟩ := d
    simp only [Memory.write] at h
    split at h
    · simpa using h
    · split at h
      · simp at h; tauto
      · rcases List.mem_cons.1 h with h | h
        · exact .inr (by simp [h])
        · rcases ih h with h | h
          · exact .inl h
          · exact .inr (by simp [h])

/-- A write keeps the canonical form. -/
theorem write_wf {m : Memory} (h : Memory.wf m) (i : Nat) (v : Byte) :
    Memory.wf (Memory.write m i v) := by
  induction m with
  | nil => simp [Memory.write]
  | cons c rest ih =>
    obtain ⟨a, b⟩ := c
    obtain ⟨hd, tl⟩ := List.pairwise_cons.1 h
    simp only [Memory.write]
    split
    · rename_i hlt
      refine List.pairwise_cons.2 ⟨fun d hd' => ?_, h⟩
      rcases List.mem_cons.1 hd' with rfl | hd'
      · exact hlt
      · exact lt_trans hlt (hd d hd')
    · split
      · subst i; exact List.pairwise_cons.2 ⟨hd, tl⟩
      · refine List.pairwise_cons.2 ⟨fun d hd' => ?_, ih tl⟩
        rcases mem_write hd' with rfl | hd'
        · simp; omega
        · exact hd d hd'

/-- A write inside `n` bytes lists nothing outside them. -/
theorem write_lt {m : Memory} {n i : Nat} (h : ∀ c ∈ m, c.1 < n) (hi : i < n) (v : Byte) :
    ∀ c ∈ Memory.write m i v, c.1 < n := by
  intro c hc
  rcases mem_write hc with rfl | hc
  · exact hi
  · exact h c hc

theorem writeList_wf {m : Memory} (h : Memory.wf m) (i : Nat) (bs : List Byte) :
    Memory.wf (Memory.writeList m i bs) := by
  induction bs generalizing m i with
  | nil => exact h
  | cons b bs ih => exact ih (write_wf h i b) (i + 1)

theorem writeList_lt {m : Memory} {n i : Nat} (h : ∀ c ∈ m, c.1 < n) (bs : List Byte)
    (hi : i + bs.length ≤ n) : ∀ c ∈ Memory.writeList m i bs, c.1 < n := by
  induction bs generalizing m i with
  | nil => exact h
  | cons b bs ih =>
    simp only [List.length_cons] at hi
    exact ih (write_lt h (by omega) b) (by omega)

/-- A list written is seen from its first index up, and every other index reads as before. -/
theorem read_writeList (m : Memory) (i j : Nat) (bs : List Byte) :
    Memory.read (Memory.writeList m i bs) j =
      if i ≤ j ∧ j < i + bs.length then bs[j - i]? else Memory.read m j := by
  induction bs generalizing m i with
  | nil => simp only [Memory.writeList, List.length_nil]; rw [if_neg (by omega)]
  | cons b bs ih =>
    simp only [Memory.writeList, ih, read_write, List.length_cons]
    by_cases h1 : j = i
    · subst h1; simp
    · by_cases h2 : i + 1 ≤ j ∧ j < i + 1 + bs.length
      · rw [if_pos h2, if_pos (by omega), show j - i = (j - (i + 1)) + 1 by omega]
        simp
      · rw [if_neg h2, if_neg h1, if_neg (by omega)]

/-- Reading a list of written bytes. -/
theorem txReadList_eq {s : State} {i : Nat} {bs : List Byte}
    (h : ∀ k < bs.length, Memory.read s.txbuf (i + k) = bs[k]?) :
    txReadList s i bs.length = .ok bs := by
  induction bs generalizing i with
  | nil => rfl
  | cons b bs ih =>
    have h0 : Memory.read s.txbuf i = some b := by simpa using h 0 (by simp)
    have hs : txReadList s (i + 1) bs.length = .ok bs := ih fun k hk => by
      simpa [Nat.add_assoc, Nat.add_comm 1 k] using h (k + 1) (by simpa using hk)
    simp only [List.length_cons, txReadList, txRead, h0, hs]; rfl

theorem rxReadList_eq {s : State} {i : Nat} {bs : List Byte}
    (h : ∀ k < bs.length, Memory.read s.rxbuf (i + k) = bs[k]?) :
    rxReadList s i bs.length = .ok bs := by
  induction bs generalizing i with
  | nil => rfl
  | cons b bs ih =>
    have h0 : Memory.read s.rxbuf i = some b := by simpa using h 0 (by simp)
    have hs : rxReadList s (i + 1) bs.length = .ok bs := ih fun k hk => by
      simpa [Nat.add_assoc, Nat.add_comm 1 k] using h (k + 1) (by simpa using hk)
    simp only [List.length_cons, rxReadList, rxRead, h0, hs]; rfl

/-- What a list read tells of the bytes read. -/
theorem rxReadList_ok {s : State} {i n : Nat} {bs : List Byte} (h : rxReadList s i n = .ok bs) :
    bs.length = n ∧ ∀ k < n, Memory.read s.rxbuf (i + k) = bs[k]? := by
  induction n generalizing i bs with
  | zero => simp only [rxReadList, Except.ok.injEq] at h; simp [← h]
  | succ n ih =>
    simp only [rxReadList, rxRead] at h
    cases h0 : Memory.read s.rxbuf i with
    | none => rw [h0] at h; cases h
    | some b =>
      cases h1 : rxReadList s (i + 1) n with
      | error e => rw [h0, h1] at h; cases h
      | ok cs =>
        rw [h0, h1] at h
        cases h
        obtain ⟨hl, hk⟩ := ih h1
        refine ⟨by simp [hl], fun k hk' => ?_⟩
        cases k with
        | zero => simpa using h0
        | succ k =>
          simpa [Nat.add_assoc, Nat.add_comm 1 k] using hk k (by omega)

theorem txReadList_ok {s : State} {i n : Nat} {bs : List Byte} (h : txReadList s i n = .ok bs) :
    bs.length = n ∧ ∀ k < n, Memory.read s.txbuf (i + k) = bs[k]? := by
  induction n generalizing i bs with
  | zero => simp only [txReadList, Except.ok.injEq] at h; simp [← h]
  | succ n ih =>
    simp only [txReadList, txRead] at h
    cases h0 : Memory.read s.txbuf i with
    | none => rw [h0] at h; cases h
    | some b =>
      cases h1 : txReadList s (i + 1) n with
      | error e => rw [h0, h1] at h; cases h
      | ok cs =>
        rw [h0, h1] at h
        cases h
        obtain ⟨hl, hk⟩ := ih h1
        refine ⟨by simp [hl], fun k hk' => ?_⟩
        cases k with
        | zero => simpa using h0
        | succ k =>
          simpa [Nat.add_assoc, Nat.add_comm 1 k] using hk k (by omega)

/-- Written bytes can be read as a list. -/
theorem rxReadList_of_written {s : State} {i n : Nat}
    (h : ∀ k < n, (Memory.read s.rxbuf (i + k)).isSome = true) :
    ∃ bs, rxReadList s i n = .ok bs := by
  induction n generalizing i with
  | zero => exact ⟨[], rfl⟩
  | succ n ih =>
    obtain ⟨b, hb⟩ := Option.isSome_iff_exists.1 (h 0 (by omega))
    obtain ⟨bs, hbs⟩ := ih (i := i + 1) fun k hk => by
      simpa [Nat.add_assoc, Nat.add_comm 1 k] using h (k + 1) (by omega)
    rw [Nat.add_zero] at hb
    refine ⟨b :: bs, ?_⟩
    simp only [rxReadList, rxRead, hb, hbs]; rfl

end Machine
end Sys2Proof
end

