-- ==== Sys2Proof/Laws/State.lean ====
section
/-! SUPPORT. One lemma per field per named update, so that no proof unfolds a record update. -/

namespace Sys2Proof
namespace Machine

/-! ### `finish` -/

@[simp] theorem finish_params (v : Word) (s : State) : (finish v s).params = s.params := rfl
@[simp] theorem finish_busy (v : Word) (s : State) : (finish v s).busy = false := rfl
@[simp] theorem finish_cmdStatus (v : Word) (s : State) : (finish v s).cmdStatus = .ok := rfl
@[simp] theorem finish_result (v : Word) (s : State) : (finish v s).result = v := rfl
@[simp] theorem finish_timeoutMs (v : Word) (s : State) :
    (finish v s).timeoutMs = s.timeoutMs := rfl
@[simp] theorem finish_curSlave (v : Word) (s : State) : (finish v s).curSlave = s.curSlave := rfl
@[simp] theorem finish_txnState (v : Word) (s : State) : (finish v s).txnState = s.txnState := rfl
@[simp] theorem finish_m (v : Word) (s : State) : (finish v s).m = s.m := rfl
@[simp] theorem finish_expLen (v : Word) (s : State) : (finish v s).expLen = s.expLen := rfl
@[simp] theorem finish_rxLen (v : Word) (s : State) : (finish v s).rxLen = s.rxLen := rfl
@[simp] theorem finish_tLast (v : Word) (s : State) : (finish v s).tLast = s.tLast := rfl
@[simp] theorem finish_tMark (v : Word) (s : State) : (finish v s).tMark = s.tMark := rfl
@[simp] theorem finish_pend (v : Word) (s : State) : (finish v s).pend = s.pend := rfl
@[simp] theorem finish_txbuf (v : Word) (s : State) : (finish v s).txbuf = s.txbuf := rfl
@[simp] theorem finish_rxbuf (v : Word) (s : State) : (finish v s).rxbuf = s.rxbuf := rfl
@[simp] theorem finish_crcAcc (v : Word) (s : State) : (finish v s).crcAcc = s.crcAcc := rfl
@[simp] theorem finish_dir (v : Word) (s : State) : (finish v s).dir = s.dir := rfl
@[simp] theorem finish_now (v : Word) (s : State) : (finish v s).now = s.now := rfl
@[simp] theorem finish_inq (v : Word) (s : State) : (finish v s).inq = s.inq := rfl
@[simp] theorem finish_outq (v : Word) (s : State) : (finish v s).outq = s.outq := rfl
@[simp] theorem finish_wireTx (v : Word) (s : State) : (finish v s).wireTx = s.wireTx := rfl
@[simp] theorem finish_moves (v : Word) (s : State) : (finish v s).moves = s.moves := rfl
@[simp] theorem finish_moveIdx (v : Word) (s : State) : (finish v s).moveIdx = s.moveIdx := rfl
@[simp] theorem finish_freeIdx (v : Word) (s : State) : (finish v s).freeIdx = s.freeIdx := rfl
@[simp] theorem finish_dutyViolated (v : Word) (s : State) :
    (finish v s).dutyViolated = s.dutyViolated := rfl

/-! ### `raise` -/

@[simp] theorem raise_params (st : Status) (v : Word) (s : State) :
    (raise st v s).params = s.params := rfl
@[simp] theorem raise_busy (st : Status) (v : Word) (s : State) : (raise st v s).busy = false := rfl
@[simp] theorem raise_cmdStatus (st : Status) (v : Word) (s : State) :
    (raise st v s).cmdStatus = st := rfl
@[simp] theorem raise_result (st : Status) (v : Word) (s : State) : (raise st v s).result = v := rfl
@[simp] theorem raise_timeoutMs (st : Status) (v : Word) (s : State) :
    (raise st v s).timeoutMs = s.timeoutMs := rfl
@[simp] theorem raise_curSlave (st : Status) (v : Word) (s : State) :
    (raise st v s).curSlave = s.curSlave := rfl
@[simp] theorem raise_txnState (st : Status) (v : Word) (s : State) :
    (raise st v s).txnState = s.txnState := rfl
@[simp] theorem raise_m (st : Status) (v : Word) (s : State) : (raise st v s).m = s.m := rfl
@[simp] theorem raise_expLen (st : Status) (v : Word) (s : State) :
    (raise st v s).expLen = s.expLen := rfl
@[simp] theorem raise_rxLen (st : Status) (v : Word) (s : State) :
    (raise st v s).rxLen = s.rxLen := rfl
@[simp] theorem raise_tLast (st : Status) (v : Word) (s : State) :
    (raise st v s).tLast = s.tLast := rfl
@[simp] theorem raise_tMark (st : Status) (v : Word) (s : State) :
    (raise st v s).tMark = s.tMark := rfl
@[simp] theorem raise_pend (st : Status) (v : Word) (s : State) :
    (raise st v s).pend = s.pend := rfl
@[simp] theorem raise_txbuf (st : Status) (v : Word) (s : State) :
    (raise st v s).txbuf = s.txbuf := rfl
@[simp] theorem raise_rxbuf (st : Status) (v : Word) (s : State) :
    (raise st v s).rxbuf = s.rxbuf := rfl
@[simp] theorem raise_crcAcc (st : Status) (v : Word) (s : State) :
    (raise st v s).crcAcc = s.crcAcc := rfl
@[simp] theorem raise_dir (st : Status) (v : Word) (s : State) : (raise st v s).dir = s.dir := rfl
@[simp] theorem raise_now (st : Status) (v : Word) (s : State) : (raise st v s).now = s.now := rfl
@[simp] theorem raise_inq (st : Status) (v : Word) (s : State) : (raise st v s).inq = s.inq := rfl
@[simp] theorem raise_outq (st : Status) (v : Word) (s : State) :
    (raise st v s).outq = s.outq := rfl
@[simp] theorem raise_wireTx (st : Status) (v : Word) (s : State) :
    (raise st v s).wireTx = s.wireTx := rfl
@[simp] theorem raise_moves (st : Status) (v : Word) (s : State) :
    (raise st v s).moves = s.moves := rfl
@[simp] theorem raise_moveIdx (st : Status) (v : Word) (s : State) :
    (raise st v s).moveIdx = s.moveIdx := rfl
@[simp] theorem raise_freeIdx (st : Status) (v : Word) (s : State) :
    (raise st v s).freeIdx = s.freeIdx := rfl
@[simp] theorem raise_dutyViolated (st : Status) (v : Word) (s : State) :
    (raise st v s).dutyViolated = s.dutyViolated := rfl

/-! ### `raiseFree` -/

@[simp] theorem raiseFree_params (st : Status) (s : State) :
    (raiseFree st s).params = s.params := rfl
@[simp] theorem raiseFree_busy (st : Status) (s : State) : (raiseFree st s).busy = false := rfl
@[simp] theorem raiseFree_cmdStatus (st : Status) (s : State) :
    (raiseFree st s).cmdStatus = st := rfl
@[simp] theorem raiseFree_result (st : Status) (s : State) :
    (raiseFree st s).result = Config.freeResult s.freeIdx := rfl
@[simp] theorem raiseFree_timeoutMs (st : Status) (s : State) :
    (raiseFree st s).timeoutMs = s.timeoutMs := rfl
@[simp] theorem raiseFree_curSlave (st : Status) (s : State) :
    (raiseFree st s).curSlave = s.curSlave := rfl
@[simp] theorem raiseFree_txnState (st : Status) (s : State) :
    (raiseFree st s).txnState = s.txnState := rfl
@[simp] theorem raiseFree_m (st : Status) (s : State) : (raiseFree st s).m = s.m := rfl
@[simp] theorem raiseFree_expLen (st : Status) (s : State) :
    (raiseFree st s).expLen = s.expLen := rfl
@[simp] theorem raiseFree_rxLen (st : Status) (s : State) : (raiseFree st s).rxLen = s.rxLen := rfl
@[simp] theorem raiseFree_tLast (st : Status) (s : State) : (raiseFree st s).tLast = s.tLast := rfl
@[simp] theorem raiseFree_tMark (st : Status) (s : State) : (raiseFree st s).tMark = s.tMark := rfl
@[simp] theorem raiseFree_pend (st : Status) (s : State) : (raiseFree st s).pend = s.pend := rfl
@[simp] theorem raiseFree_txbuf (st : Status) (s : State) : (raiseFree st s).txbuf = s.txbuf := rfl
@[simp] theorem raiseFree_rxbuf (st : Status) (s : State) : (raiseFree st s).rxbuf = s.rxbuf := rfl
@[simp] theorem raiseFree_crcAcc (st : Status) (s : State) :
    (raiseFree st s).crcAcc = s.crcAcc := rfl
@[simp] theorem raiseFree_dir (st : Status) (s : State) : (raiseFree st s).dir = s.dir := rfl
@[simp] theorem raiseFree_now (st : Status) (s : State) : (raiseFree st s).now = s.now := rfl
@[simp] theorem raiseFree_inq (st : Status) (s : State) : (raiseFree st s).inq = s.inq := rfl
@[simp] theorem raiseFree_outq (st : Status) (s : State) : (raiseFree st s).outq = s.outq := rfl
@[simp] theorem raiseFree_wireTx (st : Status) (s : State) :
    (raiseFree st s).wireTx = s.wireTx := rfl
@[simp] theorem raiseFree_moves (st : Status) (s : State) : (raiseFree st s).moves = s.moves := rfl
@[simp] theorem raiseFree_moveIdx (st : Status) (s : State) :
    (raiseFree st s).moveIdx = s.moveIdx := rfl
@[simp] theorem raiseFree_freeIdx (st : Status) (s : State) :
    (raiseFree st s).freeIdx = s.freeIdx + 1 := rfl
@[simp] theorem raiseFree_dutyViolated (st : Status) (s : State) :
    (raiseFree st s).dutyViolated = s.dutyViolated := rfl

/-! ### `accept` -/

@[simp] theorem accept_params (cw : CmdWord) (s : State) : (accept cw s).params = s.params := rfl
@[simp] theorem accept_busy (cw : CmdWord) (s : State) : (accept cw s).busy = true := rfl
@[simp] theorem accept_cmdStatus (cw : CmdWord) (s : State) :
    (accept cw s).cmdStatus = s.cmdStatus := rfl
@[simp] theorem accept_result (cw : CmdWord) (s : State) : (accept cw s).result = s.result := rfl
@[simp] theorem accept_timeoutMs (cw : CmdWord) (s : State) :
    (accept cw s).timeoutMs = s.timeoutMs := rfl
@[simp] theorem accept_curSlave (cw : CmdWord) (s : State) :
    (accept cw s).curSlave = s.curSlave := rfl
@[simp] theorem accept_txnState (cw : CmdWord) (s : State) :
    (accept cw s).txnState = s.txnState := rfl
@[simp] theorem accept_m (cw : CmdWord) (s : State) : (accept cw s).m = s.m := rfl
@[simp] theorem accept_expLen (cw : CmdWord) (s : State) : (accept cw s).expLen = s.expLen := rfl
@[simp] theorem accept_rxLen (cw : CmdWord) (s : State) : (accept cw s).rxLen = s.rxLen := rfl
@[simp] theorem accept_tLast (cw : CmdWord) (s : State) : (accept cw s).tLast = s.tLast := rfl
@[simp] theorem accept_tMark (cw : CmdWord) (s : State) : (accept cw s).tMark = s.tMark := rfl
@[simp] theorem accept_pend (cw : CmdWord) (s : State) : (accept cw s).pend = cw := rfl
@[simp] theorem accept_txbuf (cw : CmdWord) (s : State) : (accept cw s).txbuf = s.txbuf := rfl
@[simp] theorem accept_rxbuf (cw : CmdWord) (s : State) : (accept cw s).rxbuf = s.rxbuf := rfl
@[simp] theorem accept_crcAcc (cw : CmdWord) (s : State) : (accept cw s).crcAcc = s.crcAcc := rfl
@[simp] theorem accept_dir (cw : CmdWord) (s : State) : (accept cw s).dir = s.dir := rfl
@[simp] theorem accept_now (cw : CmdWord) (s : State) : (accept cw s).now = s.now := rfl
@[simp] theorem accept_inq (cw : CmdWord) (s : State) : (accept cw s).inq = s.inq := rfl
@[simp] theorem accept_outq (cw : CmdWord) (s : State) : (accept cw s).outq = s.outq := rfl
@[simp] theorem accept_wireTx (cw : CmdWord) (s : State) : (accept cw s).wireTx = s.wireTx := rfl
@[simp] theorem accept_moves (cw : CmdWord) (s : State) : (accept cw s).moves = s.moves := rfl
@[simp] theorem accept_moveIdx (cw : CmdWord) (s : State) : (accept cw s).moveIdx = s.moveIdx := rfl
@[simp] theorem accept_freeIdx (cw : CmdWord) (s : State) : (accept cw s).freeIdx = s.freeIdx := rfl
@[simp] theorem accept_dutyViolated (cw : CmdWord) (s : State) :
    (accept cw s).dutyViolated = s.dutyViolated := rfl

/-! ### `lineWrite` -/

@[simp] theorem lineWrite_params (bs : List Byte) (s : State) :
    (lineWrite bs s).params = s.params := rfl
@[simp] theorem lineWrite_busy (bs : List Byte) (s : State) : (lineWrite bs s).busy = s.busy := rfl
@[simp] theorem lineWrite_cmdStatus (bs : List Byte) (s : State) :
    (lineWrite bs s).cmdStatus = s.cmdStatus := rfl
@[simp] theorem lineWrite_result (bs : List Byte) (s : State) :
    (lineWrite bs s).result = s.result := rfl
@[simp] theorem lineWrite_timeoutMs (bs : List Byte) (s : State) :
    (lineWrite bs s).timeoutMs = s.timeoutMs := rfl
@[simp] theorem lineWrite_curSlave (bs : List Byte) (s : State) :
    (lineWrite bs s).curSlave = s.curSlave := rfl
@[simp] theorem lineWrite_txnState (bs : List Byte) (s : State) :
    (lineWrite bs s).txnState = s.txnState := rfl
@[simp] theorem lineWrite_m (bs : List Byte) (s : State) : (lineWrite bs s).m = s.m := rfl
@[simp] theorem lineWrite_expLen (bs : List Byte) (s : State) :
    (lineWrite bs s).expLen = s.expLen := rfl
@[simp] theorem lineWrite_rxLen (bs : List Byte) (s : State) :
    (lineWrite bs s).rxLen = s.rxLen := rfl
@[simp] theorem lineWrite_tLast (bs : List Byte) (s : State) :
    (lineWrite bs s).tLast = s.tLast := rfl
@[simp] theorem lineWrite_tMark (bs : List Byte) (s : State) :
    (lineWrite bs s).tMark = s.tMark := rfl
@[simp] theorem lineWrite_pend (bs : List Byte) (s : State) : (lineWrite bs s).pend = s.pend := rfl
@[simp] theorem lineWrite_txbuf (bs : List Byte) (s : State) :
    (lineWrite bs s).txbuf = s.txbuf := rfl
@[simp] theorem lineWrite_rxbuf (bs : List Byte) (s : State) :
    (lineWrite bs s).rxbuf = s.rxbuf := rfl
@[simp] theorem lineWrite_crcAcc (bs : List Byte) (s : State) :
    (lineWrite bs s).crcAcc = s.crcAcc := rfl
@[simp] theorem lineWrite_dir (bs : List Byte) (s : State) : (lineWrite bs s).dir = s.dir := rfl
@[simp] theorem lineWrite_now (bs : List Byte) (s : State) : (lineWrite bs s).now = s.now := rfl
@[simp] theorem lineWrite_inq (bs : List Byte) (s : State) : (lineWrite bs s).inq = s.inq := rfl
@[simp] theorem lineWrite_outq (bs : List Byte) (s : State) :
    (lineWrite bs s).outq = s.outq ++ bs := rfl
@[simp] theorem lineWrite_wireTx (bs : List Byte) (s : State) :
    (lineWrite bs s).wireTx = s.wireTx := rfl
@[simp] theorem lineWrite_moves (bs : List Byte) (s : State) :
    (lineWrite bs s).moves = s.moves := rfl
@[simp] theorem lineWrite_moveIdx (bs : List Byte) (s : State) :
    (lineWrite bs s).moveIdx = s.moveIdx := rfl
@[simp] theorem lineWrite_freeIdx (bs : List Byte) (s : State) :
    (lineWrite bs s).freeIdx = s.freeIdx := rfl
@[simp] theorem lineWrite_dutyViolated (bs : List Byte) (s : State) :
    (lineWrite bs s).dutyViolated = s.dutyViolated := rfl

/-! ### `setDir` -/

@[simp] theorem setDir_params (l : Level) (s : State) : (setDir l s).params = s.params := rfl
@[simp] theorem setDir_busy (l : Level) (s : State) : (setDir l s).busy = s.busy := rfl
@[simp] theorem setDir_cmdStatus (l : Level) (s : State) :
    (setDir l s).cmdStatus = s.cmdStatus := rfl
@[simp] theorem setDir_result (l : Level) (s : State) : (setDir l s).result = s.result := rfl
@[simp] theorem setDir_timeoutMs (l : Level) (s : State) :
    (setDir l s).timeoutMs = s.timeoutMs := rfl
@[simp] theorem setDir_curSlave (l : Level) (s : State) : (setDir l s).curSlave = s.curSlave := rfl
@[simp] theorem setDir_txnState (l : Level) (s : State) : (setDir l s).txnState = s.txnState := rfl
@[simp] theorem setDir_m (l : Level) (s : State) : (setDir l s).m = s.m := rfl
@[simp] theorem setDir_expLen (l : Level) (s : State) : (setDir l s).expLen = s.expLen := rfl
@[simp] theorem setDir_rxLen (l : Level) (s : State) : (setDir l s).rxLen = s.rxLen := rfl
@[simp] theorem setDir_tLast (l : Level) (s : State) : (setDir l s).tLast = s.tLast := rfl
@[simp] theorem setDir_tMark (l : Level) (s : State) : (setDir l s).tMark = s.tMark := rfl
@[simp] theorem setDir_pend (l : Level) (s : State) : (setDir l s).pend = s.pend := rfl
@[simp] theorem setDir_txbuf (l : Level) (s : State) : (setDir l s).txbuf = s.txbuf := rfl
@[simp] theorem setDir_rxbuf (l : Level) (s : State) : (setDir l s).rxbuf = s.rxbuf := rfl
@[simp] theorem setDir_crcAcc (l : Level) (s : State) : (setDir l s).crcAcc = s.crcAcc := rfl
@[simp] theorem setDir_dir (l : Level) (s : State) :
    (setDir l s).dir = if s.params.dirPresent then l else s.dir := rfl
@[simp] theorem setDir_now (l : Level) (s : State) : (setDir l s).now = s.now := rfl
@[simp] theorem setDir_inq (l : Level) (s : State) : (setDir l s).inq = s.inq := rfl
@[simp] theorem setDir_outq (l : Level) (s : State) : (setDir l s).outq = s.outq := rfl
@[simp] theorem setDir_wireTx (l : Level) (s : State) : (setDir l s).wireTx = s.wireTx := rfl
@[simp] theorem setDir_moves (l : Level) (s : State) : (setDir l s).moves = s.moves := rfl
@[simp] theorem setDir_moveIdx (l : Level) (s : State) : (setDir l s).moveIdx = s.moveIdx := rfl
@[simp] theorem setDir_freeIdx (l : Level) (s : State) : (setDir l s).freeIdx = s.freeIdx := rfl
@[simp] theorem setDir_dutyViolated (l : Level) (s : State) :
    (setDir l s).dutyViolated = s.dutyViolated := rfl

/-! ### `clockStep` -/

@[simp] theorem clockStep_params (s : State) : (clockStep s).params = s.params := rfl
@[simp] theorem clockStep_busy (s : State) : (clockStep s).busy = s.busy := rfl
@[simp] theorem clockStep_cmdStatus (s : State) : (clockStep s).cmdStatus = s.cmdStatus := rfl
@[simp] theorem clockStep_result (s : State) : (clockStep s).result = s.result := rfl
@[simp] theorem clockStep_timeoutMs (s : State) : (clockStep s).timeoutMs = s.timeoutMs := rfl
@[simp] theorem clockStep_curSlave (s : State) : (clockStep s).curSlave = s.curSlave := rfl
@[simp] theorem clockStep_txnState (s : State) : (clockStep s).txnState = s.txnState := rfl
@[simp] theorem clockStep_m (s : State) : (clockStep s).m = s.m := rfl
@[simp] theorem clockStep_expLen (s : State) : (clockStep s).expLen = s.expLen := rfl
@[simp] theorem clockStep_rxLen (s : State) : (clockStep s).rxLen = s.rxLen := rfl
@[simp] theorem clockStep_tLast (s : State) : (clockStep s).tLast = s.tLast := rfl
@[simp] theorem clockStep_tMark (s : State) : (clockStep s).tMark = s.tMark := rfl
@[simp] theorem clockStep_pend (s : State) : (clockStep s).pend = s.pend := rfl
@[simp] theorem clockStep_txbuf (s : State) : (clockStep s).txbuf = s.txbuf := rfl
@[simp] theorem clockStep_rxbuf (s : State) : (clockStep s).rxbuf = s.rxbuf := rfl
@[simp] theorem clockStep_crcAcc (s : State) : (clockStep s).crcAcc = s.crcAcc := rfl
@[simp] theorem clockStep_dir (s : State) : (clockStep s).dir = s.dir := rfl
@[simp] theorem clockStep_now (s : State) : (clockStep s).now = s.now + 1#32 := rfl
@[simp] theorem clockStep_inq (s : State) : (clockStep s).inq = s.inq := rfl
@[simp] theorem clockStep_outq (s : State) : (clockStep s).outq = s.outq := rfl
@[simp] theorem clockStep_wireTx (s : State) : (clockStep s).wireTx = s.wireTx := rfl
@[simp] theorem clockStep_moves (s : State) : (clockStep s).moves = s.moves := rfl
@[simp] theorem clockStep_moveIdx (s : State) : (clockStep s).moveIdx = s.moveIdx := rfl
@[simp] theorem clockStep_freeIdx (s : State) : (clockStep s).freeIdx = s.freeIdx := rfl
@[simp] theorem clockStep_dutyViolated (s : State) :
    (clockStep s).dutyViolated = s.dutyViolated := rfl

/-! ### `lineDeliver` -/

@[simp] theorem lineDeliver_params (b : Byte) (s : State) :
    (lineDeliver b s).params = s.params := rfl
@[simp] theorem lineDeliver_busy (b : Byte) (s : State) : (lineDeliver b s).busy = s.busy := rfl
@[simp] theorem lineDeliver_cmdStatus (b : Byte) (s : State) :
    (lineDeliver b s).cmdStatus = s.cmdStatus := rfl
@[simp] theorem lineDeliver_result (b : Byte) (s : State) :
    (lineDeliver b s).result = s.result := rfl
@[simp] theorem lineDeliver_timeoutMs (b : Byte) (s : State) :
    (lineDeliver b s).timeoutMs = s.timeoutMs := rfl
@[simp] theorem lineDeliver_curSlave (b : Byte) (s : State) :
    (lineDeliver b s).curSlave = s.curSlave := rfl
@[simp] theorem lineDeliver_txnState (b : Byte) (s : State) :
    (lineDeliver b s).txnState = s.txnState := rfl
@[simp] theorem lineDeliver_m (b : Byte) (s : State) : (lineDeliver b s).m = s.m := rfl
@[simp] theorem lineDeliver_expLen (b : Byte) (s : State) :
    (lineDeliver b s).expLen = s.expLen := rfl
@[simp] theorem lineDeliver_rxLen (b : Byte) (s : State) : (lineDeliver b s).rxLen = s.rxLen := rfl
@[simp] theorem lineDeliver_tLast (b : Byte) (s : State) : (lineDeliver b s).tLast = s.tLast := rfl
@[simp] theorem lineDeliver_tMark (b : Byte) (s : State) : (lineDeliver b s).tMark = s.tMark := rfl
@[simp] theorem lineDeliver_pend (b : Byte) (s : State) : (lineDeliver b s).pend = s.pend := rfl
@[simp] theorem lineDeliver_txbuf (b : Byte) (s : State) : (lineDeliver b s).txbuf = s.txbuf := rfl
@[simp] theorem lineDeliver_rxbuf (b : Byte) (s : State) : (lineDeliver b s).rxbuf = s.rxbuf := rfl
@[simp] theorem lineDeliver_crcAcc (b : Byte) (s : State) :
    (lineDeliver b s).crcAcc = s.crcAcc := rfl
@[simp] theorem lineDeliver_dir (b : Byte) (s : State) : (lineDeliver b s).dir = s.dir := rfl
@[simp] theorem lineDeliver_now (b : Byte) (s : State) : (lineDeliver b s).now = s.now := rfl
@[simp] theorem lineDeliver_inq (b : Byte) (s : State) : (lineDeliver b s).inq = s.inq ++ [b] := rfl
@[simp] theorem lineDeliver_outq (b : Byte) (s : State) : (lineDeliver b s).outq = s.outq := rfl
@[simp] theorem lineDeliver_wireTx (b : Byte) (s : State) :
    (lineDeliver b s).wireTx = s.wireTx := rfl
@[simp] theorem lineDeliver_moves (b : Byte) (s : State) : (lineDeliver b s).moves = s.moves := rfl
@[simp] theorem lineDeliver_moveIdx (b : Byte) (s : State) :
    (lineDeliver b s).moveIdx = s.moveIdx := rfl
@[simp] theorem lineDeliver_freeIdx (b : Byte) (s : State) :
    (lineDeliver b s).freeIdx = s.freeIdx := rfl
@[simp] theorem lineDeliver_dutyViolated (b : Byte) (s : State) :
    (lineDeliver b s).dutyViolated = s.dutyViolated := rfl

/-! ### `buildStep` -/

@[simp] theorem buildStep_params (slave fc : Byte) (start qty : Half) (s : State) :
    (buildStep slave fc start qty s).params = s.params := rfl
@[simp] theorem buildStep_busy (slave fc : Byte) (start qty : Half) (s : State) :
    (buildStep slave fc start qty s).busy = s.busy := rfl
@[simp] theorem buildStep_cmdStatus (slave fc : Byte) (start qty : Half) (s : State) :
    (buildStep slave fc start qty s).cmdStatus = s.cmdStatus := rfl
@[simp] theorem buildStep_result (slave fc : Byte) (start qty : Half) (s : State) :
    (buildStep slave fc start qty s).result = s.result := rfl
@[simp] theorem buildStep_timeoutMs (slave fc : Byte) (start qty : Half) (s : State) :
    (buildStep slave fc start qty s).timeoutMs = s.timeoutMs := rfl
@[simp] theorem buildStep_curSlave (slave fc : Byte) (start qty : Half) (s : State) :
    (buildStep slave fc start qty s).curSlave = slave := rfl
@[simp] theorem buildStep_txnState (slave fc : Byte) (start qty : Half) (s : State) :
    (buildStep slave fc start qty s).txnState = s.txnState := rfl
@[simp] theorem buildStep_m (slave fc : Byte) (start qty : Half) (s : State) :
    (buildStep slave fc start qty s).m = s.m := rfl
@[simp] theorem buildStep_expLen (slave fc : Byte) (start qty : Half) (s : State) :
    (buildStep slave fc start qty s).expLen = s.expLen := rfl
@[simp] theorem buildStep_rxLen (slave fc : Byte) (start qty : Half) (s : State) :
    (buildStep slave fc start qty s).rxLen = s.rxLen := rfl
@[simp] theorem buildStep_tLast (slave fc : Byte) (start qty : Half) (s : State) :
    (buildStep slave fc start qty s).tLast = s.tLast := rfl
@[simp] theorem buildStep_tMark (slave fc : Byte) (start qty : Half) (s : State) :
    (buildStep slave fc start qty s).tMark = s.tMark := rfl
@[simp] theorem buildStep_pend (slave fc : Byte) (start qty : Half) (s : State) :
    (buildStep slave fc start qty s).pend = s.pend := rfl
@[simp] theorem buildStep_txbuf (slave fc : Byte) (start qty : Half) (s : State) :
    (buildStep slave fc start qty s).txbuf = Memory.writeList s.txbuf 0 (frame slave fc start qty) := rfl
@[simp] theorem buildStep_rxbuf (slave fc : Byte) (start qty : Half) (s : State) :
    (buildStep slave fc start qty s).rxbuf = s.rxbuf := rfl
@[simp] theorem buildStep_crcAcc (slave fc : Byte) (start qty : Half) (s : State) :
    (buildStep slave fc start qty s).crcAcc = s.crcAcc := rfl
@[simp] theorem buildStep_dir (slave fc : Byte) (start qty : Half) (s : State) :
    (buildStep slave fc start qty s).dir = s.dir := rfl
@[simp] theorem buildStep_now (slave fc : Byte) (start qty : Half) (s : State) :
    (buildStep slave fc start qty s).now = s.now := rfl
@[simp] theorem buildStep_inq (slave fc : Byte) (start qty : Half) (s : State) :
    (buildStep slave fc start qty s).inq = s.inq := rfl
@[simp] theorem buildStep_outq (slave fc : Byte) (start qty : Half) (s : State) :
    (buildStep slave fc start qty s).outq = s.outq := rfl
@[simp] theorem buildStep_wireTx (slave fc : Byte) (start qty : Half) (s : State) :
    (buildStep slave fc start qty s).wireTx = s.wireTx := rfl
@[simp] theorem buildStep_moves (slave fc : Byte) (start qty : Half) (s : State) :
    (buildStep slave fc start qty s).moves = s.moves := rfl
@[simp] theorem buildStep_moveIdx (slave fc : Byte) (start qty : Half) (s : State) :
    (buildStep slave fc start qty s).moveIdx = s.moveIdx := rfl
@[simp] theorem buildStep_freeIdx (slave fc : Byte) (start qty : Half) (s : State) :
    (buildStep slave fc start qty s).freeIdx = s.freeIdx := rfl
@[simp] theorem buildStep_dutyViolated (slave fc : Byte) (start qty : Half) (s : State) :
    (buildStep slave fc start qty s).dutyViolated = s.dutyViolated := rfl

/-! ### `beginReceive` -/

@[simp] theorem beginReceive_params (s : State) : (beginReceive s).params = s.params := rfl
@[simp] theorem beginReceive_busy (s : State) : (beginReceive s).busy = s.busy := rfl
@[simp] theorem beginReceive_cmdStatus (s : State) : (beginReceive s).cmdStatus = s.cmdStatus := rfl
@[simp] theorem beginReceive_result (s : State) : (beginReceive s).result = s.result := rfl
@[simp] theorem beginReceive_timeoutMs (s : State) : (beginReceive s).timeoutMs = s.timeoutMs := rfl
@[simp] theorem beginReceive_curSlave (s : State) : (beginReceive s).curSlave = s.curSlave := rfl
@[simp] theorem beginReceive_txnState (s : State) : (beginReceive s).txnState = .awaitingSync := rfl
@[simp] theorem beginReceive_m (s : State) : (beginReceive s).m = s.m := rfl
@[simp] theorem beginReceive_expLen (s : State) : (beginReceive s).expLen = s.expLen := rfl
@[simp] theorem beginReceive_rxLen (s : State) : (beginReceive s).rxLen = s.rxLen := rfl
@[simp] theorem beginReceive_tLast (s : State) : (beginReceive s).tLast = s.now := rfl
@[simp] theorem beginReceive_tMark (s : State) : (beginReceive s).tMark = s.tMark := rfl
@[simp] theorem beginReceive_pend (s : State) : (beginReceive s).pend = s.pend := rfl
@[simp] theorem beginReceive_txbuf (s : State) : (beginReceive s).txbuf = s.txbuf := rfl
@[simp] theorem beginReceive_rxbuf (s : State) : (beginReceive s).rxbuf = s.rxbuf := rfl
@[simp] theorem beginReceive_crcAcc (s : State) : (beginReceive s).crcAcc = s.crcAcc := rfl
@[simp] theorem beginReceive_dir (s : State) : (beginReceive s).dir = s.dir := rfl
@[simp] theorem beginReceive_now (s : State) : (beginReceive s).now = s.now := rfl
@[simp] theorem beginReceive_inq (s : State) : (beginReceive s).inq = s.inq := rfl
@[simp] theorem beginReceive_outq (s : State) : (beginReceive s).outq = s.outq := rfl
@[simp] theorem beginReceive_wireTx (s : State) : (beginReceive s).wireTx = s.wireTx := rfl
@[simp] theorem beginReceive_moves (s : State) : (beginReceive s).moves = s.moves := rfl
@[simp] theorem beginReceive_moveIdx (s : State) : (beginReceive s).moveIdx = s.moveIdx := rfl
@[simp] theorem beginReceive_freeIdx (s : State) : (beginReceive s).freeIdx = s.freeIdx := rfl
@[simp] theorem beginReceive_dutyViolated (s : State) :
    (beginReceive s).dutyViolated = s.dutyViolated := rfl

/-! ### `engineReset` -/

@[simp] theorem engineReset_params (s : State) : (engineReset s).params = s.params := rfl
@[simp] theorem engineReset_busy (s : State) : (engineReset s).busy = false := rfl
@[simp] theorem engineReset_cmdStatus (s : State) : (engineReset s).cmdStatus = .ok := rfl
@[simp] theorem engineReset_result (s : State) : (engineReset s).result = 0#32 := rfl
@[simp] theorem engineReset_timeoutMs (s : State) :
    (engineReset s).timeoutMs = Config.timeoutReset := rfl
@[simp] theorem engineReset_curSlave (s : State) :
    (engineReset s).curSlave = s.params.initSlaveId := rfl
@[simp] theorem engineReset_txnState (s : State) : (engineReset s).txnState = .idle := rfl
@[simp] theorem engineReset_m (s : State) : (engineReset s).m = 0 := rfl
@[simp] theorem engineReset_expLen (s : State) : (engineReset s).expLen = 0#9 := rfl
@[simp] theorem engineReset_rxLen (s : State) : (engineReset s).rxLen = 0#16 := rfl
@[simp] theorem engineReset_tLast (s : State) : (engineReset s).tLast = 0#32 := rfl
@[simp] theorem engineReset_tMark (s : State) : (engineReset s).tMark = 0#32 := rfl
@[simp] theorem engineReset_pend (s : State) : (engineReset s).pend = 0#64 := rfl
@[simp] theorem engineReset_txbuf (s : State) : (engineReset s).txbuf = [] := rfl
@[simp] theorem engineReset_rxbuf (s : State) : (engineReset s).rxbuf = [] := rfl
@[simp] theorem engineReset_crcAcc (s : State) : (engineReset s).crcAcc = 0xFFFF#16 := rfl
@[simp] theorem engineReset_dir (s : State) :
    (engineReset s).dir = if s.params.dirPresent then s.params.dirRxLevel else s.dir := rfl
@[simp] theorem engineReset_now (s : State) : (engineReset s).now = s.now := rfl
@[simp] theorem engineReset_inq (s : State) : (engineReset s).inq = s.inq := rfl
@[simp] theorem engineReset_outq (s : State) : (engineReset s).outq = s.outq := rfl
@[simp] theorem engineReset_wireTx (s : State) : (engineReset s).wireTx = s.wireTx := rfl
@[simp] theorem engineReset_moves (s : State) : (engineReset s).moves = s.moves := rfl
@[simp] theorem engineReset_moveIdx (s : State) : (engineReset s).moveIdx = s.moveIdx := rfl
@[simp] theorem engineReset_freeIdx (s : State) : (engineReset s).freeIdx = s.freeIdx := rfl
@[simp] theorem engineReset_dutyViolated (s : State) :
    (engineReset s).dutyViolated = s.dutyViolated := rfl

/-! ### `lineSend` -/

@[simp] theorem lineSend_params (s : State) : (lineSend s).params = s.params := by
  unfold lineSend; split <;> rfl
@[simp] theorem lineSend_busy (s : State) : (lineSend s).busy = s.busy := by
  unfold lineSend; split <;> rfl
@[simp] theorem lineSend_cmdStatus (s : State) : (lineSend s).cmdStatus = s.cmdStatus := by
  unfold lineSend; split <;> rfl
@[simp] theorem lineSend_result (s : State) : (lineSend s).result = s.result := by
  unfold lineSend; split <;> rfl
@[simp] theorem lineSend_timeoutMs (s : State) : (lineSend s).timeoutMs = s.timeoutMs := by
  unfold lineSend; split <;> rfl
@[simp] theorem lineSend_curSlave (s : State) : (lineSend s).curSlave = s.curSlave := by
  unfold lineSend; split <;> rfl
@[simp] theorem lineSend_txnState (s : State) : (lineSend s).txnState = s.txnState := by
  unfold lineSend; split <;> rfl
@[simp] theorem lineSend_m (s : State) : (lineSend s).m = s.m := by
  unfold lineSend; split <;> rfl
@[simp] theorem lineSend_expLen (s : State) : (lineSend s).expLen = s.expLen := by
  unfold lineSend; split <;> rfl
@[simp] theorem lineSend_rxLen (s : State) : (lineSend s).rxLen = s.rxLen := by
  unfold lineSend; split <;> rfl
@[simp] theorem lineSend_tLast (s : State) : (lineSend s).tLast = s.tLast := by
  unfold lineSend; split <;> rfl
@[simp] theorem lineSend_tMark (s : State) : (lineSend s).tMark = s.tMark := by
  unfold lineSend; split <;> rfl
@[simp] theorem lineSend_pend (s : State) : (lineSend s).pend = s.pend := by
  unfold lineSend; split <;> rfl
@[simp] theorem lineSend_txbuf (s : State) : (lineSend s).txbuf = s.txbuf := by
  unfold lineSend; split <;> rfl
@[simp] theorem lineSend_rxbuf (s : State) : (lineSend s).rxbuf = s.rxbuf := by
  unfold lineSend; split <;> rfl
@[simp] theorem lineSend_crcAcc (s : State) : (lineSend s).crcAcc = s.crcAcc := by
  unfold lineSend; split <;> rfl
@[simp] theorem lineSend_dir (s : State) : (lineSend s).dir = s.dir := by
  unfold lineSend; split <;> rfl
@[simp] theorem lineSend_now (s : State) : (lineSend s).now = s.now := by
  unfold lineSend; split <;> rfl
@[simp] theorem lineSend_inq (s : State) : (lineSend s).inq = s.inq := by
  unfold lineSend; split <;> rfl
@[simp] theorem lineSend_outq (s : State) : (lineSend s).outq = s.outq.tail := by
  cases h : s.outq <;> simp [lineSend, h]
@[simp] theorem lineSend_wireTx (s : State) : (lineSend s).wireTx = s.wireTx ++ s.outq.take 1 := by
  cases h : s.outq <;> simp [lineSend, h]
@[simp] theorem lineSend_moves (s : State) : (lineSend s).moves = s.moves := by
  unfold lineSend; split <;> rfl
@[simp] theorem lineSend_moveIdx (s : State) : (lineSend s).moveIdx = s.moveIdx := by
  unfold lineSend; split <;> rfl
@[simp] theorem lineSend_freeIdx (s : State) : (lineSend s).freeIdx = s.freeIdx := by
  unfold lineSend; split <;> rfl
@[simp] theorem lineSend_dutyViolated (s : State) : (lineSend s).dutyViolated = s.dutyViolated := by
  unfold lineSend; split <;> rfl

end Machine
end Sys2Proof
end

