-- ==== Sys2Proof/Laws/Ops.lean ====
section
/-! SUPPORT. One lemma per shared operation: everything it can answer. -/

namespace Sys2Proof
namespace Machine

/-! ### Results -/

@[simp] theorem andThen_next_iff {r : Result} {k : State → Result} {t : State} :
    andThen r k = .next t ↔ ∃ s, r = .next s ∧ k s = .next t := by
  cases r <;> simp [andThen]

@[simp] theorem withRead_next_iff {α : Type} {v : Except Fault α} {k : α → Result} {t : State} :
    withRead v k = .next t ↔ ∃ a, v = .ok a ∧ k a = .next t := by
  cases v <;> simp [withRead]

@[simp] theorem withRead_ok {α : Type} (a : α) (k : α → Result) : withRead (.ok a) k = k a := rfl

@[simp] theorem andThen_of_next (s : State) (k : State → Result) : andThen (.next s) k = k s := rfl

/-! ### Buffers -/

@[simp] theorem rxRead_ok_iff {s : State} {i : Nat} {b : Byte} :
    rxRead s i = .ok b ↔ Memory.read s.rxbuf i = some b := by
  unfold rxRead; cases Memory.read s.rxbuf i <;> simp

@[simp] theorem txRead_ok_iff {s : State} {i : Nat} {b : Byte} :
    txRead s i = .ok b ↔ Memory.read s.txbuf i = some b := by
  unfold txRead; cases Memory.read s.txbuf i <;> simp

theorem rxRead_eq {s : State} {i : Nat} {b : Byte} (h : Memory.read s.rxbuf i = some b) :
    rxRead s i = .ok b := rxRead_ok_iff.2 h

theorem txRead_eq {s : State} {i : Nat} {b : Byte} (h : Memory.read s.txbuf i = some b) :
    txRead s i = .ok b := txRead_ok_iff.2 h

/-- `rxRead` depends on RXBUF alone. -/
theorem rxRead_congr {s t : State} (h : t.rxbuf = s.rxbuf) (i : Nat) : rxRead t i = rxRead s i := by
  simp [rxRead, h]

/-- A list read of RXBUF depends on RXBUF alone. -/
theorem rxReadList_congr {s t : State} (h : t.rxbuf = s.rxbuf) (i n : Nat) :
    rxReadList t i n = rxReadList s i n := by
  induction n generalizing i with
  | zero => rfl
  | succ n ih => simp only [rxReadList, ih, rxRead_congr h]

/-- A list read of TXBUF depends on TXBUF alone. -/
theorem txReadList_congr {s t : State} (h : t.txbuf = s.txbuf) (i n : Nat) :
    txReadList t i n = txReadList s i n := by
  induction n generalizing i with
  | zero => rfl
  | succ n ih => simp only [txReadList, ih, txRead, h]

theorem storeRx_next_iff {i : Nat} {b : Byte} {s t : State} :
    storeRx i b s = .next t ↔
      i < s.params.rxCap ∧ t = { s with rxbuf := Memory.write s.rxbuf i b } := by
  unfold storeRx
  split
  · rename_i h; simp only [Host.Outcome.next.injEq, h, true_and]; exact eq_comm
  · rename_i h; simp [h]

theorem storeRx_eq {i : Nat} {s : State} (b : Byte) (h : i < s.params.rxCap) :
    storeRx i b s = .next { s with rxbuf := Memory.write s.rxbuf i b } := if_pos h

/-! ### Completion -/

theorem onlyCompletes_finish (v : Word) (s : State) : OnlyCompletes s (finish v s) := rfl
theorem onlyCompletes_raise (st : Status) (v : Word) (s : State) :
    OnlyCompletes s (raise st v s) := rfl
theorem onlyCompletes_raiseFree (st : Status) (s : State) :
    OnlyCompletes s (raiseFree st s) := rfl

theorem finishRead_next_iff {v : Except Fault Word} {s t : State} :
    finishRead v s = .next t ↔ ∃ w, v = .ok w ∧ t = finish w s := by
  simp only [finishRead, withRead_next_iff, Host.Outcome.next.injEq]
  exact exists_congr fun _ => and_congr_right fun _ => eq_comm

/-- The decoder's precondition, when it goes on: either it holds and the rest runs, or the command
ends DECODE_PRECONDITION. -/
theorem require_next_iff {first n : Nat} {s t : State} {k : Result} :
    require first n s k = .next t ↔
      (s.txnState = .complete ∧ ∃ bc, Memory.read s.rxbuf 2 = some bc ∧
        ((first + n ≤ bc.toNat ∧ k = .next t) ∨
          (¬ first + n ≤ bc.toNat ∧ t = raiseFree .decodePrecondition s))) ∨
      (s.txnState ≠ .complete ∧ t = raiseFree .decodePrecondition s) := by
  unfold require
  by_cases h : s.txnState = .complete
  · simp only [h, if_true, withRead_next_iff, rxRead_ok_iff, true_and, ne_eq, not_true, false_and,
      or_false]
    refine exists_congr fun bc => and_congr_right fun _ => ?_
    by_cases hb : first + n ≤ bc.toNat <;> simp [hb, eq_comm]
  · simp [h, eq_comm]

/-- In COMPLETE, with the byte count known, the precondition is the range test alone. -/
theorem require_complete {first n : Nat} {s : State} {k : Result} {bc : Byte}
    (h : s.txnState = .complete) (hb : Memory.read s.rxbuf 2 = some bc) :
    require first n s k =
      if first + n ≤ bc.toNat then k else .next (raiseFree .decodePrecondition s) := by
  simp [require, h, rxRead_eq hb]

theorem require_not_complete {first n : Nat} {s : State} {k : Result}
    (h : s.txnState ≠ .complete) :
    require first n s k = .next (raiseFree .decodePrecondition s) := by
  simp [require, h]

theorem require_onlyCompletes {first n : Nat} {s t : State} {k : Result}
    (hk : ∀ t, k = .next t → OnlyCompletes s t) (h : require first n s k = .next t) :
    OnlyCompletes s t := by
  rcases require_next_iff.1 h with ⟨-, bc, -, ⟨-, h⟩ | ⟨-, rfl⟩⟩ | ⟨-, rfl⟩
  · exact hk t h
  · rfl
  · rfl

theorem finishRead_onlyCompletes {v : Except Fault Word} {s t : State}
    (h : finishRead v s = .next t) : OnlyCompletes s t := by
  obtain ⟨w, -, rfl⟩ := finishRead_next_iff.1 h
  rfl

theorem requestComplete_onlyCompletes {s t : State} (h : requestComplete s = .next t) :
    OnlyCompletes s t := by
  unfold requestComplete at h
  split at h
  · exact finishRead_onlyCompletes h
  · cases h; rfl

theorem wrapperComplete_onlyCompletes {s t : State} (h : wrapperComplete s = .next t) :
    OnlyCompletes s t := by
  unfold wrapperComplete at h
  split at h
  · dsimp only at h
    split at h
    · refine require_onlyCompletes (fun t ht => ?_) h
      simp only [withRead_next_iff, Host.Outcome.next.injEq] at ht
      obtain ⟨p, -, rfl⟩ := ht
      rfl
    · split at h
      · exact require_onlyCompletes (fun _ => finishRead_onlyCompletes) h
      · exact require_onlyCompletes (fun _ => finishRead_onlyCompletes) h
  · cases h; rfl

/-- `complete_txn` writes CMD_STATUS and RESULT and clears BUSY, and nothing else. -/
theorem completeTxn_onlyCompletes {s t : State} (h : completeTxn s = .next t) :
    OnlyCompletes s t := by
  unfold completeTxn at h
  split at h
  · exact requestComplete_onlyCompletes h
  · exact wrapperComplete_onlyCompletes h

/-- A transaction that did not reach COMPLETE ends TRANSACTION_FAILED, whichever command it is. -/
theorem completeTxn_failed {s : State} (h : s.txnState ≠ .complete) :
    completeTxn s = .next (raise .transactionFailed minusOne s) := by
  unfold completeTxn requestComplete wrapperComplete
  simp [h]

/-- The statuses a transaction ends with; DECODE_PRECONDITION only a read wrapper's. -/
theorem completeTxn_status {s t : State} (h : completeTxn s = .next t) :
    t.cmdStatus = .ok ∨ t.cmdStatus = .transactionFailed ∨
      (s.pend.extractLsb' 0 8 ≠ 0x20#8 ∧ t.cmdStatus = .decodePrecondition) := by
  have key : ∀ {n : Nat} {k : Result}, (∀ u, k = .next u → u.cmdStatus = .ok) →
      require 0 n s k = .next t → t.cmdStatus = .ok ∨ t.cmdStatus = .decodePrecondition := by
    intro n k hk h
    rcases require_next_iff.1 h with ⟨-, bc, -, ⟨-, h⟩ | ⟨-, rfl⟩⟩ | ⟨-, rfl⟩
    · exact .inl (hk t h)
    · exact .inr rfl
    · exact .inr rfl
  have hf : ∀ {v : Except Fault Word} (u : State), finishRead v s = .next u → u.cmdStatus = .ok := by
    intro v u hu
    obtain ⟨w, -, rfl⟩ := finishRead_next_iff.1 hu
    rfl
  unfold completeTxn at h
  split at h
  · unfold requestComplete at h
    split at h
    · exact .inl (hf t h)
    · cases h; exact .inr (.inl rfl)
  · rename_i hop
    have done : t.cmdStatus = .ok ∨ t.cmdStatus = .decodePrecondition →
        t.cmdStatus = .ok ∨ t.cmdStatus = .transactionFailed ∨
          (s.pend.extractLsb' 0 8 ≠ 0x20#8 ∧ t.cmdStatus = .decodePrecondition) := fun h =>
      h.imp_right fun h => .inr ⟨hop, h⟩
    unfold wrapperComplete at h
    split at h
    · dsimp only at h
      split at h
      · refine done (key (fun u hu => ?_) h)
        obtain ⟨p, -, hu⟩ := withRead_next_iff.1 hu
        cases hu
        rfl
      · split at h
        · exact done (key hf h)
        · exact done (key hf h)
    · cases h; exact .inr (.inl rfl)

/-! ### Fields through a completion -/

theorem OnlyCompletes.busy {s t : State} (h : OnlyCompletes s t) : t.busy = false := by
  unfold OnlyCompletes at h; rw [h]
theorem OnlyCompletes.txnState {s t : State} (h : OnlyCompletes s t) : t.txnState = s.txnState := by
  unfold OnlyCompletes at h; rw [h]
theorem OnlyCompletes.rxbuf {s t : State} (h : OnlyCompletes s t) : t.rxbuf = s.rxbuf := by
  unfold OnlyCompletes at h; rw [h]
theorem OnlyCompletes.txbuf {s t : State} (h : OnlyCompletes s t) : t.txbuf = s.txbuf := by
  unfold OnlyCompletes at h; rw [h]
theorem OnlyCompletes.params {s t : State} (h : OnlyCompletes s t) : t.params = s.params := by
  unfold OnlyCompletes at h; rw [h]
theorem OnlyCompletes.rxLen {s t : State} (h : OnlyCompletes s t) : t.rxLen = s.rxLen := by
  unfold OnlyCompletes at h; rw [h]
theorem OnlyCompletes.expLen {s t : State} (h : OnlyCompletes s t) : t.expLen = s.expLen := by
  unfold OnlyCompletes at h; rw [h]
theorem OnlyCompletes.m {s t : State} (h : OnlyCompletes s t) : t.m = s.m := by
  unfold OnlyCompletes at h; rw [h]
theorem OnlyCompletes.dir {s t : State} (h : OnlyCompletes s t) : t.dir = s.dir := by
  unfold OnlyCompletes at h; rw [h]
theorem OnlyCompletes.pend {s t : State} (h : OnlyCompletes s t) : t.pend = s.pend := by
  unfold OnlyCompletes at h; rw [h]
theorem OnlyCompletes.curSlave {s t : State} (h : OnlyCompletes s t) : t.curSlave = s.curSlave := by
  unfold OnlyCompletes at h; rw [h]

/-! ### The frame in TXBUF and the start of a transmission -/

@[simp] theorem frame_length (slave fc : Byte) (start qty : Half) :
    (frame slave fc start qty).length = 8 := rfl

/-- After `build_step`, TXBUF reads as the frame. -/
theorem read_buildStep (slave fc : Byte) (start qty : Half) (s : State) (k : Nat) :
    Memory.read (buildStep slave fc start qty s).txbuf k =
      if k < 8 then (frame slave fc start qty)[k]? else Memory.read s.txbuf k := by
  simp [read_writeList]

theorem txReadList_buildStep (slave fc : Byte) (start qty : Half) (s : State) :
    txReadList (buildStep slave fc start qty s) 0 8 = .ok (frame slave fc start qty) := by
  have := txReadList_eq (s := buildStep slave fc start qty s) (i := 0)
    (bs := frame slave fc start qty) (fun k hk => by
      rw [Nat.zero_add, read_buildStep]; simp at hk; simp [hk])
  simpa using this

/-- `sendFrame` goes on exactly when TXBUF is written. -/
theorem sendFrame_next_iff {s t : State} :
    sendFrame s = .next t ↔
      ∃ f, txReadList s 0 8 = .ok f ∧ t = { lineWrite f s with txnState := .txSending } := by
  simp only [sendFrame, withRead_next_iff, Config.txCap, Host.Outcome.next.injEq]
  exact exists_congr fun _ => and_congr_right fun _ => eq_comm

/-- What a transaction's accepting step does: the session reset, the frame built, and the
transmission begun, with or without a direction output. It always goes on. -/
theorem startTransaction_eq (slave fc : Byte) (start qty : Half) (s : State) :
    startTransaction slave fc start qty s =
      let b := buildStep slave fc start qty { s with m := 0, rxLen := 0#16 }
      if s.params.dirPresent then
        .next { setDir s.params.dirTxLevel b with tMark := s.now, txnState := .txSettlePre }
      else .next { lineWrite (frame slave fc start qty) b with txnState := .txSending } := by
  by_cases h : s.params.dirPresent = true
  · simp [startTransaction, startTx, h]
  · simp [startTransaction, startTx, h, sendFrame, Config.txCap, txReadList_buildStep]

/-! ### Byte order -/

@[simp] theorem le16_lo8_hi8 (c : Half) : le16 (lo8 c) (hi8 c) = c := by
  ext i hi
  simp [le16, lo8, hi8]
  by_cases h : i < 8
  · simp [h, BitVec.getLsbD_eq_getElem hi]
  · have : 8 + (i - 8) = i := by omega
    simp [h, this, BitVec.getLsbD_eq_getElem hi]
    omega

@[simp] theorem lo8_le16 (lo hi : Byte) : lo8 (le16 lo hi) = lo := by
  ext i h
  simp [le16, lo8, h]
  omega

@[simp] theorem hi8_le16 (lo hi : Byte) : hi8 (le16 lo hi) = hi := by
  ext i h
  have h1 : 8 + i < 16 := by omega
  simp [le16, hi8, h1, BitVec.getLsbD_eq_getElem h]

/-! ### The CRC function -/

theorem crc16_append (xs ys : List Byte) : crc16 (xs ++ ys) = ys.foldl crcStep (crc16 xs) := by
  simp [crc16]

/-! ### The next move -/

theorem nextMove_of_cons {s : State} {mv : Move} {rest : List Move} (h : s.moves = mv :: rest) :
    nextMove s = (mv, { s with moves := rest }) := by
  simp [nextMove, h]

/-- A step is the next move, run on the state without it. -/
theorem step_of_cons {s : State} {mv : Move} {rest : List Move}
    (hc : 512 ≤ s.params.rxCap) (h : s.moves = mv :: rest) :
    step s = runMove mv { s with moves := rest } := by
  have : ¬ s.params.rxCap < Config.rxCapMin := by simp only [Config.rxCapMin]; omega
  simp [step, this, nextMove_of_cons h]

/-- A step that goes on ran its next move on a machine with a legal RX_CAP. -/
theorem step_next_iff {s t : State} :
    step s = .next t ↔
      Config.rxCapMin ≤ s.params.rxCap ∧ runMove (nextMove s).1 (nextMove s).2 = .next t := by
  unfold step
  by_cases h : s.params.rxCap < Config.rxCapMin
  · simp [h]
  · simp [h, Nat.le_of_not_lt h]

end Machine
end Sys2Proof
end

