-- ==== Sys2Proof/Laws/PerInstr.lean ====
section
/-! SUPPORT. Per-instruction facts: every command's word has the fixed bits of its row of the opcode
map (30_encoding.md R84, R85, R89). -/

namespace Sys2Proof.Laws.FitsItsTableRow

/-- The word of `i` has the OP of a row of the opcode map, and that row's fixed bits. -/
def Statement (i : Instr) : Prop :=
  ∃ row, findRow (fieldOp (encode i)) opTable = some row ∧
    encode i &&& row.format.mask = row.op.setWidth 64

theorem crcReset : Statement .crcReset := ⟨⟨1, .N⟩, by decide, by decide⟩

theorem crcFeed (b : Byte) : Statement (.crcFeed b) :=
  ⟨⟨2, .BY⟩, by simp only [fieldOp_encode]; rfl, by
    simp [encode, Instr.op, mask_BY, packWord_and_mask]
    decide⟩

theorem crcRead : Statement .crcRead := ⟨⟨3, .N⟩, by decide, by decide⟩

theorem buildRequest (slave fc : Byte) (start qty : Half) :
    Statement (.buildRequest slave fc start qty) :=
  ⟨⟨0x10, .RQ⟩, by simp only [fieldOp_encode]; rfl, by
    simp [encode, Instr.op, mask_RQ, packWord_and_mask]
    decide⟩

theorem requestFrom (slave fc : Byte) (start qty : Half) :
    Statement (.requestFrom slave fc start qty) :=
  ⟨⟨0x20, .RQ⟩, by simp only [fieldOp_encode]; rfl, by
    simp [encode, Instr.op, mask_RQ, packWord_and_mask]
    decide⟩

theorem setTimeout (ms : Word) : Statement (.setTimeout ms) :=
  ⟨⟨0x21, .TM⟩, by simp only [fieldOp_encode]; rfl, by
    simp [encode, Instr.op, mask_TM, packTimeout_eq_packWord, packWord_and_mask]
    decide⟩

theorem decBit (index bit : Half) : Statement (.decBit index bit) :=
  ⟨⟨0x30, .BT⟩, by simp only [fieldOp_encode]; rfl, by
    simp [encode, Instr.op, mask_BT, packWord_and_mask]
    decide⟩

theorem decByte (index : Half) : Statement (.decByte index) :=
  ⟨⟨0x31, .IX⟩, by simp only [fieldOp_encode]; rfl, by
    simp [encode, Instr.op, mask_IX, packWord_and_mask]
    decide⟩

theorem decWord16 (signed : Bool) (reg : Half) : Statement (.decWord16 signed reg) :=
  ⟨⟨0x32, .D16⟩, by simp only [fieldOp_encode]; rfl, by
    simp [encode, Instr.op, mask_D16, packWord_and_mask,
      packFlags_and_D16]
    decide⟩

theorem decDword32 (signed highFirst : Bool) (reg : Half) :
    Statement (.decDword32 signed highFirst reg) :=
  ⟨⟨0x33, .D32⟩, by simp only [fieldOp_encode]; rfl, by
    simp [encode, Instr.op, mask_D32, packWord_and_mask,
      packFlags_and_D32]
    decide⟩

theorem coilRead (dflt : Bool) (slave : Byte) (addr : Half) :
    Statement (.coilRead dflt slave addr) :=
  ⟨⟨0x40, .W1⟩, by simp only [fieldOp_encode]; rfl, by
    simp [encode, Instr.op, mask_W1, packWord_and_mask, packFlags_and_W1]
    decide⟩

theorem discreteInputRead (dflt : Bool) (slave : Byte) (addr : Half) :
    Statement (.discreteInputRead dflt slave addr) :=
  ⟨⟨0x41, .W1⟩, by simp only [fieldOp_encode]; rfl, by
    simp [encode, Instr.op, mask_W1, packWord_and_mask, packFlags_and_W1]
    decide⟩

theorem holdingRegisterRead (signed highFirst dflt : Bool) (slave : Byte) (addr blocks : Half) :
    Statement (.holdingRegisterRead signed highFirst dflt slave addr blocks) :=
  ⟨⟨0x42, .W2⟩, by simp only [fieldOp_encode]; rfl, by
    simp [encode, Instr.op, mask_W2, packWord_and_mask, packFlags_and_W2]
    decide⟩

theorem inputRegisterRead (signed highFirst dflt : Bool) (slave : Byte) (addr blocks : Half) :
    Statement (.inputRegisterRead signed highFirst dflt slave addr blocks) :=
  ⟨⟨0x43, .W2⟩, by simp only [fieldOp_encode]; rfl, by
    simp [encode, Instr.op, mask_W2, packWord_and_mask, packFlags_and_W2]
    decide⟩

theorem readTxbuf (index : Half) : Statement (.readTxbuf index) :=
  ⟨⟨0x50, .IX⟩, by simp only [fieldOp_encode]; rfl, by
    simp [encode, Instr.op, mask_IX, packWord_and_mask]
    decide⟩

theorem readRxbuf (index : Half) : Statement (.readRxbuf index) :=
  ⟨⟨0x51, .IX⟩, by simp only [fieldOp_encode]; rfl, by
    simp [encode, Instr.op, mask_IX, packWord_and_mask]
    decide⟩

theorem readRxlen : Statement .readRxlen := ⟨⟨0x52, .N⟩, by decide, by decide⟩

theorem readState : Statement .readState := ⟨⟨0x53, .N⟩, by decide, by decide⟩

theorem readCurSlave : Statement .readCurSlave := ⟨⟨0x54, .N⟩, by decide, by decide⟩

theorem readTimeout : Statement .readTimeout := ⟨⟨0x55, .N⟩, by decide, by decide⟩

end Sys2Proof.Laws.FitsItsTableRow
end

