-- ==== Sys2Proof/Laws/Steps.lean ====
section
/-! SUPPORT. Everything a command, an engine step and a move can do, said once each; what a run of
several steps does. Proofs about every step cite these and unfold nothing. -/

namespace Sys2Proof
namespace Machine

/-! ### Small facts -/

/-- The settling delay of 1 ms is over as soon as the clock has moved. -/
theorem settled_iff (s : State) : settled s = true ↔ s.now ≠ s.tMark := by
  refine decide_eq_true_iff.trans ?_
  simp only [elapsed, Config.settleMs]
  constructor
  · intro h he
    rw [he] at h
    simp at h
  · intro h
    rcases Nat.eq_zero_or_pos (s.now - s.tMark).toNat with h0 | h0
    · have hz : s.now - s.tMark = 0#32 := BitVec.eq_of_toNat_eq (by simpa using h0)
      exact absurd (by simpa using BitVec.sub_eq_iff_eq_add.1 hz) h
    · exact h0

/-- The clamp of the block count is the minimum with 2. -/
theorem clampBlocks_eq (b : Half) : clampBlocks b = BitVec.ofNat 16 (min b.toNat 2) := by
  unfold clampBlocks Config.maxBlocks
  split
  · rw [min_eq_right (by omega)]
  · rw [min_eq_left (by omega)]; simp

theorem clampBlocks_eq_one_iff (b : Half) : clampBlocks b = 1#16 ↔ min b.toNat 2 = 1 := by
  rw [clampBlocks_eq, ← BitVec.toNat_inj]
  simp
  omega

/-- The accepting step of a transaction always goes on, and starts it. -/
theorem startTransaction_started (slave fc : Byte) (start qty : Half) (s : State) :
    ∃ t, startTransaction slave fc start qty s = .next t ∧
      StartedTransaction slave fc start qty s t := by
  rw [startTransaction_eq]
  by_cases h : s.params.dirPresent = true
  · refine ⟨_, if_pos h, fun k => ?_, ?_⟩
    · simpa using read_buildStep slave fc start qty { s with m := 0, rxLen := 0#16 } k
    · simp [h, setDir, buildStep]
  · refine ⟨_, if_neg h, fun k => ?_, ?_⟩
    · simpa using read_buildStep slave fc start qty { s with m := 0, rxLen := 0#16 } k
    · simp [h, buildStep, lineWrite]

/-! What the start of a transaction leaves unchanged, and what it sets. -/

section
variable {slave fc : Byte} {start qty : Half} {s t : State}

theorem StartedTransaction.cases (h : StartedTransaction slave fc start qty s t) :
    (s.params.dirPresent = true ∧ t =
      { s with m := 0, rxLen := 0#16, txbuf := t.txbuf, curSlave := slave,
               dir := s.params.dirTxLevel, tMark := s.now, txnState := .txSettlePre }) ∨
    (s.params.dirPresent = false ∧ t =
      { s with m := 0, rxLen := 0#16, txbuf := t.txbuf, curSlave := slave,
               outq := s.outq ++ frame slave fc start qty, txnState := .txSending }) := by
  have h := h.2
  by_cases hd : s.params.dirPresent = true
  · rw [if_pos hd] at h; exact .inl ⟨hd, h⟩
  · rw [if_neg hd] at h; exact .inr ⟨by simpa using hd, h⟩

theorem StartedTransaction.params (h : StartedTransaction slave fc start qty s t) :
    t.params = s.params := by
  rcases h.cases with ⟨-, h⟩ | ⟨-, h⟩ <;> rw [h]
theorem StartedTransaction.busy (h : StartedTransaction slave fc start qty s t) :
    t.busy = s.busy := by
  rcases h.cases with ⟨-, h⟩ | ⟨-, h⟩ <;> rw [h]
theorem StartedTransaction.cmdStatus (h : StartedTransaction slave fc start qty s t) :
    t.cmdStatus = s.cmdStatus := by
  rcases h.cases with ⟨-, h⟩ | ⟨-, h⟩ <;> rw [h]
theorem StartedTransaction.result (h : StartedTransaction slave fc start qty s t) :
    t.result = s.result := by
  rcases h.cases with ⟨-, h⟩ | ⟨-, h⟩ <;> rw [h]
theorem StartedTransaction.timeoutMs (h : StartedTransaction slave fc start qty s t) :
    t.timeoutMs = s.timeoutMs := by
  rcases h.cases with ⟨-, h⟩ | ⟨-, h⟩ <;> rw [h]
theorem StartedTransaction.expLen (h : StartedTransaction slave fc start qty s t) :
    t.expLen = s.expLen := by
  rcases h.cases with ⟨-, h⟩ | ⟨-, h⟩ <;> rw [h]
theorem StartedTransaction.tLast (h : StartedTransaction slave fc start qty s t) :
    t.tLast = s.tLast := by
  rcases h.cases with ⟨-, h⟩ | ⟨-, h⟩ <;> rw [h]
theorem StartedTransaction.pend (h : StartedTransaction slave fc start qty s t) :
    t.pend = s.pend := by
  rcases h.cases with ⟨-, h⟩ | ⟨-, h⟩ <;> rw [h]
theorem StartedTransaction.rxbuf (h : StartedTransaction slave fc start qty s t) :
    t.rxbuf = s.rxbuf := by
  rcases h.cases with ⟨-, h⟩ | ⟨-, h⟩ <;> rw [h]
theorem StartedTransaction.crcAcc (h : StartedTransaction slave fc start qty s t) :
    t.crcAcc = s.crcAcc := by
  rcases h.cases with ⟨-, h⟩ | ⟨-, h⟩ <;> rw [h]
theorem StartedTransaction.now (h : StartedTransaction slave fc start qty s t) :
    t.now = s.now := by
  rcases h.cases with ⟨-, h⟩ | ⟨-, h⟩ <;> rw [h]
theorem StartedTransaction.inq (h : StartedTransaction slave fc start qty s t) :
    t.inq = s.inq := by
  rcases h.cases with ⟨-, h⟩ | ⟨-, h⟩ <;> rw [h]
theorem StartedTransaction.wireTx (h : StartedTransaction slave fc start qty s t) :
    t.wireTx = s.wireTx := by
  rcases h.cases with ⟨-, h⟩ | ⟨-, h⟩ <;> rw [h]
theorem StartedTransaction.moves (h : StartedTransaction slave fc start qty s t) :
    t.moves = s.moves := by
  rcases h.cases with ⟨-, h⟩ | ⟨-, h⟩ <;> rw [h]
theorem StartedTransaction.moveIdx (h : StartedTransaction slave fc start qty s t) :
    t.moveIdx = s.moveIdx := by
  rcases h.cases with ⟨-, h⟩ | ⟨-, h⟩ <;> rw [h]
theorem StartedTransaction.freeIdx (h : StartedTransaction slave fc start qty s t) :
    t.freeIdx = s.freeIdx := by
  rcases h.cases with ⟨-, h⟩ | ⟨-, h⟩ <;> rw [h]
theorem StartedTransaction.dutyViolated (h : StartedTransaction slave fc start qty s t) :
    t.dutyViolated = s.dutyViolated := by
  rcases h.cases with ⟨-, h⟩ | ⟨-, h⟩ <;> rw [h]
theorem StartedTransaction.m (h : StartedTransaction slave fc start qty s t) : t.m = 0 := by
  rcases h.cases with ⟨-, h⟩ | ⟨-, h⟩ <;> rw [h]
theorem StartedTransaction.rxLen (h : StartedTransaction slave fc start qty s t) :
    t.rxLen = 0#16 := by
  rcases h.cases with ⟨-, h⟩ | ⟨-, h⟩ <;> rw [h]
theorem StartedTransaction.curSlave (h : StartedTransaction slave fc start qty s t) :
    t.curSlave = slave := by
  rcases h.cases with ⟨-, h⟩ | ⟨-, h⟩ <;> rw [h]
theorem StartedTransaction.read_txbuf (h : StartedTransaction slave fc start qty s t) {k : Nat}
    (hk : k < 8) : Memory.read t.txbuf k = (frame slave fc start qty)[k]? := by
  rw [h.1, if_pos hk]

end

/-- `startTransaction` answers the started transaction. -/
theorem started_of_next {slave fc : Byte} {start qty : Half} {s t : State}
    (h : startTransaction slave fc start qty s = .next t) :
    StartedTransaction slave fc start qty s t := by
  obtain ⟨u, hu, hs⟩ := startTransaction_started slave fc start qty s
  rw [hu] at h
  cases h
  exact hs

/-! ### What a command can do -/

/-- Every way a command's accepting step can go on. -/
inductive ExecTo (i : Instr) (s : State) : State → Prop where
  /-- It completes and writes nothing else. -/
  | completes {t : State} (h : OnlyCompletes s t) (hs : mayEndWith i t.cmdStatus = true) :
      ExecTo i s t
  /-- CRC_RESET -/
  | crcReset (hi : i = .crcReset) : ExecTo i s (finish 0x0000FFFF#32 { s with crcAcc := 0xFFFF#16 })
  /-- CRC_FEED -/
  | crcFeed {b : Byte} (hi : i = .crcFeed b) :
      ExecTo i s (finish ((crcStep s.crcAcc b).setWidth 32) { s with crcAcc := crcStep s.crcAcc b })
  /-- BUILD_REQUEST of a supported function code -/
  | builds {slave fc : Byte} {start qty : Half} (hi : i = .buildRequest slave fc start qty)
      (hf : supported fc = true) :
      ExecTo i s
        (finish ((frameCrc slave fc start qty).setWidth 32) (buildStep slave fc start qty s))
  /-- SET_TIMEOUT -/
  | setsTimeout {ms : Word} (hi : i = .setTimeout ms) :
      ExecTo i s (finish ms { s with timeoutMs := ms })
  /-- REQUEST_FROM of an unsupported function code -/
  | unsupported {slave fc : Byte} {start qty : Half} (hi : i = .requestFrom slave fc start qty)
      (hf : supported fc = false) :
      ExecTo i s (raise .unsupportedFunction minusOne { s with txnState := .idle })
  /-- A transaction starts. -/
  | starts {slave fc : Byte} {start qty : Half} {t : State}
      (hi : requestOf i = some (fc, start, qty))
      (h : startTransaction slave fc start qty s = .next t) : ExecTo i s t

theorem execDecoder_cases {i : Instr} {first n : Nat} {s t : State} {k : Result}
    (hp : mayEndWith i .decodePrecondition = true)
    (hk : ∀ t, k = .next t → OnlyCompletes s t ∧ t.cmdStatus = .ok)
    (hok : mayEndWith i .ok = true) (h : require first n s k = .next t) : ExecTo i s t := by
  rcases require_next_iff.1 h with ⟨-, bc, -, ⟨-, h⟩ | ⟨-, rfl⟩⟩ | ⟨-, rfl⟩
  · obtain ⟨h1, h2⟩ := hk t h
    exact .completes h1 (h2 ▸ hok)
  · exact .completes (onlyCompletes_raiseFree _ _) hp
  · exact .completes (onlyCompletes_raiseFree _ _) hp

theorem finishRead_ok {v : Except Fault Word} {s t : State} (h : finishRead v s = .next t) :
    OnlyCompletes s t ∧ t.cmdStatus = .ok := by
  obtain ⟨w, -, rfl⟩ := finishRead_next_iff.1 h
  exact ⟨rfl, rfl⟩

theorem withRead_finish_ok {α : Type} {v : Except Fault α} {f : α → Word} {s t : State}
    (h : (withRead v fun a => .next (finish (f a) s)) = .next t) :
    OnlyCompletes s t ∧ t.cmdStatus = .ok := by
  obtain ⟨w, -, h⟩ := withRead_next_iff.1 h
  cases h
  exact ⟨rfl, rfl⟩

theorem execTo_of_next {i : Instr} {s t : State} (h : exec i s = .next t) : ExecTo i s t := by
  cases i with
  | crcReset => cases h; exact .crcReset rfl
  | crcFeed b => cases h; exact .crcFeed rfl
  | crcRead => cases h; exact .completes rfl rfl
  | buildRequest slave fc start qty =>
    simp only [exec, execBuildRequest] at h
    split at h
    · rename_i hf; cases h; exact .builds rfl hf
    · cases h; exact .completes rfl rfl
  | requestFrom slave fc start qty =>
    simp only [exec, execRequestFrom] at h
    split at h
    · rename_i hf; exact .starts (by simp [requestOf, hf]) h
    · rename_i hf; cases h; exact .unsupported rfl (by simpa using hf)
  | setTimeout ms => cases h; exact .setsTimeout rfl
  | decBit index bit =>
    simp only [exec, execDecBit] at h
    split at h
    · cases h; exact .completes rfl rfl
    · exact execDecoder_cases rfl (fun _ => withRead_finish_ok) rfl h
  | decByte index => exact execDecoder_cases rfl (fun _ => withRead_finish_ok) rfl h
  | decWord16 signed reg => exact execDecoder_cases rfl (fun _ => finishRead_ok) rfl h
  | decDword32 signed high reg => exact execDecoder_cases rfl (fun _ => finishRead_ok) rfl h
  | coilRead dflt slave addr => exact .starts rfl h
  | discreteInputRead dflt slave addr => exact .starts rfl h
  | holdingRegisterRead signed high dflt slave addr blocks =>
    simp only [exec, execHoldingRegisterRead, startRegisterRead] at h
    split at h
    · cases h; exact .completes rfl rfl
    · rename_i hb; exact .starts (by simp only [requestOf, if_neg hb]) h
  | inputRegisterRead signed high dflt slave addr blocks =>
    simp only [exec, execInputRegisterRead, startRegisterRead] at h
    split at h
    · cases h; exact .completes rfl rfl
    · rename_i hb; exact .starts (by simp only [requestOf, if_neg hb]) h
  | readTxbuf index =>
    simp only [exec, execReadTxbuf] at h
    split at h
    · cases h; exact .completes rfl rfl
    · obtain ⟨h1, h2⟩ := withRead_finish_ok h
      exact .completes h1 (h2 ▸ rfl)
  | readRxbuf index =>
    simp only [exec, execReadRxbuf] at h
    split at h
    · cases h; exact .completes rfl rfl
    · obtain ⟨h1, h2⟩ := withRead_finish_ok h
      exact .completes h1 (h2 ▸ rfl)
  | readRxlen => cases h; exact .completes rfl rfl
  | readState => cases h; exact .completes rfl rfl
  | readCurSlave => cases h; exact .completes rfl rfl
  | readTimeout => cases h; exact .completes rfl rfl

/-! ### What a byte taken can do -/

/-- Every way the step that takes a byte can go on; `s` is the state with the byte already off INQ
and T_LAST refreshed. -/
inductive TakeTo (b : Byte) (s : State) : State → Prop where
  /-- The synchronizer's counter moves, and stays below 2. -/
  | searches {p0 p1 : Byte} {n : Fin 3} (hs : s.txnState = .awaitingSync)
      (h0 : Memory.read s.txbuf 0 = some p0) (h1 : Memory.read s.txbuf 1 = some p1)
      (hn : n ≠ 2) : TakeTo b s { s with m := n }
  /-- The prefix is matched. -/
  | synced {p0 p1 : Byte} (hs : s.txnState = .awaitingSync)
      (h0 : Memory.read s.txbuf 0 = some p0) (h1 : Memory.read s.txbuf 1 = some p1)
      (hc : 1 < s.params.rxCap) :
      TakeTo b s { s with
        m := 2, rxbuf := Memory.write (Memory.write s.rxbuf 0 p0) 1 p1, rxLen := 2#16,
        txnState := .headerCaptured }
  /-- The byte count is taken. -/
  | header (hs : s.txnState = .headerCaptured) (hc : 2 < s.params.rxCap) :
      TakeTo b s { s with
        rxbuf := Memory.write s.rxbuf 2 b, rxLen := 3#16, expLen := b.setWidth 9 + 5#9,
        txnState := .accumulating }
  /-- A byte before the last is taken. -/
  | appends (hs : s.txnState = .accumulating) (hc : s.rxLen.toNat < s.params.rxCap)
      (hl : (s.rxLen + 1#16).toNat ≠ s.expLen.toNat) :
      TakeTo b s { s with
        rxbuf := Memory.write s.rxbuf s.rxLen.toNat b, rxLen := s.rxLen + 1#16 }
  /-- The last byte is taken and the frame validated: `u` is the state after the byte, the frame is
  `body`, `lo`, `hi`, and the transaction completes. -/
  | validates {u t : State} {body : List Byte} {lo hi : Byte} (hs : s.txnState = .accumulating)
      (hc : s.rxLen.toNat < s.params.rxCap) (hl : (s.rxLen + 1#16).toNat = s.expLen.toNat)
      (hu : u = { s with
        rxbuf := Memory.write s.rxbuf s.rxLen.toNat b, rxLen := s.rxLen + 1#16 })
      (h2 : 2 ≤ u.rxLen.toNat) (hb : rxReadList u 0 (u.rxLen.toNat - 2) = .ok body)
      (hlo : Memory.read u.rxbuf (u.rxLen.toNat - 2) = some lo)
      (hhi : Memory.read u.rxbuf (u.rxLen.toNat - 1) = some hi)
      (h : completeTxn { u with
        txnState := if crc16 body = le16 lo hi then .complete else .crcError } = .next t) :
      TakeTo b s t

theorem takeTo_of_next {b : Byte} {s t : State} (hr : s.txnState.receiving = true)
    (h : takeByte b s = .next t) : TakeTo b s t := by
  unfold takeByte at h
  cases hs : s.txnState <;> rw [hs] at h hr <;> simp only [TxnState.receiving] at hr <;>
    try cases hr
  · simp only [syncStep, withRead_next_iff, txRead_ok_iff] at h
    obtain ⟨p0, h0, p1, h1, h⟩ := h
    split at h
    · split at h
      · cases h; exact .searches hs h0 h1 (by decide)
      · cases h; exact .searches hs h0 h1 (by decide)
    · split at h
      · simp only [captureHeader, andThen_next_iff, storeRx_next_iff] at h
        obtain ⟨u, ⟨-, rfl⟩, v, ⟨hc, rfl⟩, h⟩ := h
        cases h
        exact .synced hs h0 h1 hc
      · split at h
        · cases h; exact .searches hs h0 h1 (by decide)
        · cases h; exact .searches hs h0 h1 (by decide)
    · cases h
  · simp only [headerStep, andThen_next_iff, storeRx_next_iff] at h
    obtain ⟨u, ⟨hc, rfl⟩, h⟩ := h
    cases h
    exact .header hs hc
  · simp only [accumulateStep, andThen_next_iff, storeRx_next_iff] at h
    obtain ⟨u, ⟨hc, rfl⟩, h⟩ := h
    split at h
    · rename_i hl
      unfold validate at h
      dsimp only at h
      split at h
      · cases h
      · rename_i h2
        simp only [withRead_next_iff, rxRead_ok_iff] at h
        obtain ⟨body, hb, lo, hlo, hi, hhi, h⟩ := h
        exact .validates hs hc hl rfl (Nat.le_of_not_lt h2) hb hlo hhi h
    · rename_i hl
      cases h
      exact .appends hs hc hl

/-! ### What an engine step can do -/

/-- Every way an engine step can go on. -/
inductive EngineTo (s : State) : State → Prop where
  /-- No step is enabled (log 2). -/
  | waits : EngineTo s s
  /-- The frame is written to the line. -/
  | sends {f : List Byte} (hs : s.txnState = .txSettlePre) (hf : txReadList s 0 8 = .ok f) :
      EngineTo s { s with outq := s.outq ++ f, txnState := .txSending }
  /-- The frame is out, and the second settling delay begins. -/
  | settles (hs : s.txnState = .txSending) (ho : s.outq = []) (hd : s.params.dirPresent = true) :
      EngineTo s { s with tMark := s.now, txnState := .txSettlePost }
  /-- The frame is out, and there is no direction output. -/
  | listens (hs : s.txnState = .txSending) (ho : s.outq = []) (hd : s.params.dirPresent = false) :
      EngineTo s (beginReceive s)
  /-- The second settling delay is over. -/
  | turns (hs : s.txnState = .txSettlePost) :
      EngineTo s (beginReceive (setDir s.params.dirRxLevel s))
  /-- The timeout has elapsed. -/
  | timesOut (hr : s.txnState.receiving = true) (ht : timeoutElapsed s = true) :
      EngineTo s (raise .transactionFailed minusOne { s with txnState := .timedOut })
  /-- A byte is taken. -/
  | takes {b : Byte} {rest : List Byte} {t : State} (hr : s.txnState.receiving = true)
      (hq : s.inq = b :: rest) (ht : timeoutElapsed s = false)
      (h : TakeTo b { s with inq := rest, tLast := s.now } t) : EngineTo s t

theorem engineTo_of_receiveStep {s t : State} (hr : s.txnState.receiving = true)
    (h : receiveStep s = .next t) : EngineTo s t := by
  unfold receiveStep at h
  split at h
  · rename_i ht
    rw [completeTxn_failed (by simp)] at h
    cases h
    exact .timesOut hr ht
  · rename_i ht
    split at h
    · rename_i b rest hq
      exact .takes hr hq (by simpa using ht) (takeTo_of_next (s := { s with inq := rest, tLast := s.now }) hr h)
    · cases h; exact .waits

theorem engineTo_of_next {s t : State} (h : engineStep s = .next t) : EngineTo s t := by
  unfold engineStep at h
  split at h <;> rename_i hs
  · unfold txSettlePreStep at h
    split at h
    · obtain ⟨f, hf, rfl⟩ := sendFrame_next_iff.1 h
      exact .sends hs hf
    · cases h; exact .waits
  · simp only [txSendingStep, lineDrained, List.isEmpty_iff] at h
    split at h
    · split at h
      · cases h; exact .settles hs ‹_› ‹_›
      · rename_i hd; cases h; exact .listens hs ‹_› (by simpa using hd)
    · cases h; exact .waits
  · unfold txSettlePostStep at h
    split at h
    · cases h; exact .turns hs
    · cases h; exact .waits
  · exact engineTo_of_receiveStep (by rw [hs]; rfl) h
  · exact engineTo_of_receiveStep (by rw [hs]; rfl) h
  · exact engineTo_of_receiveStep (by rw [hs]; rfl) h
  all_goals (cases h; exact .waits)

/-- In a receiving state, before the timeout, the engine takes the byte at the front of INQ. -/
theorem engineStep_takes {s : State} {b : Byte} {rest : List Byte} (h : takesByte s b rest)
    (hr : s.txnState.receiving = true) :
    engineStep s = takeByte b { s with inq := rest, tLast := s.now } := by
  have ht : timeoutElapsed s = false := decide_eq_false (Nat.not_le.2 h.2)
  have hrs : receiveStep s = takeByte b { s with inq := rest, tLast := s.now } := by
    simp [receiveStep, ht, h.1]
  rw [← hrs]
  unfold engineStep
  split <;> rename_i hs <;> rw [hs] at hr <;> first | rfl | cases hr

/-! ### What a host write and a step can do -/

/-- Every way the host's write can go on. -/
inductive HostTo (cw : CmdWord) (s : State) : State → Prop where
  /-- Refused while BUSY = 1. -/
  | busy (hb : s.busy = true) : HostTo cw s { s with dutyViolated := true }
  /-- No command. -/
  | malformed {r : Reject} (hb : s.busy = false) (hd : decode cw = .error r) :
      HostTo cw s (raiseFree .illegalCommand (accept cw s))
  /-- A command. -/
  | runs {i : Instr} {t : State} (hb : s.busy = false) (hd : decode cw = .ok i)
      (h : ExecTo i (accept cw s) t) : HostTo cw s t

theorem hostTo_of_next {cw : CmdWord} {s t : State} (h : hostWrite cw s = .next t) :
    HostTo cw s t := by
  unfold hostWrite at h
  split at h
  · cases h; exact .busy ‹_›
  · rename_i hb
    have hb' : s.busy = false := by simpa using hb
    split at h
    · exact .runs hb' ‹_› (execTo_of_next h)
    · cases h; exact .malformed hb' ‹_›

/-- Taking the next move off changes the model's schedule and nothing else. -/
theorem nextMove_state (s : State) :
    (nextMove s).2 = { s with moves := (nextMove s).2.moves, moveIdx := (nextMove s).2.moveIdx } := by
  unfold nextMove
  split <;> rfl

/-- The state with the next move taken off, as a record update. -/
theorem eq_of_nextMove {s u : State} (hu : u = (nextMove s).2) :
    ∃ ms mi, u = { s with moves := ms, moveIdx := mi } :=
  ⟨_, _, hu.trans (nextMove_state s)⟩

/-- `line_send` moves the oldest byte, or nothing. -/
theorem lineSend_cases (s : State) :
    (s.outq = [] ∧ lineSend s = s) ∨
      ∃ b rest, s.outq = b :: rest ∧
        lineSend s = { s with outq := rest, wireTx := s.wireTx ++ [b] } := by
  unfold lineSend
  split
  · exact .inl ⟨‹_›, rfl⟩
  · exact .inr ⟨_, _, ‹_›, rfl⟩

/-- Every way a step can go on: one case for each agent's move, and four for the host's. A property
of the next state holds if it holds in each. -/
theorem step_next_induction {s t : State} {P : State → Prop} (h : step s = .next t)
    (busy : ∀ cw u, (nextMove s).1 = .host cw → u = (nextMove s).2 → u.busy = true →
      P { u with dutyViolated := true })
    (malformed : ∀ cw u r, (nextMove s).1 = .host cw → u = (nextMove s).2 → u.busy = false →
      decode cw = .error r → P (raiseFree .illegalCommand (accept cw u)))
    (runs : ∀ cw u i v, (nextMove s).1 = .host cw → u = (nextMove s).2 → u.busy = false →
      decode cw = .ok i → acceptedNext s = some i → ExecTo i (accept cw u) v → P v)
    (engine : ∀ u v, (nextMove s).1 = .engine → u = (nextMove s).2 → EngineTo u v → P v)
    (deliver : ∀ u b, (nextMove s).1 = .deliver b → u = (nextMove s).2 → P (lineDeliver b u))
    (send : ∀ u, (nextMove s).1 = .send → u = (nextMove s).2 → P (lineSend u))
    (tick : ∀ u, (nextMove s).1 = .tick → u = (nextMove s).2 → P (clockStep u))
    (reset : ∀ u, (nextMove s).1 = .reset → u = (nextMove s).2 → P (engineReset u)) : P t := by
  have h := (step_next_iff.1 h).2
  cases hn : (nextMove s).1 <;> rw [hn] at h
  · rename_i cw
    cases hostTo_of_next h with
    | busy hb => exact busy _ _ hn rfl hb
    | malformed hb hd => exact malformed _ _ _ hn rfl hb hd
    | runs hb hd he =>
      refine runs _ _ _ _ hn rfl hb hd ?_ he
      have : s.busy = false := by rw [nextMove_state] at hb; exact hb
      simp [acceptedNext, hn, this, hd, Except.toOption]
  · exact engine _ _ hn rfl (engineTo_of_next h)
  · cases h; exact deliver _ _ hn rfl
  · cases h; exact send _ hn rfl
  · cases h; exact tick _ hn rfl
  · cases h; exact reset _ hn rfl

/-! ### Runs -/

theorem core_run_succ (M : Host.Core) {s t : M.State} (h : M.step s = .next t) (k : Nat) :
    M.run (k + 1) s = M.run k t := by
  simp only [Host.Core.run, h]

/-- A run's first step. -/
theorem run_succ {s t : State} (h : step s = .next t) (k : Nat) :
    Host.Core.run Sys2Proof.core (k + 1) s = Host.Core.run Sys2Proof.core k t :=
  core_run_succ Sys2Proof.core h k

theorem core_run_add (M : Host.Core) (j k : Nat) {s t : M.State} (h : M.run j s = .next t) :
    M.run (j + k) s = M.run k t := by
  induction j generalizing s with
  | zero =>
    simp only [Host.Core.run, Host.Outcome.next.injEq] at h
    simp [h]
  | succ j ih =>
    rw [Nat.succ_add]
    simp only [Host.Core.run] at h ⊢
    cases hs : M.step s with
    | next u => rw [hs] at h; exact ih h
    | fault f => rw [hs] at h; cases h
    | refused f => rw [hs] at h; cases h

/-- Two runs, one after the other. -/
theorem run_add (j k : Nat) {s t : State} (h : Host.Core.run Sys2Proof.core j s = .next t) :
    Host.Core.run Sys2Proof.core (j + k) s = Host.Core.run Sys2Proof.core k t :=
  core_run_add Sys2Proof.core j k h

end Machine
end Sys2Proof
end

