-- ==== Sys2Proof/Tests/Slice0.lean ====
section
/-! SUPPORT. Tests of single steps against the vectors of 95_test_vectors.md (named in each
docstring), the check of well-formedness, and a witness for the hypotheses of every obligation. -/

namespace Sys2Proof
namespace Tests
open Machine

/-! ### Helpers -/

/-- 95_test_vectors.md section 0: RX_CAP 512, DIR_PRESENT, DIR_TX_LEVEL high; INIT_SLAVE_ID 0. -/
def params : Params := ⟨512, true, .high, 0x00#8⟩

/-- The start state of the vectors. -/
def boot : State := State.powerOn params

/-- The host writes `cw` next. -/
def writing (cw : CmdWord) (s : State) : State := { s with moves := [.host cw] }

/-- The state after a step, if it goes on. -/
def after (r : Result) : Option State :=
  match r with
  | .next t => some t
  | _ => none

/-- The fault of a step, if it faults. -/
def faulted (r : Result) : Option Fault :=
  match r with
  | .fault f => some f
  | _ => none

/-- CMD_STATUS after the host writes `cw`. -/
def status (cw : CmdWord) (s : State) : Option Status := (after (step (writing cw s))).map (·.cmdStatus)

/-- CMD_STATUS and RESULT after the host writes `cw`. -/
def outcome (cw : CmdWord) (s : State) : Option (Status × Word) :=
  (after (step (writing cw s))).map fun t => (t.cmdStatus, t.result)

/-- The bytes of TXBUF after the host writes `cw`. -/
def framed (cw : CmdWord) (s : State) : Option (List Byte) :=
  (after (step (writing cw s))).map fun t => t.txbuf.map (·.2)

/-- CUR_SLAVE is `b`. -/
def slaveIs (b : Byte) (s : State) : State := { s with curSlave := b }

/-- A COMPLETE frame held. -/
def complete (f : List Byte) : State :=
  { boot with
    txnState := .complete, rxbuf := Memory.writeList [] 0 f, rxLen := BitVec.ofNat 16 f.length }

/-- The frame of DC1: payload 12 34 56 78 9A BC DE F0. -/
def dc1 : State :=
  complete [0x01, 0x03, 0x08, 0x12, 0x34, 0x56, 0x78, 0x9A, 0xBC, 0xDE, 0xF0, 0x7A, 0x25]

/-- The request of a command accepted and sent, the receiver just started at NOW = 1000, and these
bytes in INQ. -/
def listening (cw : CmdWord) (f inq : List Byte) : State :=
  { boot with
    busy := true, pend := cw, txbuf := Memory.writeList [] 0 f, curSlave := f.headD 0,
    txnState := .awaitingSync, now := 1000, tLast := 1000, inq := inq }

/-- The same, with the reply but its last byte taken: that byte is in INQ, and the next engine step
completes the transaction. -/
def lastByte (cw : CmdWord) (reply : List Byte) : State :=
  { boot with
    busy := true, pend := cw, txnState := .accumulating, m := 2,
    expLen := BitVec.ofNat 9 reply.length, rxLen := BitVec.ofNat 16 (reply.length - 1),
    rxbuf := Memory.writeList [] 0 reply.dropLast, inq := [reply.getLastD 0], moves := [.engine] }

/-- How the transaction of `cw` ends on this reply: STATE, CMD_STATUS, RESULT. -/
def ended (cw : CmdWord) (reply : List Byte) : Option (TxnState × Status × Word) :=
  (after (step (lastByte cw reply))).map fun t => (t.txnState, t.cmdStatus, t.result)

/-! ### Well-formedness: ill-formed terms are refused (30_encoding.md R83, R88) -/

theorem test_wf_refuses_slave_with_default :
    (Instr.coilRead true 1#8 0#16).wf = false ∧
    (Instr.discreteInputRead true 1#8 0#16).wf = false ∧
    (Instr.holdingRegisterRead false false true 0x80#8 0#16 1#16).wf = false ∧
    (Instr.inputRegisterRead true true true 0xFF#8 0#16 1#16).wf = false := by decide

theorem test_wf_accepts_default_without_slave :
    (Instr.coilRead true 0#8 0#16).wf = true ∧
    (Instr.discreteInputRead false 1#8 0#16).wf = true ∧
    (Instr.holdingRegisterRead false false true 0#8 0#16 1#16).wf = true ∧
    (Instr.inputRegisterRead true true false 0xFF#8 0#16 1#16).wf = true := by decide

/-! ### Decoding: a word for every constructor, written out from 30_encoding.md R80, R83 to R85 -/

theorem test_decode_crc_unit :
    decode 0x0000000000000001 = .ok .crcReset ∧
    decode 0x000000000000A502 = .ok (.crcFeed 0xA5) ∧
    decode 0x0000000000000003 = .ok .crcRead := by decide

theorem test_decode_requests :
    decode 0x0123456789ABCD10 = .error .reservedBits ∧
    decode 0x0123456700ABCD10 = .ok (.buildRequest 0xCD 0xAB 0x4567 0x0123) ∧
    decode 0x0123456700ABCD20 = .ok (.requestFrom 0xCD 0xAB 0x4567 0x0123) ∧
    decode 0x0123456700000021 = .ok (.setTimeout 0x01234567) := by decide

theorem test_decode_decoder :
    decode 0x0123456700000030 = .ok (.decBit 0x4567 0x0123) ∧
    decode 0x0000456700000031 = .ok (.decByte 0x4567) ∧
    decode 0x0000456701000032 = .ok (.decWord16 true 0x4567) ∧
    decode 0x0000456700000032 = .ok (.decWord16 false 0x4567) ∧
    decode 0x0000456702000033 = .ok (.decDword32 false true 0x4567) ∧
    decode 0x0000456701000033 = .ok (.decDword32 true false 0x4567) := by decide

theorem test_decode_wrappers :
    decode 0x000045670000CD40 = .ok (.coilRead false 0xCD 0x4567) ∧
    decode 0x0000456704000041 = .ok (.discreteInputRead true 0 0x4567) ∧
    decode 0x012345670100CD42 = .ok (.holdingRegisterRead true false false 0xCD 0x4567 0x0123) ∧
    decode 0x0123456706000043 = .ok (.inputRegisterRead false true true 0 0x4567 0x0123) := by decide

theorem test_decode_diagnostics :
    decode 0x0000456700000050 = .ok (.readTxbuf 0x4567) ∧
    decode 0x0000456700000051 = .ok (.readRxbuf 0x4567) ∧
    decode 0x0000000000000052 = .ok .readRxlen ∧ decode 0x0000000000000053 = .ok .readState ∧
    decode 0x0000000000000054 = .ok .readCurSlave ∧
    decode 0x0000000000000055 = .ok .readTimeout := by decide

/-- Section 2.7 and tables K3, A3. -/
theorem test_decode_rejects :
    decode 0x0000000000000000 = .error .reservedOpcode ∧
    decode 0x0000000000000022 = .error .reservedOpcode ∧
    decode 0x0000000000000056 = .error .reservedOpcode ∧
    decode 0x00000000000000FF = .error .reservedOpcode ∧
    decode 0x0000000000000101 = .error .reservedBits ∧
    decode 0x8000000000000003 = .error .reservedBits ∧
    decode 0x0000000008000032 = .error .reservedBits ∧
    decode 0x0000000004000033 = .error .reservedBits ∧
    decode 0x0001000000000140 = .error .reservedBits ∧
    decode 0x0001000000030142 = .error .reservedBits ∧
    decode 0x0001000004000142 = .error .defaultSlaveWithSlave := by decide

/-- R93: a suffix, the `*` operand, and an operand too big for its field. -/
theorem test_assemble :
    assemble ⟨.holdingRegisterRead, true, false, [.star, .num 0, .num 2]⟩ =
      some (.holdingRegisterRead false true true 0 0 2) ∧
    assemble ⟨.decByte, false, true, [.num 0]⟩ = none ∧
    assemble ⟨.readTxbuf, false, false, [.num 65536]⟩ = none := by decide

/-- R93's text: words of tables DC1, A1 and A2 from the lines the tables write. -/
theorem test_assembleText :
    assembleText "DEC_DWORD32.H.S 2" = some 0x0000000203000033 ∧
    assembleText "REQUEST_FROM 0x11, 3, 0x006B, 3" = some 0x0003006B00031120 ∧
    assembleText "HOLDING_REGISTER_READ.S *, 0, 1" = some 0x0001000005000042 ∧
    assembleText "READ_STATE" = some 0x0000000000000053 := by decide +kernel

/-- R93: an operand that does not fit, the suffixes in the wrong order, no such mnemonic. -/
theorem test_assembleText_refuses :
    assembleText "CRC_FEED 256" = none ∧ assembleText "DEC_DWORD32.S.H 0" = none ∧
    assembleText "CRC_WRITE 0" = none ∧ assembleText "DEC_BYTE 0x" = none := by decide +kernel

/-! ### The commands -/

/-- Table K1. -/
theorem test_crc16_table :
    crc16 [] = 0xFFFF ∧ crc16 [0x00] = 0x40BF ∧ crc16 [0xFF] = 0x00FF ∧ crc16 [0x80] = 0xE0BE ∧
    crc16 [0xFF, 0xFF] = 0x0000 ∧ crc16 [0x01, 0x03, 0x01, 0x03] = 0x49B0 := by decide +kernel

/-- K2: the check value of the published algorithm. -/
theorem test_crc16_check_value :
    crc16 [0x31, 0x32, 0x33, 0x34, 0x35, 0x36, 0x37, 0x38, 0x39] = 0x4B37 := by decide +kernel

/-- Table K3. -/
theorem test_crcReset :
    outcome 0x0000000000000001 { boot with crcAcc := 0x1234 } = some (.ok, 0x0000FFFF) := by decide

/-- Table K3. -/
theorem test_crcFeed :
    outcome 0x0000000000003102 boot = some (.ok, 0x0000947E) := by decide +kernel

/-- Table K3. -/
theorem test_crcRead :
    outcome 0x0000000000000003 { boot with crcAcc := 0x947E } = some (.ok, 0x0000947E) := by decide

/-- Tables F1 and F2. -/
theorem test_buildRequest :
    outcome 0x007D12340003F710 boot = some (.ok, 0x0000CBD5) ∧
    framed 0x007D12340003F710 boot = some [0xF7, 0x03, 0x12, 0x34, 0x00, 0x7D, 0xD5, 0xCB] ∧
    outcome 0x0001000000050110 boot = some (.unsupportedFunction, 0xFFFFFFFF) := by decide +kernel

/-- Table A1 and case S1: accepted, the frame built, DIR at the transmit-enable level. -/
theorem test_requestFrom :
    framed 0x0003006B00031120 boot = some [0x11, 0x03, 0x00, 0x6B, 0x00, 0x03, 0x76, 0x87] ∧
    (after (step (writing 0x0003006B00031120 boot))).map (fun t => (t.busy, t.txnState, t.dir)) =
      some (true, .txSettlePre, .high) := by decide +kernel

/-- Table A1: an unsupported function code leaves CUR_SLAVE and sets STATE to IDLE. -/
theorem test_requestFrom_unsupported :
    (after (step (writing 0x0001000000050120 dc1))).map
      (fun t => (t.cmdStatus, t.result, t.txnState, t.curSlave)) =
      some (.unsupportedFunction, 0xFFFFFFFF, .idle, 0x00) := by decide +kernel

/-- Table A1. -/
theorem test_setTimeout :
    (after (step (writing 0x000000FA00000021 boot))).map (fun t => (t.result, t.timeoutMs)) =
      some (0x000000FA, 250) := by decide

/-- DC1. -/
theorem test_decBit :
    outcome 0x0004000000000030 dc1 = some (.ok, 1) ∧ outcome 0x0007000700000030 dc1 = some (.ok, 1) ∧
    outcome 0x0000000700000030 dc1 = some (.ok, 0) := by decide +kernel

/-- DC1: the operand check first, then the precondition. -/
theorem test_decBit_fails :
    status 0x0000000800000030 dc1 = some .decodePrecondition ∧
    status 0x0008000000000030 dc1 = some .illegalOperand ∧
    status 0x0008000000000030 boot = some .illegalOperand := by decide +kernel

/-- DC1. -/
theorem test_decByte :
    outcome 0x0000000700000031 dc1 = some (.ok, 0xF0) ∧
    status 0x0000000800000031 dc1 = some .decodePrecondition ∧
    status 0x0000000000000031 boot = some .decodePrecondition := by decide +kernel

/-- DC1: sign extension, and 2A computed exactly. -/
theorem test_decWord16 :
    outcome 0x0000000300000032 dc1 = some (.ok, 0x0000DEF0) ∧
    outcome 0x0000000301000032 dc1 = some (.ok, 0xFFFFDEF0) ∧
    status 0x0000FFFF00000032 dc1 = some .decodePrecondition := by decide +kernel

/-- DC1. -/
theorem test_decDword32 :
    outcome 0x0000000102000033 dc1 = some (.ok, 0x56789ABC) ∧
    outcome 0x0000000100000033 dc1 = some (.ok, 0x9ABC5678) ∧
    outcome 0x0000000203000033 dc1 = some (.ok, 0x9ABCDEF0) ∧
    status 0x0000000302000033 dc1 = some .decodePrecondition := by decide +kernel

/-- Table A2: function code 1, and quantity 1. -/
theorem test_coilRead :
    framed 0x0000001300000140 boot = some [0x01, 0x01, 0x00, 0x13, 0x00, 0x01, 0x0C, 0x0F] ∧
    ended 0x0000001300000140 [0x01, 0x01, 0x01, 0x05, 0x91, 0x8B] = some (.complete, .ok, 1) := by
  decide +kernel

/-- Table A2: a COMPLETE reply without a payload. -/
theorem test_coilRead_short :
    (ended 0x0000000004000040 [0x01, 0x01, 0x00, 0x21, 0x90]).map (fun r => (r.1, r.2.1)) =
      some (.complete, .decodePrecondition) := by decide +kernel

/-- Table A2: `*` sends CUR_SLAVE. -/
theorem test_discreteInputRead :
    framed 0x0000000004000041 (slaveIs 1 boot) =
      some [0x01, 0x02, 0x00, 0x00, 0x00, 0x01, 0xB9, 0xCA] ∧
    ended 0x0000000004000041 [0x01, 0x02, 0x01, 0x00, 0xA1, 0x88] = some (.complete, .ok, 0) := by
  decide +kernel

/-- Table A2: five blocks are clamped to two; the word order. -/
theorem test_holdingRegisterRead :
    framed 0x0005000002000142 boot = some [0x01, 0x03, 0x00, 0x00, 0x00, 0x02, 0xC4, 0x0B] ∧
    ended 0x0005000002000142 [0x01, 0x03, 0x04, 0x00, 0x01, 0x00, 0x02, 0x2A, 0x32] =
      some (.complete, .ok, 0x00010002) ∧
    ended 0x0002000000000142 [0x01, 0x03, 0x04, 0x00, 0x01, 0x00, 0x02, 0x2A, 0x32] =
      some (.complete, .ok, 0x00020001) := by decide +kernel

/-- Tables A2 and A3: one block, signed or not; no block. -/
theorem test_holdingRegisterRead_one_block :
    ended 0x0001000005000042 [0x01, 0x03, 0x02, 0xFF, 0x9C, 0xF9, 0xDD] =
      some (.complete, .ok, 0xFFFFFF9C) ∧
    ended 0x0001000000000142 [0x01, 0x03, 0x02, 0xFF, 0x9C, 0xF9, 0xDD] =
      some (.complete, .ok, 0x0000FF9C) ∧
    status 0x0000000000000142 boot = some .illegalOperand := by decide +kernel

/-- Table A2. -/
theorem test_inputRegisterRead :
    framed 0x0002010003000A43 boot = some [0x0A, 0x04, 0x01, 0x00, 0x00, 0x02, 0x71, 0x4C] ∧
    ended 0x0002010003000A43 [0x0A, 0x04, 0x04, 0xFF, 0xFE, 0x80, 0x00, 0x71, 0x60] =
      some (.complete, .ok, 0xFFFE8000) ∧
    ended 0x0002010000000A43 [0x0A, 0x04, 0x04, 0xFF, 0xFE, 0x80, 0x00, 0x71, 0x60] =
      some (.complete, .ok, 0x8000FFFE) := by decide +kernel

/-- Table A4. -/
theorem test_readTxbuf :
    outcome 0x0000000600000050
      { boot with txbuf := Memory.writeList [] 0 [0x11, 0x03, 0x00, 0x6B, 0x00, 0x03, 0x76, 0x87] } =
      some (.ok, 0x76) ∧
    status 0x0000000800000050 boot = some .illegalOperand ∧
    faulted (step (writing 0x0000000000000050 boot)) = some (.unwrittenTxbuf 0) := by decide +kernel

/-- Table A4. -/
theorem test_readRxbuf :
    outcome 0x0000000200000051 dc1 = some (.ok, 0x08) ∧
    status 0x0000020000000051 dc1 = some .illegalOperand ∧
    faulted (step (writing 0x000001FF00000051 dc1)) = some (.unwrittenRxbuf 511) := by decide +kernel

/-- Table A4, and P1's READ_RXLEN. -/
theorem test_readRxlen :
    outcome 0x0000000000000052 boot = some (.ok, 0) ∧
    outcome 0x0000000000000052 { boot with rxLen := 11 } = some (.ok, 0x0000000B) := by decide

/-- Table A4, and P1's READ_STATE. -/
theorem test_readState :
    outcome 0x0000000000000053 boot = some (.ok, 0) ∧
    outcome 0x0000000000000053 dc1 = some (.ok, 8) := by decide +kernel

/-- P1's READ_CUR_SLAVE. -/
theorem test_readCurSlave :
    outcome 0x0000000000000054 (slaveIs 0x11 boot) = some (.ok, 0x11) := by decide

/-- Table A4. -/
theorem test_readTimeout : outcome 0x0000000000000055 boot = some (.ok, 0x64) := by decide

/-! ### Transmit, receive, refusal and reset -/

/-- Section 0: at t + 1 the frame goes to OUTQ. -/
theorem test_settlePre :
    (after (step { listening 0x0001000000030120 [0x01, 0x03, 0x00, 0x00, 0x00, 0x01, 0x84, 0x0A] []
        with txnState := .txSettlePre, tMark := 999, moves := [.engine] })).map
      (fun t => (t.txnState, t.outq)) =
      some (.txSending, [0x01, 0x03, 0x00, 0x00, 0x00, 0x01, 0x84, 0x0A]) := by decide +kernel

/-- E1's second byte 11: the overlap keeps M = 1. -/
theorem test_sync_overlap :
    (after (step { listening 0x0003006B00031120 [0x11, 0x03, 0x00, 0x6B, 0x00, 0x03, 0x76, 0x87]
        [0x11, 0x03] with m := 1, moves := [.engine] })).map (fun t => (t.m, t.inq)) =
      some (1, [0x03]) := by decide +kernel

/-- T1 and T8: the good reply, and the one with its last byte changed. -/
theorem test_validate :
    ended 0x0001000000030120 [0x01, 0x03, 0x02, 0x00, 0x01, 0x79, 0x84] =
      some (.complete, .ok, 2) ∧
    ended 0x0001000000030120 [0x01, 0x03, 0x02, 0x00, 0x01, 0x79, 0x85] =
      some (.crcError, .transactionFailed, 0xFFFFFFFF) := by decide +kernel

/-- T2 and T5: the timeout wins over a byte, and `elapsed` wraps. -/
theorem test_timeout :
    (after (step { listening 0x0001000000030120 [0x01, 0x03, 0x00, 0x00, 0x00, 0x01, 0x84, 0x0A]
        [0x01] with now := 0x54, tLast := 0xFFFFFFF0, moves := [.engine] })).map
      (fun t => (t.txnState, t.cmdStatus, t.result, t.inq)) =
      some (.timedOut, .transactionFailed, 0xFFFFFFFF, [0x01]) := by decide +kernel

/-- Q1: READ_STATE while BUSY = 1. -/
theorem test_refused_while_busy :
    (after (step (writing 0x0000000000000053 { boot with busy := true, cmdStatus := .illegalOperand }))).map
      (fun t => (t.busy, t.cmdStatus, t.dutyViolated)) =
      some (true, .illegalOperand, true) := by decide

/-- RS2 and RS3: reset in TX_SENDING leaves OUTQ and INQ. -/
theorem test_reset :
    let r := after (step { listening 0x0001000000030120 [0x01] [0x55] with
      txnState := .txSending, dir := .high, outq := [0x0A], moves := [.reset] })
    r.map (fun t => (t.busy, t.txnState, t.dir)) = some (false, .idle, .low) ∧
    r.map (fun t => (t.outq, t.inq, t.txbuf.length)) = some ([0x0A], [0x55], 0) := by
  decide +kernel

/-! ### Witnesses: states and operands that meet an obligation's hypotheses -/

/-- A running transaction on its last receive step: the frame of T1 in TXBUF, all but the last byte
of the reply taken. -/
def running : State :=
  { lastByte 0x0001000000030120 [0x01, 0x03, 0x02, 0x00, 0x01, 0x79, 0x84] with
    txbuf := Memory.writeList [] 0 [0x01, 0x03, 0x00, 0x00, 0x00, 0x01, 0x84, 0x0A],
    curSlave := 0x01 }

theorem witness_DecodeOfEncode : (Instr.coilRead true 0#8 0xFFFF#16).wf = true := by decide

theorem witness_EncodeOfDecode : decode 0x0001000005000042 =
    .ok (.holdingRegisterRead true false true 0 0 1) := by decide

theorem witness_WordsAreRejected :
    reservedOp (fieldOp 0x0000000000000056).toNat = true ∧
    (reservedOp (fieldOp 0x8000000000000055).toNat = false ∧
      unusedBitSet 0x8000000000000055 = true) ∧
    (unusedBitSet 0x0000000004008043 = false ∧
      wrapperOp (fieldOp 0x0000000004008043).toNat = true ∧
      (0x0000000004008043 : CmdWord).getLsbD 26 = true ∧
      (0x0000000004008043 : CmdWord).extractLsb' 8 8 ≠ 0#8) := by decide

theorem witness_Assembler :
    assemble ⟨.coilRead, false, false, [.star, .num 65535]⟩ = some (.coilRead true 0 65535) ∧
      256 ≤ 256 := by decide

theorem witness_StepRunsTheDecodedCommand :
    512 ≤ boot.params.rxCap ∧ (writing 0x55 boot).busy = false ∧
      (writing 0x55 boot).moves = .host 0x55 :: [] ∧ decode 0x55 = .ok .readTimeout := by decide

theorem witness_MalformedWord :
    512 ≤ boot.params.rxCap ∧ (writing 0x56 boot).busy = false ∧
      (writing 0x56 boot).moves = .host 0x56 :: [] ∧ decode 0x56 = .error .reservedOpcode := by
  decide

theorem witness_WriteWhileBusy :
    512 ≤ running.params.rxCap ∧ (writing 0x55 running).busy = true ∧
      (writing 0x55 running).moves = .host 0x55 :: [] := by decide

theorem witness_SmallReceiveBuffer :
    (State.powerOn { params with rxCap := 511 }).params.rxCap < 512 := by decide

/-- A breach and a step without one. -/
theorem witness_DutyRecord :
    (∃ t, step (writing 0x55 running) = .next t ∧ hostKeepsDuty (writing 0x55 running) = false) ∧
    (∃ t, step (writing 0x55 boot) = .next t ∧ hostKeepsDuty (writing 0x55 boot) = true) :=
  ⟨⟨_, rfl, rfl⟩, ⟨_, rfl, rfl⟩⟩

theorem witness_Crc16Expansion :
    512 ≤ boot.params.rxCap ∧ boot.busy = false ∧
      ({ boot with moves := (crc16Expansion [0x31]).map (fun i => Move.host (encode i)) }).moves =
        (crc16Expansion [0x31]).map (fun i => Move.host (encode i)) ++ [] := by decide

/-- For BUILD_REQUEST and REQUEST_FROM: the least and the greatest function code. -/
theorem witness_supported :
    ((1#8 : Byte) = 1#8 ∨ (1#8 : Byte) = 2#8 ∨ (1#8 : Byte) = 3#8 ∨ (1#8 : Byte) = 4#8) ∧
    ((4#8 : Byte) = 1#8 ∨ (4#8 : Byte) = 2#8 ∨ (4#8 : Byte) = 3#8 ∨ (4#8 : Byte) = 4#8) := by decide

theorem witness_UnsupportedFunction :
    ((0#8 : Byte) ≠ 1#8 ∧ (0#8 : Byte) ≠ 2#8 ∧ (0#8 : Byte) ≠ 3#8 ∧ (0#8 : Byte) ≠ 4#8) ∧
    ((5#8 : Byte) ≠ 1#8 ∧ (5#8 : Byte) ≠ 2#8 ∧ (5#8 : Byte) ≠ 3#8 ∧ (5#8 : Byte) ≠ 4#8) := by decide

/-- A request accepted at NOW = 1000. -/
def preparing : State :=
  { listening 0x0001000000030120 [0x01, 0x03, 0x00, 0x00, 0x00, 0x01, 0x84, 0x0A] [] with
    txnState := .txSettlePre, tMark := 1000, dir := .high,
    moves := [.tick, .engine] ++ List.replicate 8 .send ++ [.engine, .tick, .engine] }

/-- Both clauses; the second at the longest time (NOW one below T_MARK) and at the shortest. -/
theorem witness_SettlePre :
    preparing.txnState = .txSettlePre ∧
      [0x01#8, 0x03#8, 0x00#8, 0x00#8, 0x00#8, 0x01#8, 0x84#8, 0x0A#8].length = 8 ∧
      (∀ k < 8, Memory.read preparing.txbuf k =
        [0x01#8, 0x03#8, 0x00#8, 0x00#8, 0x00#8, 0x01#8, 0x84#8, 0x0A#8][k]?) ∧
      preparing.now = preparing.tMark ∧ { preparing with now := 1001 }.now ≠ preparing.tMark ∧
      { preparing with now := 999 }.now ≠ preparing.tMark := by decide +kernel

theorem witness_Sending :
    { preparing with txnState := .txSending, outq := [0x0A#8] }.outq ≠ [] ∧
    ({ preparing with txnState := .txSending }.outq = [] ∧ preparing.params.dirPresent = true) ∧
    (State.powerOn { params with dirPresent := false }).params.dirPresent = false ∧
    { State.powerOn { params with dirPresent := false } with txnState := .txSending }.outq = [] := by
  decide +kernel

theorem witness_SettlePost :
    { preparing with txnState := .txSettlePost }.txnState = .txSettlePost ∧
      { preparing with txnState := .txSettlePost }.now = preparing.tMark ∧
      { preparing with txnState := .txSettlePost, now := 1001 }.now ≠ preparing.tMark := by
  decide +kernel

theorem witness_TransmitPhase :
    512 ≤ preparing.params.rxCap ∧ preparing.params.dirPresent = true ∧
      preparing.txnState = .txSettlePre ∧ preparing.tMark = preparing.now ∧ preparing.outq = [] ∧
      [0x01#8, 0x03#8, 0x00#8, 0x00#8, 0x00#8, 0x01#8, 0x84#8, 0x0A#8].length = 8 ∧
      (∀ k < 8, Memory.read preparing.txbuf k =
        [0x01#8, 0x03#8, 0x00#8, 0x00#8, 0x00#8, 0x01#8, 0x84#8, 0x0A#8][k]?) ∧
      preparing.moves =
        [.tick, .engine] ++ List.replicate 8 .send ++ [.engine, .tick, .engine] ++ [] := by
  decide +kernel

theorem witness_ReadWrappers : (1#16 : Half) ≠ 0#16 ∧ (0xFFFF#16 : Half) ≠ 0#16 := by decide

theorem witness_IllegalOperands : 8 ≤ (8#16 : Half).toNat ∧ 8 ≤ (0xFFFF#16 : Half).toNat := by decide

theorem witness_WrappersAreRequestThenDecode :
    { dc1 with pend := encode (.holdingRegisterRead true false false 1 0 1) }.txnState = .complete ∧
    { dc1 with pend := encode (.inputRegisterRead false true true 0 0 0xFFFF) }.txnState =
      .complete ∧ (1#16 : Half) ≠ 0#16 ∧ (0xFFFF#16 : Half) ≠ 0#16 := by decide +kernel

/-- The deadline reached exactly, and a TIMEOUT_MS of 0 (T2, T6). -/
theorem witness_Timeout :
    running.txnState = .accumulating ∧
    { running with timeoutMs := 0 }.timeoutMs.toNat ≤ (running.now - running.tLast).toNat ∧
    { listening 0x20 [0x01] [] with now := 1100 }.txnState = .awaitingSync ∧
    { listening 0x20 [0x01] [] with now := 1100 }.timeoutMs.toNat ≤
      ((1100 : Word) - (listening 0x20 [0x01] []).tLast).toNat := by decide +kernel

/-- One millisecond before the deadline. -/
theorem witness_ReceiverWaits :
    (listening 0x20 [0x01] []).txnState = .awaitingSync ∧
    ((1099 : Word) - (listening 0x20 [0x01] []).tLast).toNat <
      (listening 0x20 [0x01] []).timeoutMs.toNat ∧ (listening 0x20 [0x01] []).inq = [] := by
  decide +kernel

/-- The receiver of `REQUEST_FROM 0x11, 3, 0x006B, 3`, so P = [11, 03]. -/
def syncing (b : Byte) : State :=
  listening 0x0003006B00031120 [0x11, 0x03, 0x00, 0x6B, 0x00, 0x03, 0x76, 0x87] [b]

/-- The premises, and one byte for each of the five clauses. -/
theorem witness_Synchronizer :
    (512 ≤ (syncing 0x11).params.rxCap ∧ (syncing 0x11).txnState = .awaitingSync ∧
      takesByte (syncing 0x11) 0x11 [] ∧ Memory.read (syncing 0x11).txbuf 0 = some 0x11#8 ∧
      Memory.read (syncing 0x11).txbuf 1 = some 0x03#8) ∧
    ((syncing 0x11).m = 0 ∧ (0x11#8 : Byte) = 0x11#8) ∧
    ((syncing 0xFF).m = 0 ∧ takesByte (syncing 0xFF) 0xFF [] ∧ (0xFF#8 : Byte) ≠ 0x11#8) ∧
    ({ syncing 0x11 with m := 1 }.m = 1 ∧ (0x11#8 : Byte) ≠ 0x03#8) ∧
    ({ syncing 0x00 with m := 1 }.m = 1 ∧ takesByte (syncing 0x00) 0x00 [] ∧
      (0x00#8 : Byte) ≠ 0x03#8 ∧ (0x00#8 : Byte) ≠ 0x11#8) ∧
    ({ syncing 0x03 with m := 1 }.m = 1 ∧ takesByte (syncing 0x03) 0x03 []) := by decide +kernel

theorem witness_HeaderStep :
    512 ≤ { syncing 0xFF with txnState := .headerCaptured }.params.rxCap ∧
      { syncing 0xFF with txnState := .headerCaptured }.txnState = .headerCaptured ∧
      takesByte { syncing 0xFF with txnState := .headerCaptured } 0xFF [] := by decide +kernel

/-- The last byte but one of the longest frame. -/
theorem witness_Accumulate :
    let s := { syncing 0x55 with
      txnState := .accumulating, m := 2, rxLen := 258, expLen := 260 }
    512 ≤ s.params.rxCap ∧ s.txnState = .accumulating ∧ takesByte s 0x55 [] ∧
      s.rxLen.toNat < 260 ∧ s.rxLen.toNat + 1 ≠ s.expLen.toNat := by decide +kernel

/-- The last byte of the reply of T1. -/
theorem witness_LastByte :
    512 ≤ running.params.rxCap ∧ running.txnState = .accumulating ∧ takesByte running 0x84 [] ∧
      running.rxLen.toNat < 260 ∧ running.rxLen.toNat + 1 = running.expLen.toNat ∧
      running.rxLen.toNat = [0x01#8, 0x03#8, 0x02#8, 0x00#8, 0x01#8].length + 1 ∧
      (∀ k < [0x01#8, 0x03#8, 0x02#8, 0x00#8, 0x01#8].length + 1, Memory.read running.rxbuf k =
        ([0x01#8, 0x03#8, 0x02#8, 0x00#8, 0x01#8] ++ [0x79#8])[k]?) := by decide +kernel

theorem witness_RequestCompletes :
    { dc1 with pend := 0x20 }.pend.extractLsb' 0 8 = 0x20#8 ∧ dc1.txnState = .complete ∧
      Memory.read dc1.rxbuf 2 = some 8#8 ∧ boot.txnState ≠ .complete := by decide +kernel

/-- A payload of one byte, enough for a coil; and a STATE that is not COMPLETE. -/
theorem witness_WrapperCompletes :
    (0x0000000000000140 : CmdWord).extractLsb' 0 8 ≠ 0x20#8 ∧
      (complete [0x01, 0x01, 0x01, 0x05, 0x91, 0x8B]).txnState = .complete ∧
      Memory.read (complete [0x01, 0x01, 0x01, 0x05, 0x91, 0x8B]).rxbuf 2 = some 1#8 ∧
      (∀ k < (1#8 : Byte).toNat,
        Memory.read (complete [0x01, 0x01, 0x01, 0x05, 0x91, 0x8B]).rxbuf (3 + k) = some 0x05#8) ∧
      boot.txnState ≠ .complete := by decide +kernel

/-- Noise of both kinds the condition allows: X4's `FF 11` before [11, 03], and a 03 before [03, 03]
that is not the last byte. -/
theorem witness_harmlessNoise :
    harmlessNoise 0x11 0x03 [0xFF, 0x11] ∧ harmlessNoise 0x03 0x03 [0x03, 0x55] := by
  constructor
  · refine ⟨fun k => ?_, by decide⟩
    match k with
    | 0 => decide
    | 1 => decide
    | _ + 2 => simp
  · refine ⟨fun k => ?_, by decide⟩
    match k with
    | 0 => decide
    | 1 => decide
    | _ + 2 => simp

/-- E1: noise `FF 11`, then the reply. -/
theorem witness_ReplyAfterNoise :
    let reply := replyFrame 0x11 0x03 [0x02, 0x2B, 0x00, 0x00, 0x00, 0x64]
    let s := { listening 0x0003006B00031120 [0x11, 0x03, 0x00, 0x6B, 0x00, 0x03, 0x76, 0x87]
      ([0xFF, 0x11] ++ reply) with moves := List.replicate 13 .engine }
    harmlessNoise 0x11 0x03 [0xFF, 0x11] ∧
      reply = [0x11, 0x03, 0x06, 0x02, 0x2B, 0x00, 0x00, 0x00, 0x64, 0xC8, 0xBA] ∧
      512 ≤ s.params.rxCap ∧ s.txnState = .awaitingSync ∧ s.m = 0 ∧
      Memory.read s.txbuf 0 = some 0x11#8 ∧ Memory.read s.txbuf 1 = some 0x03#8 ∧
      s.pend.extractLsb' 0 8 = 0x20#8 ∧ (s.now - s.tLast).toNat < s.timeoutMs.toNat ∧
      [0x02#8, 0x2B#8, 0x00#8, 0x00#8, 0x00#8, 0x64#8].length ≤ 255 ∧
      s.inq = [0xFF, 0x11] ++ reply ++ [] ∧
      s.moves = List.replicate (2 + 6 + 5) .engine ++ [] :=
  ⟨witness_harmlessNoise.1, by decide +kernel⟩

/-- E9. -/
theorem witness_EchoWithHighByteThree :
    let s := { listening 0x0001030000030120 (frame 0x01 0x03 0x0300 0x0001)
      (frame 0x01 0x03 0x0300 0x0001 ++ [0x01, 0x03]) with moves := List.replicate 8 .engine }
    512 ≤ s.params.rxCap ∧ s.txnState = .awaitingSync ∧ s.m = 0 ∧
      (∀ k < 8, Memory.read s.txbuf k = (frame 0x01 0x03 0x0300 0x0001)[k]?) ∧
      s.pend.extractLsb' 0 8 = 0x20#8 ∧ (s.now - s.tLast).toNat < s.timeoutMs.toNat ∧
      (0x0300#16 : Half).extractLsb' 8 8 = 3#8 ∧
      s.inq = frame 0x01 0x03 0x0300 0x0001 ++ [0x01, 0x03] ∧
      s.moves = List.replicate 8 .engine ++ [] := by decide +kernel

/-- DC1, and the last index of each clause. -/
theorem witness_DecoderCommands :
    dc1.txnState = .complete ∧ Memory.read dc1.rxbuf 2 = some 8#8 ∧
      (∀ j < (8#8 : Byte).toNat, Memory.read dc1.rxbuf (3 + j) =
        some ([0x12#8, 0x34#8, 0x56#8, 0x78#8, 0x9A#8, 0xBC#8, 0xDE#8, 0xF0#8].getD j 0)) ∧
      7 + 1 ≤ (8#8 : Byte).toNat ∧ 2 * 3 + 2 ≤ (8#8 : Byte).toNat ∧
      2 * 2 + 4 ≤ (8#8 : Byte).toNat := by decide +kernel

/-- STATE not COMPLETE, and the first index beyond the payload in each clause. -/
theorem witness_DecoderPrecondition :
    boot.txnState ≠ .complete ∧ Memory.read dc1.rxbuf 2 = some 8#8 ∧ (8#8 : Byte).toNat < 8 + 1 ∧
      (8#8 : Byte).toNat < 2 * 4 + 2 ∧ (8#8 : Byte).toNat < 2 * 3 + 4 ∧
      (7#16 : Half).toNat < 8 := by decide +kernel

theorem witness_registers :
    Memory.read dc1.rxbuf (3 + 2 * 2) = some 0x9A#8 ∧
      Memory.read dc1.rxbuf (3 + (2 * 2 + 1)) = some 0xBC#8 ∧
      Memory.read dc1.rxbuf (3 + (2 * 2 + 2)) = some 0xDE#8 ∧
      Memory.read dc1.rxbuf (3 + (2 * 2 + 3)) = some 0xF0#8 := by decide +kernel

/-- The three clauses, about index 7. -/
theorem witness_ReadTxbuf :
    8 ≤ (8#16 : Half).toNat ∧ (7#16 : Half).toNat < 8 ∧
      Memory.read preparing.txbuf 7 = some 0x0A#8 ∧ Memory.read boot.txbuf 7 = none := by
  decide +kernel

/-- The three clauses, about index 511. -/
theorem witness_ReadRxbuf :
    boot.params.rxCap ≤ (512#16 : Half).toNat ∧ (511#16 : Half).toNat < boot.params.rxCap ∧
      Memory.read (Memory.write boot.rxbuf 511 0x55) 511 = some 0x55#8 ∧
      Memory.read boot.rxbuf 511 = none := by decide +kernel

theorem witness_ReadCommandsAreIdempotent :
    readsOnly .readTimeout = true ∧ ∃ t, exec .readTimeout boot = .next t := ⟨rfl, _, rfl⟩

theorem witness_ClockAndLine :
    512 ≤ boot.params.rxCap ∧ { boot with moves := [.tick] }.moves = .tick :: [] ∧
      { boot with moves := [.deliver 0x55] }.moves = .deliver 0x55 :: [] ∧
      ({ boot with moves := [.send], outq := [0x55] }.moves = .send :: [] ∧
        { boot with moves := [.send], outq := [0x55#8] }.outq = 0x55#8 :: []) ∧
      { boot with moves := [.send] }.outq = [] := by decide

theorem witness_Reset :
    512 ≤ running.params.rxCap ∧ { running with moves := [.reset] }.moves = .reset :: [] ∧
      running.params.dirPresent = true ∧
      (State.powerOn { params with dirPresent := false }).params.dirPresent = false := by decide

/-- A step that writes each of the registers the rule names. -/
theorem witness_Writers :
    (∃ t, step (writing 0x000000FA00000021 boot) = .next t ∧ t.timeoutMs ≠ boot.timeoutMs) ∧
    (∃ t, step (writing 0x0003006B00031110 boot) = .next t ∧ t.curSlave ≠ boot.curSlave) ∧
    (∃ t, step (writing 0x0000000000003102 boot) = .next t ∧ t.crcAcc ≠ boot.crcAcc) :=
  ⟨⟨_, rfl, by decide⟩, ⟨_, rfl, by decide⟩, ⟨_, rfl, by decide +kernel⟩⟩

/-- The receive step that completes a transaction. -/
theorem witness_receives :
    (nextMove running).1 = .engine ∧ running.txnState.receiving = true ∧
      (after (step running)).map (·.txnState) = some .complete := by decide +kernel

theorem witness_TerminalState :
    (writing 0x0001000000050120 dc1).txnState.terminal = true ∧
      (after (step (writing 0x0001000000050120 dc1))).map (·.txnState) = some .idle := by
  decide +kernel

/-- A failure that completes at once, and REQUEST_FROM's. -/
theorem witness_Failures :
    (∃ t, exec (.decByte 0) { boot with busy := true } = .next t ∧ t.busy = false ∧
      t.cmdStatus ≠ .ok) ∧
    (∃ t, exec (.requestFrom 1 5 0 1) { boot with busy := true } = .next t ∧ t.busy = false ∧
      t.cmdStatus ≠ .ok) := ⟨⟨_, rfl, rfl, by decide⟩, ⟨_, rfl, rfl, by decide⟩⟩

theorem boot_legal : Legal boot where
  params := by decide
  buffers := by decide
  busy := by decide
  dir := by decide
  request := by decide
  taken := by decide
  receiver := by decide

/-- The running transaction is legal, and so is each state about its end. -/
theorem running_legal : Legal running where
  params := by decide
  buffers := by decide +kernel
  busy := by decide
  dir := by decide
  request := by decide +kernel
  taken := by decide +kernel
  receiver := by decide +kernel

theorem preparing_legal : Legal preparing where
  params := by decide
  buffers := by decide +kernel
  busy := by decide
  dir := by decide
  request := by decide +kernel
  taken := by decide
  receiver := by decide

/-- The step that puts a frame on the line, from a legal state. -/
theorem witness_Wire :
    Legal { preparing with now := 1001, moves := [.engine] } ∧
    (after (step { preparing with now := 1001, moves := [.engine] })).map (·.outq) =
      some [0x01, 0x03, 0x00, 0x00, 0x00, 0x01, 0x84, 0x0A] :=
  ⟨{ preparing_legal with }, by decide +kernel⟩

/-- A schedule: this move first, and then the clock for ever. -/
def thenTicks (mv : Move) : Nat → Move
  | 0 => mv
  | _ + 1 => .tick

/-- Its run: `s`, then `t` with the clock running on. -/
def thenIdles (s t : State) : Nat → State
  | 0 => s
  | n + 1 => { t with moves := [], now := t.now + BitVec.ofNat 32 n }

theorem thenIdles_run {s t : State} {mv : Move} (h0 : step { s with moves := [mv] } = .next t)
    (hm : t.moves = []) (hc : 512 ≤ t.params.rxCap) : RunOf (thenTicks mv) (thenIdles s t) := by
  intro n
  match n with
  | 0 =>
    show step { s with moves := [mv] } = _
    rw [h0]
    simp [thenIdles, ← hm]
  | n + 1 =>
    refine (step_of_cons (mv := .tick) (rest := []) (by exact hc) rfl).trans ?_
    simp [thenIdles, runMove, clockStep, BitVec.ofNat_add, BitVec.add_assoc]

theorem thenIdles_fair {s t : State} {mv : Move} (he : engineEnabled s = true → mv = .engine)
    (ho : s.outq = []) (ho' : t.outq = []) (hd : t.txnState.active = false) :
    Fair (thenTicks mv) (thenIdles s t) where
  engine n h := by
    match n with
    | 0 => exact ⟨0, le_refl _, he h, h⟩
    | n + 1 =>
      exfalso
      revert h hd
      simp only [thenIdles, engineEnabled]
      cases t.txnState <;> simp [TxnState.active, TxnState.transmitting, TxnState.receiving]
  clock n := ⟨n + 1, by omega, rfl⟩
  line n h := by
    match n with
    | 0 => exact absurd ho h
    | n + 1 => exact absurd ho' h

/-- The state after the last receive step of `running`. -/
def finished : State := (after (step { running with moves := [.engine] })).getD boot

theorem finished_step : step { running with moves := [.engine] } = .next finished := by
  have h : (after (step { running with moves := [.engine] })).isSome = true := by decide +kernel
  unfold finished
  revert h
  cases step { running with moves := [.engine] } <;> simp [after]

/-- A fair run from a transmit state, which reset ends, and one that takes a frame's last byte. -/
theorem witness_FairRuns :
    (∃ σ r, RunOf σ r ∧ Fair σ r ∧ Legal (r 0) ∧ (r 0).txnState.transmitting = true) ∧
    (∃ σ r, RunOf σ r ∧ Fair σ r ∧ Legal (r 0) ∧ (r 0).txnState = .accumulating) := by
  constructor
  · refine ⟨thenTicks .reset, thenIdles preparing (engineReset { preparing with moves := [] }),
      thenIdles_run rfl rfl (by decide), thenIdles_fair (by decide +kernel) rfl rfl rfl,
      preparing_legal, rfl⟩
  · exact ⟨thenTicks .engine, thenIdles running finished,
      thenIdles_run finished_step (by decide +kernel) (by decide +kernel),
      thenIdles_fair (fun _ => rfl) rfl (by decide +kernel) (by decide +kernel),
      running_legal, rfl⟩

/-- A command completing when it is accepted, and one at the end of its transaction. -/
theorem witness_CommandsEnd :
    (∃ t, step (writing 0x55 boot) = .next t ∧ t.busy = false ∧
      acceptedNext (writing 0x55 boot) = some .readTimeout) ∧
    (decode running.pend = .ok (.requestFrom 1 3 0 1) ∧ running.busy = true ∧
      (after (step running)).map (·.busy) = some false) :=
  ⟨⟨_, rfl, rfl, by decide⟩, by decide +kernel⟩

theorem witness_HostReads :
    acceptedNext (writing 0x0000000000000053 boot) = some .readState ∧
      (after (step (writing 0x0000000000000053 boot))).map (·.result) = some 0 := by decide

theorem witness_ResetStateIsLegal : 512 ≤ params.rxCap := by decide

theorem witness_LegalStepsNeverStop : Legal running ∧ hostReadsBuffer running = false :=
  ⟨running_legal, by decide⟩

/-- For the invariants: a legal state in the middle of a transaction that steps, and an idle one. -/
theorem witness_invariants :
    (Legal running ∧ (after (step running)).isSome = true) ∧
    (Legal boot ∧ ∃ t, step (writing 0x55 boot) = .next t) :=
  ⟨⟨running_legal, by decide +kernel⟩, ⟨boot_legal, _, rfl⟩⟩

end Tests
end Sys2Proof
end

section
/-! The CRC function on the source's worked example (40_crc.md R112). -/

namespace Sys2Proof
namespace Machine

/-- The CRC register byte by byte (R111): each `have` is the XOR and the eight shift rounds for one
byte of the request. -/
theorem crc16_canonicalRequest :
    crc16 [0x11#8, 0x03#8, 0x00#8, 0x6B#8, 0x00#8, 0x03#8] = 0x8776#16 := by
  have slave : crcStep 0xFFFF#16 0x11#8 = 0x4C7F#16 := by decide
  have fc : crcStep 0x4C7F#16 0x03#8 = 0xE14D#16 := by decide
  have startHi : crcStep 0xE14D#16 0x00#8 = 0x3521#16 := by decide
  have startLo : crcStep 0x3521#16 0x6B#8 = 0xF7B4#16 := by decide
  have qtyHi : crcStep 0xF7B4#16 0x00#8 = 0x77F7#16 := by decide
  have qtyLo : crcStep 0x77F7#16 0x03#8 = 0x8776#16 := by decide
  simp only [crc16, List.foldl_cons, List.foldl_nil, slave, fc, startHi, startLo, qtyHi, qtyLo]

/-- Settles O11: the CRC by running the register over the six bytes, its two halves by evaluation. -/
theorem canonicalRequestHasCrc8776 : Obligations.CanonicalRequestHasCrc8776 :=
  ⟨crc16_canonicalRequest, by decide, by decide⟩

end Machine
end Sys2Proof
end

section
/-! The request frame's layout and the function codes that build none (41_framer_transport.md R130,
R131). -/

namespace Sys2Proof
namespace Machine

/-- R90's byte order, with each half of a word written as its bit range. -/
theorem frameHead_eq_extract (slave fc : Byte) (start qty : Half) :
    frameHead slave fc start qty =
      [slave, fc, start.extractLsb' 8 8, start.extractLsb' 0 8,
       qty.extractLsb' 8 8, qty.extractLsb' 0 8] := rfl

theorem frame_eq_append (slave fc : Byte) (start qty : Half) :
    frame slave fc start qty = frameHead slave fc start qty ++
      [(crc16 (frameHead slave fc start qty)).extractLsb' 0 8,
       (crc16 (frameHead slave fc start qty)).extractLsb' 8 8] := rfl

/-- Settles O15: the frame is its head followed by the head's CRC, low byte first. -/
theorem requestFrameLayout : Obligations.RequestFrameLayout := by
  intro slave fc start qty c
  have hc : crc16 (frameHead slave fc start qty) = c := by rw [frameHead_eq_extract]
  rw [frame_eq_append, hc, frameHead_eq_extract]
  simp only [List.cons_append, List.nil_append]

theorem supported_iff (fc : Byte) :
    supported fc = true ↔ fc = 1#8 ∨ fc = 2#8 ∨ fc = 3#8 ∨ fc = 4#8 := by
  simp [supported, or_assoc]

theorem exec_buildRequest_of_unsupported {fc : Byte} (hf : ¬ supported fc = true) (slave : Byte)
    (start qty : Half) (s : State) :
    exec (.buildRequest slave fc start qty) s = .next (raise .unsupportedFunction minusOne s) :=
  if_neg hf

theorem exec_requestFrom_of_unsupported {fc : Byte} (hf : ¬ supported fc = true) (slave : Byte)
    (start qty : Half) (s : State) :
    exec (.requestFrom slave fc start qty) s =
      .next (raise .unsupportedFunction minusOne { s with txnState := .idle }) :=
  if_neg hf

/-- Settles O17: a function code outside 1 to 4 takes both commands to their `raise`. -/
theorem unsupportedFunctionBuildsNothing : Obligations.UnsupportedFunctionBuildsNothing := by
  refine ⟨supported_iff, fun s slave fc start qty h1 h2 h3 h4 => ?_⟩
  have hf : ¬ supported fc = true := by simp [supported_iff, h1, h2, h3, h4]
  exact ⟨exec_buildRequest_of_unsupported hf slave start qty s,
    exec_requestFrom_of_unsupported hf slave start qty s⟩

end Machine
end Sys2Proof
end

section
/-! The synchronizer and the header step (42_receiver.md R163, R164): the whole next state of each
byte taken. -/

namespace Sys2Proof
namespace Machine

/-! ### The synchronizer -/

theorem engineStep_of_awaitingSync {s : State} {b : Byte} {rest : List Byte}
    (hs : s.txnState = .awaitingSync) (hb : takesByte s b rest) :
    engineStep s = syncStep b { s with inq := rest, tLast := s.now } := by
  rw [engineStep_takes hb (by rw [hs]; rfl)]
  simp only [takeByte, hs]

theorem captureHeader_eq (p0 p1 : Byte) {s : State} (hc : 1 < s.params.rxCap) :
    captureHeader p0 p1 s = .next { s with
      m := 2, rxbuf := Memory.write (Memory.write s.rxbuf 0 p0) 1 p1, rxLen := 2#16,
      txnState := .headerCaptured } := by
  have hc0 : 0 < s.params.rxCap := by omega
  simp only [captureHeader, andThen_next_iff, storeRx_next_iff]
  exact ⟨_, ⟨hc0, rfl⟩, _, ⟨hc, rfl⟩, rfl⟩

section SyncStep

variable {s : State} {b p0 p1 : Byte}
  (h0 : Memory.read s.txbuf 0 = some p0) (h1 : Memory.read s.txbuf 1 = some p1)

include h0 h1

/-- A byte that is not the second match: `p0` is the start of a match, also at the second position
(the overlap), and any other byte starts again. -/
theorem syncStep_of_not_second_match (hm : s.m = 0 ∨ s.m = 1 ∧ b ≠ p1) :
    syncStep b s = .next { s with m := if b = p0 then 1 else 0 } := by
  simp only [syncStep, txRead_eq h0, txRead_eq h1, withRead_ok]
  obtain hm | ⟨hm, hne⟩ := hm
  · simp only [hm]
    split <;> rfl
  · simp only [hm, if_neg hne]
    split <;> rfl

theorem syncStep_of_second_match (hc : 1 < s.params.rxCap) (hm : s.m = 1) (hb : b = p1) :
    syncStep b s = .next { s with
      m := 2, rxbuf := Memory.write (Memory.write s.rxbuf 0 p0) 1 p1, rxLen := 2#16,
      txnState := .headerCaptured } := by
  simp only [syncStep, txRead_eq h0, txRead_eq h1, withRead_ok, hm, if_pos hb,
    captureHeader_eq p0 p1 hc]

end SyncStep

/-- RXBUF after P[0] and P[1] are stored, at every index. -/
theorem read_write_zero_one (m : Memory) (p0 p1 : Byte) (k : Nat) :
    Memory.read (Memory.write (Memory.write m 0 p0) 1 p1) k =
      if k = 0 then some p0 else if k = 1 then some p1 else Memory.read m k := by
  by_cases hk : k = 0
  · simp [hk]
  · simp [hk]

/-- Settles O29: the engine's step is `syncStep` on the state with the byte taken. The first four
clauses are its search for P[0], the last is the second match, which captures the header. -/
theorem synchronizerMatchesThePrefix : Obligations.SynchronizerMatchesThePrefix := by
  intro s b p0 p1 rest hc hs hb h0 h1
  have hcap : 1 < s.params.rxCap := by omega
  rw [engineStep_of_awaitingSync hs hb]
  have search (hm : s.m = 0 ∨ s.m = 1 ∧ b ≠ p1) :
      syncStep b { s with inq := rest, tLast := s.now } = .next { s with
        inq := rest, tLast := s.now, m := if b = p0 then 1 else 0 } :=
    syncStep_of_not_second_match h0 h1 hm
  refine ⟨fun hm he => ?_, fun hm he => ?_, fun hm hne he => ?_, fun hm hne he => ?_,
    fun hm he => ?_⟩
  · rw [search (.inl hm), if_pos he]
  · rw [search (.inl hm), if_neg he]
  · rw [search (.inr ⟨hm, hne⟩), if_pos he]
  · rw [search (.inr ⟨hm, hne⟩), if_neg he]
  · exact ⟨_, syncStep_of_second_match h0 h1 hcap hm he, read_write_zero_one s.rxbuf p0 p1, rfl⟩

/-! ### The header step -/

theorem engineStep_of_headerCaptured {s : State} {b : Byte} {rest : List Byte}
    (hs : s.txnState = .headerCaptured) (hb : takesByte s b rest) :
    engineStep s = headerStep b { s with inq := rest, tLast := s.now } := by
  rw [engineStep_takes hb (by rw [hs]; rfl)]
  simp only [takeByte, hs]

theorem headerStep_eq (b : Byte) {s : State} (hc : 2 < s.params.rxCap) :
    headerStep b s = .next { s with
      rxbuf := Memory.write s.rxbuf 2 b, rxLen := 3#16, expLen := b.setWidth 9 + 5#9,
      txnState := .accumulating } := by
  simp only [headerStep, storeRx_eq b hc, andThen_of_next]

/-- The expected length does not wrap: at most 255 + 5, in nine bits. -/
theorem toNat_expectedLength (b : Byte) : (b.setWidth 9 + 5#9).toNat = b.toNat + 5 := by
  have hb : b.toNat < 256 := b.isLt
  have hw : b.toNat < 512 := by omega
  rw [BitVec.toNat_add, BitVec.toNat_setWidth, Nat.mod_eq_of_lt hw]
  exact Nat.mod_eq_of_lt (by omega : b.toNat + 5 < 512)

/-- Settles O30: the engine's step is `headerStep` on the state with the byte taken. -/
theorem headerStepTakesTheByteCount : Obligations.HeaderStepTakesTheByteCount := by
  intro s b rest hc hs hb
  have hcap : 2 < s.params.rxCap := by omega
  rw [engineStep_of_headerCaptured hs hb]
  exact ⟨_, headerStep_eq b hcap, fun k => read_write s.rxbuf 2 k b, toNat_expectedLength b, rfl⟩

end Machine
end Sys2Proof
end

section
/-! The completion of a REQUEST_FROM (44_api.md R232). -/

namespace Sys2Proof
namespace Machine

theorem requestComplete_of_complete {s : State} {bc : Byte} (hs : s.txnState = .complete)
    (hbc : Memory.read s.rxbuf 2 = some bc) :
    requestComplete s = .next (finish (bc.setWidth 32) s) := by
  rw [requestComplete, if_pos hs, rxRead_eq hbc]
  exact finishRead_next_iff.2 ⟨_, rfl, rfl⟩

theorem completeTxn_of_requestFrom {s : State} (hop : s.pend.extractLsb' 0 8 = 0x20#8) :
    completeTxn s = requestComplete s := if_pos hop

/-- Settles O33: in COMPLETE the byte count at RXBUF[2] is the result; the failing clause is that of
every transaction. -/
theorem requestCompletesWithTheByteCount : Obligations.RequestCompletesWithTheByteCount := by
  refine fun s hop => ⟨fun bc hs hbc => ?_, completeTxn_failed⟩
  rw [completeTxn_of_requestFrom hop]
  exact requestComplete_of_complete hs hbc

end Machine
end Sys2Proof
end

section
/-! The decoder and the encoder (30_encoding.md R80 to R89): each reads back what the other
wrote. -/

namespace Sys2Proof

/-! ### The row of a command -/

/-- The format of each command (R84, R85). -/
def Instr.format : Instr → Format
  | .crcReset | .crcRead | .readRxlen | .readState | .readCurSlave | .readTimeout => .N
  | .crcFeed _ => .BY
  | .buildRequest _ _ _ _ | .requestFrom _ _ _ _ => .RQ
  | .setTimeout _ => .TM
  | .decBit _ _ => .BT
  | .decByte _ | .readTxbuf _ | .readRxbuf _ => .IX
  | .decWord16 _ _ => .D16
  | .decDword32 _ _ _ => .D32
  | .coilRead _ _ _ | .discreteInputRead _ _ _ => .W1
  | .holdingRegisterRead _ _ _ _ _ _ | .inputRegisterRead _ _ _ _ _ _ => .W2

theorem findRow_op (i : Instr) : findRow i.op opTable = some ⟨i.op, i.format⟩ := by
  cases i <;> rfl

theorem fitsItsTableRow (i : Instr) : Laws.FitsItsTableRow.Statement i := by
  cases i with
  | crcReset => exact Laws.FitsItsTableRow.crcReset
  | crcFeed => exact Laws.FitsItsTableRow.crcFeed _
  | crcRead => exact Laws.FitsItsTableRow.crcRead
  | buildRequest => exact Laws.FitsItsTableRow.buildRequest _ _ _ _
  | requestFrom => exact Laws.FitsItsTableRow.requestFrom _ _ _ _
  | setTimeout => exact Laws.FitsItsTableRow.setTimeout _
  | decBit => exact Laws.FitsItsTableRow.decBit _ _
  | decByte => exact Laws.FitsItsTableRow.decByte _
  | decWord16 => exact Laws.FitsItsTableRow.decWord16 _ _
  | decDword32 => exact Laws.FitsItsTableRow.decDword32 _ _ _
  | coilRead => exact Laws.FitsItsTableRow.coilRead _ _ _
  | discreteInputRead => exact Laws.FitsItsTableRow.discreteInputRead _ _ _
  | holdingRegisterRead => exact Laws.FitsItsTableRow.holdingRegisterRead _ _ _ _ _ _
  | inputRegisterRead => exact Laws.FitsItsTableRow.inputRegisterRead _ _ _ _ _ _
  | readTxbuf => exact Laws.FitsItsTableRow.readTxbuf _
  | readRxbuf => exact Laws.FitsItsTableRow.readRxbuf _
  | readRxlen => exact Laws.FitsItsTableRow.readRxlen
  | readState => exact Laws.FitsItsTableRow.readState
  | readCurSlave => exact Laws.FitsItsTableRow.readCurSlave
  | readTimeout => exact Laws.FitsItsTableRow.readTimeout

theorem encode_and_mask (i : Instr) : encode i &&& i.format.mask = i.op.setWidth 64 := by
  obtain ⟨row, hrow, hmask⟩ := fitsItsTableRow i
  rw [fieldOp_encode, findRow_op] at hrow
  cases hrow
  exact hmask

/-! ### The checks of `decode`, one condition each -/

/-- The third check of R89: DEFAULT_SLAVE = 1 with SLAVE /= 0 in a read wrapper's format. -/
def slaveClash (f : Format) (cw : CmdWord) : Bool :=
  f.hasSlaveFlag && fieldDefault cw && fieldSlave cw != 0#8

/-- A word decodes to the command its fields assemble to, once it has passed the three checks. -/
theorem decode_eq_ok_iff {cw : CmdWord} {i : Instr} :
    decode cw = .ok i ↔ ∃ row, findRow (fieldOp cw) opTable = some row ∧
      cw &&& row.format.mask = row.op.setWidth 64 ∧ slaveClash row.format cw = false ∧
      assembleFields cw = some i := by
  unfold decode
  cases findRow (fieldOp cw) opTable with
  | none => simp
  | some row =>
    have hdef : (row.format.hasSlaveFlag && fieldDefault cw && fieldSlave cw != 0#8) =
        slaveClash row.format cw := rfl
    by_cases hmask : cw &&& row.format.mask = row.op.setWidth 64
    · cases hclash : slaveClash row.format cw <;> cases assembleFields cw <;>
        simp [hmask, hdef, hclash]
    · simp [hmask]

theorem slaveClash_encode {i : Instr} (h : i.wf = true) :
    slaveClash i.format (encode i) = false := by
  cases i with
  | coilRead dflt | discreteInputRead dflt | holdingRegisterRead _ _ dflt
  | inputRegisterRead _ _ dflt =>
    cases dflt <;>
      simp_all [slaveClash, Instr.format, Format.hasSlaveFlag, encode, Instr.wf, slaveOk]
  | _ => rfl

theorem assembleFields_encode (i : Instr) : assembleFields (encode i) = some i := by
  unfold assembleFields
  rw [fieldOp_encode]
  cases i <;> simp [Instr.op, encode]

/-- Settles O2: the word of a command passes the three checks of R89, and its fields are read
back. -/
theorem decodeOfEncodeIsTheCommand : Obligations.DecodeOfEncodeIsTheCommand := fun i hwf =>
  decode_eq_ok_iff.2 ⟨⟨i.op, i.format⟩, by rw [fieldOp_encode, findRow_op], encode_and_mask i,
    slaveClash_encode hwf, assembleFields_encode i⟩

end Sys2Proof
end

section
/-! The encoder on a decoded word, and the three reasons for a rejection (30_encoding.md R84 to
R89). -/

namespace Sys2Proof

/-! ### A word's fixed bits, field by field -/

/-- FLAGS = CW[31:24] (R80). -/
def fieldFlags (cw : CmdWord) : Byte := cw.extractLsb' 24 8

theorem packWord_of_fields (cw : CmdWord) :
    packWord (fieldOp cw) (fieldSlave cw) (fieldFc cw) (fieldFlags cw) (fieldA cw) (fieldB cw) =
      cw := packWord_fields cw

/-- `(CW & mask) = match` for a mask that fixes OP: OP is the row's and each other field is 0 where
its mask is 1. -/
theorem and_packWord_eq_iff {cw : CmdWord} {op ms mf ml : Byte} {ma mb : Half} :
    cw &&& packWord 255 ms mf ml ma mb = op.setWidth 64 ↔
      fieldOp cw = op ∧ fieldSlave cw &&& ms = 0 ∧ fieldFc cw &&& mf = 0 ∧
        fieldFlags cw &&& ml = 0 ∧ fieldA cw &&& ma = 0 ∧ fieldB cw &&& mb = 0 := by
  have hop : fieldOp cw &&& 255 = fieldOp cw := BitVec.and_allOnes
  conv_lhs => rw [← packWord_of_fields cw]
  rw [packWord_and_mask, setWidth_eq_packWord, packWord_inj, hop]

theorem and_allOnes8 (x : Byte) : x &&& 255 = x := BitVec.and_allOnes
theorem and_allOnes16 (x : Half) : x &&& 65535 = x := BitVec.and_allOnes

/-! ### The FLAGS byte and its three bits -/

theorem fieldSigned_eq (cw : CmdWord) : fieldSigned cw = (fieldFlags cw).getLsbD 0 := by
  simp [fieldSigned, fieldFlags]
theorem fieldHighFirst_eq (cw : CmdWord) : fieldHighFirst cw = (fieldFlags cw).getLsbD 1 := by
  simp [fieldHighFirst, fieldFlags]
theorem fieldDefault_eq (cw : CmdWord) : fieldDefault cw = (fieldFlags cw).getLsbD 2 := by
  simp [fieldDefault, fieldFlags]

/-! A FLAGS byte with no unused bit set is packed from its flags, in each format that has some. -/

section
variable {cw : CmdWord}

theorem packFlags_of_and_W2 (h : fieldFlags cw &&& 248 = 0) :
    packFlags (fieldSigned cw) (fieldHighFirst cw) (fieldDefault cw) = fieldFlags cw := by
  rw [fieldSigned_eq, fieldHighFirst_eq, fieldDefault_eq]
  revert h
  generalize fieldFlags cw = f
  revert f; decide
theorem packFlags_of_and_W1 (h : fieldFlags cw &&& 251 = 0) :
    packFlags false false (fieldDefault cw) = fieldFlags cw := by
  rw [fieldDefault_eq]
  revert h
  generalize fieldFlags cw = f
  revert f; decide
theorem packFlags_of_and_D32 (h : fieldFlags cw &&& 252 = 0) :
    packFlags (fieldSigned cw) (fieldHighFirst cw) false = fieldFlags cw := by
  rw [fieldSigned_eq, fieldHighFirst_eq]
  revert h
  generalize fieldFlags cw = f
  revert f; decide
theorem packFlags_of_and_D16 (h : fieldFlags cw &&& 254 = 0) :
    packFlags (fieldSigned cw) false false = fieldFlags cw := by
  rw [fieldSigned_eq]
  revert h
  generalize fieldFlags cw = f
  revert f; decide

end

theorem setWidth_fieldT32 (cw : CmdWord) : (fieldT32 cw).setWidth 16 = fieldA cw := by
  ext i h
  simp [fieldT32, fieldA, show i < 32 by omega]
theorem extractLsb'_fieldT32 (cw : CmdWord) : (fieldT32 cw).extractLsb' 16 16 = fieldB cw := by
  ext i h
  simp [fieldT32, fieldB, show 16 + i < 32 by omega, show 32 + (16 + i) = 48 + i by omega]

/-! ### The command of a word -/

theorem assembleFields_op {cw : CmdWord} {i : Instr} (h : assembleFields cw = some i) :
    fieldOp cw = i.op := by
  apply BitVec.eq_of_toNat_eq
  unfold assembleFields at h
  split at h <;> cases h <;> assumption

/-- A word with the fixed bits of its command's format is the command's word: each field is either
read into the command or 0. -/
theorem encode_of_fixedBits {cw : CmdWord} {i : Instr} (h : assembleFields cw = some i)
    (hmask : cw &&& i.format.mask = i.op.setWidth 64) : encode i = cw := by
  have hop := assembleFields_op h
  unfold assembleFields at h
  split at h <;> cases h
  all_goals
    simp only [Instr.format, mask_N, mask_BY, mask_RQ, mask_TM, mask_IX, mask_BT, mask_D16,
      mask_D32, mask_W1, mask_W2, and_packWord_eq_iff, and_allOnes8, and_allOnes16] at hmask
    obtain ⟨-, hslave, hfc, hflags, ha, hb⟩ := hmask
    conv_rhs => rw [← packWord_of_fields cw, hop]
  case h_6.refl =>
    simp [encode, packTimeout_eq_packWord, hslave, hfc, hflags, setWidth_fieldT32,
      extractLsb'_fieldT32]
  case h_9.refl => simp [encode, packFlags_of_and_D16 hflags, hslave, hfc, hb]
  case h_10.refl => simp [encode, packFlags_of_and_D32 hflags, hslave, hfc, hb]
  case h_11.refl | h_12.refl => simp [encode, packFlags_of_and_W1 hflags, hfc, hb]
  case h_13.refl | h_14.refl => simp [encode, packFlags_of_and_W2 hflags, hfc]
  all_goals simp [encode, hslave, hfc, hflags, ha, hb]

theorem wf_of_slaveClash {cw : CmdWord} {i : Instr} (h : assembleFields cw = some i)
    (hclash : slaveClash i.format cw = false) : i.wf = true := by
  unfold assembleFields at h
  split at h <;> cases h
  case h_11.refl | h_12.refl | h_13.refl | h_14.refl =>
    simpa [slaveClash, Instr.format, Format.hasSlaveFlag, Instr.wf, slaveOk,
      Classical.or_iff_not_imp_left] using hclash
  all_goals rfl

/-- Settles O3: the fields a decoded word does not pass to its command are fixed by the format's
mask, so the encoder writes the same word; the DEFAULT_SLAVE check is well-formedness. -/
theorem encodeOfDecodeIsTheWord : Obligations.EncodeOfDecodeIsTheWord := by
  intro cw i h
  obtain ⟨row, hrow, hmask, hclash, hasm⟩ := decode_eq_ok_iff.1 h
  obtain rfl : row = ⟨i.op, i.format⟩ := by
    rw [assembleFields_op hasm, findRow_op] at hrow
    exact (Option.some.inj hrow).symm
  exact ⟨wf_of_slaveClash hasm hclash, encode_of_fixedBits hasm hmask⟩

end Sys2Proof
end

section
/-! Which words are rejected (30_encoding.md R86 to R89), and words of the spec's tables. -/

namespace Sys2Proof
open Machine

/-! ### Unused bits -/

/-- A range of bits is 0 exactly when each of its bits is. -/
theorem extractLsb'_eq_zero_iff (cw : CmdWord) (k n : Nat) :
    cw.extractLsb' k n = 0#n ↔ ∀ j, k ≤ j → j < k + n → cw.getLsbD j = false := by
  constructor
  · intro h j hk hn
    have hj := congrArg (fun x => x.getLsbD (j - k)) h
    simpa [show j - k < n by omega, show k + (j - k) = j by omega] using hj
  · intro h
    apply BitVec.eq_of_getLsbD_eq
    intro j hj
    simpa [hj] using h (k + j) (by omega) (by omega)

/-- The bit ranges a format leaves unused, low bit and width: those of R84's columns it does not
name. -/
def Format.unused : Format → List (Nat × Nat)
  | .N => [(8, 56)]
  | .BY => [(16, 48)]
  | .RQ => [(24, 8)]
  | .TM | .BT => [(8, 24)]
  | .IX => [(8, 24), (48, 16)]
  | .D16 => [(8, 16), (25, 7), (48, 16)]
  | .D32 => [(8, 16), (26, 6), (48, 16)]
  | .W1 => [(16, 8), (24, 2), (27, 5), (48, 16)]
  | .W2 => [(16, 8), (27, 5)]

theorem unusedBitSet_of_row {cw : CmdWord} {row : OpRow}
    (h : findRow (fieldOp cw) opTable = some row) :
    unusedBitSet cw = row.format.unused.any fun r => cw.extractLsb' r.1 r.2 != 0#r.2 := by
  obtain ⟨hmem, hop⟩ := findRow_some h
  unfold unusedBitSet
  rw [← hop]
  simp only [opTable, List.cons_append, List.nil_append, List.mem_cons, List.not_mem_nil,
    or_false] at hmem
  rcases hmem with h|h|h|h|h|h|h|h|h|h|h|h|h|h|h|h|h|h|h|h <;> subst h <;>
    simp [Format.unused, Bool.or_assoc]

/-- A mask is 1 on OP and on the unused ranges, and nowhere else. -/
theorem getLsbD_mask (f : Format) {j : Nat} (hj : j < 64) :
    f.mask.getLsbD j =
      (decide (j < 8) || f.unused.any fun r => decide (r.1 ≤ j) && decide (j < r.1 + r.2)) := by
  revert j
  cases f <;> decide

theorem unused_bounds {f : Format} {r : Nat × Nat} (h : r ∈ f.unused) :
    8 ≤ r.1 ∧ r.1 + r.2 ≤ 64 := by
  revert r
  cases f <;> decide

/-- The mask's check, read as R84's "fields used" column: no unused range holds a 1. -/
theorem and_mask_eq_iff (f : Format) (cw : CmdWord) :
    cw &&& f.mask = (fieldOp cw).setWidth 64 ↔
      (f.unused.any fun r => cw.extractLsb' r.1 r.2 != 0#r.2) = false := by
  have hop (j : Nat) : (fieldOp cw).getLsbD j = (decide (j < 8) && cw.getLsbD j) := by
    simp [fieldOp]
  simp only [List.any_eq_false, bne_iff_ne, ne_eq, not_not, extractLsb'_eq_zero_iff]
  constructor
  · intro h r hr j hlo hhi
    obtain ⟨h8, h64⟩ := unused_bounds hr
    have hbit := congrArg (fun x => x.getLsbD j) h
    have hunused : (f.unused.any fun r => decide (r.1 ≤ j) && decide (j < r.1 + r.2)) = true :=
      List.any_eq_true.2 ⟨r, hr, by simp [hlo, hhi]⟩
    simpa [hop, getLsbD_mask f (show j < 64 by omega), hunused, show ¬ j < 8 by omega] using hbit
  · intro h
    apply BitVec.eq_of_getLsbD_eq
    intro j hj
    rw [BitVec.getLsbD_and, BitVec.getLsbD_setWidth, hop, getLsbD_mask f hj]
    by_cases h8 : j < 8
    · simp [h8, hj]
    · cases hb : cw.getLsbD j with
      | false => simp
      | true =>
        have hfree :
            (f.unused.any fun r => decide (r.1 ≤ j) && decide (j < r.1 + r.2)) = false := by
          refine List.any_eq_false.2 fun r hr hin => ?_
          simp only [Bool.and_eq_true, decide_eq_true_eq] at hin
          rw [h r hr j hin.1 hin.2] at hb
          cases hb
        simp [h8, hfree]

/-! ### The three reasons -/

theorem findRow_eq_none_iff (op : Byte) :
    findRow op opTable = none ↔ reservedOp op.toNat = true := by
  revert op; decide

theorem hasSlaveFlag_of_row {op : Byte} {row : OpRow} (h : findRow op opTable = some row) :
    row.format.hasSlaveFlag = wrapperOp op.toNat := by
  revert h row op; decide

theorem wrapperOp_of_reservedOp {op : Byte} (h : reservedOp op.toNat = true) :
    wrapperOp op.toNat = false := by
  revert op; decide

theorem assembleFields_of_row {cw : CmdWord} {row : OpRow}
    (h : findRow (fieldOp cw) opTable = some row) : ∃ i, assembleFields cw = some i := by
  obtain ⟨hmem, hop⟩ := findRow_some h
  unfold assembleFields
  rw [← hop]
  simp only [opTable, List.cons_append, List.nil_append, List.mem_cons, List.not_mem_nil,
    or_false] at hmem
  rcases hmem with h|h|h|h|h|h|h|h|h|h|h|h|h|h|h|h|h|h|h|h <;> subst h <;> exact ⟨_, rfl⟩

theorem decode_of_no_row {cw : CmdWord} (h : findRow (fieldOp cw) opTable = none) :
    decode cw = .error .reservedOpcode := by
  simp [decode, h]

/-- With OP in the table, `decode` tests the unused bits and then the slave flag. -/
theorem decode_of_row {cw : CmdWord} {row : OpRow}
    (h : findRow (fieldOp cw) opTable = some row) :
    ∃ i, decode cw =
      if unusedBitSet cw then .error .reservedBits
      else if slaveClash row.format cw then .error .defaultSlaveWithSlave
      else .ok i := by
  obtain ⟨i, hi⟩ := assembleFields_of_row h
  have hmask := and_mask_eq_iff row.format cw
  rw [← unusedBitSet_of_row h, ← (findRow_some h).2] at hmask
  refine ⟨i, ?_⟩
  unfold decode
  simp only [h, hmask, hi]
  cases unusedBitSet cw <;> simp [slaveClash]

/-- Settles O4: R89's order of the checks. A reserved OP has no row; with a row the mask is the test
of the unused bits, and the row of a read wrapper alone has the flag. -/
theorem wordsAreRejectedForTheRulesReasons : Obligations.WordsAreRejectedForTheRulesReasons := by
  intro cw
  cases hrow : findRow (fieldOp cw) opTable with
  | none =>
    have hres := (findRow_eq_none_iff _).1 hrow
    simp [decode_of_no_row hrow, hres, wrapperOp_of_reservedOp hres]
  | some row =>
    obtain ⟨i, hdec⟩ := decode_of_row hrow
    have hres : reservedOp (fieldOp cw).toNat = false := by
      rw [← Bool.not_eq_true, ← findRow_eq_none_iff, hrow]
      simp
    have hclash : slaveClash row.format cw = true ↔ wrapperOp (fieldOp cw).toNat = true ∧
        cw.getLsbD 26 = true ∧ cw.extractLsb' 8 8 ≠ 0#8 := by
      simp [slaveClash, hasSlaveFlag_of_row hrow, fieldDefault, fieldSlave, and_assoc]
    rw [hdec, hres, ← hclash]
    cases unusedBitSet cw <;> cases slaveClash row.format cw <;> simp

/-! ### Words of the tables -/

/-- Settles O1: each word is decoded. -/
theorem specWordsDecodeToTheirCommands : Obligations.SpecWordsDecodeToTheirCommands := by
  unfold Obligations.SpecWordsDecodeToTheirCommands
  decide

end Sys2Proof
end

section
/-! The assembler (30_encoding.md R93): it reads back the line of each well-formed command, and no
other line. -/

namespace Sys2Proof
namespace Machine

/-- An operand fits its field exactly when it is a value of the field. -/
theorem fitField_eq_some_iff {w n : Nat} {v : BitVec w} : fitField w n = some v ↔ v.toNat = n := by
  unfold fitField
  split
  · rename_i h
    rw [Option.some.injEq, ← BitVec.toNat_inj, BitVec.toNat_ofNat, Nat.mod_eq_of_lt h, eq_comm]
  · rename_i h
    simp only [reduceCtorEq, false_iff]
    rintro rfl
    exact h v.isLt

@[simp] theorem fitField_toNat {w : Nat} (v : BitVec w) : fitField w v.toNat = some v :=
  fitField_eq_some_iff.2 rfl

theorem fitField_eq_none {w n : Nat} (h : 2 ^ w ≤ n) : fitField w n = none :=
  if_neg (Nat.not_lt.2 h)

/-- `*` is DEFAULT_SLAVE with SLAVE 0, and a number is the slave itself. -/
theorem slaveOperand_eq_some_iff {o : AsmOperand} {dflt : Bool} {slave : Byte} :
    slaveOperand o = some (dflt, slave) ↔ slaveOk dflt slave = true ∧ slaveText dflt slave = o := by
  cases o with
  | num n =>
    cases dflt <;>
      simp [slaveOperand, slaveOk, slaveText, fitField_eq_some_iff]
  | star =>
    cases dflt
    · simp [slaveOperand, slaveText]
    · simpa [slaveOperand, slaveOk, slaveText] using eq_comm

theorem slaveOperand_slaveText {dflt : Bool} {slave : Byte} (h : slaveOk dflt slave = true) :
    slaveOperand (slaveText dflt slave) = some (dflt, slave) :=
  slaveOperand_eq_some_iff.2 ⟨h, rfl⟩

theorem assemble_asmLine {i : Instr} (h : i.wf = true) : assemble (asmLine i) = some i := by
  cases i with
  | coilRead | discreteInputRead | holdingRegisterRead | inputRegisterRead =>
    simp [asmLine, assemble, assemblePlain, slaveOperand_slaveText h]
  | _ => simp [asmLine, plainLine, assemble, assemblePlain]

theorem asmLine_of_assemblePlain {mn : Mnemonic} {ops : List AsmOperand} {i : Instr}
    (h : assemblePlain mn ops = some i) : i.wf = true ∧ asmLine i = ⟨mn, false, false, ops⟩ := by
  unfold assemblePlain at h
  split at h
  all_goals
    simp only [Option.bind_eq_bind, Option.bind_eq_some_iff, Option.pure_def, Option.some.injEq,
      fitField_eq_some_iff, Prod.exists, slaveOperand_eq_some_iff, reduceCtorEq] at h
  case h_1 | h_3 | h_13 | h_14 | h_15 | h_16 => subst h; exact ⟨rfl, rfl⟩
  case h_2 | h_6 | h_8 | h_11 | h_12 => obtain ⟨a, rfl, rfl⟩ := h; exact ⟨rfl, rfl⟩
  case h_7 => obtain ⟨a, rfl, b, rfl, rfl⟩ := h; exact ⟨rfl, rfl⟩
  case h_4 | h_5 => obtain ⟨a, rfl, b, rfl, c, rfl, d, rfl, rfl⟩ := h; exact ⟨rfl, rfl⟩
  case h_9 | h_10 => obtain ⟨dflt, slave, ⟨hok, rfl⟩, a, rfl, rfl⟩ := h; exact ⟨hok, rfl⟩

theorem asmLine_of_assemble {l : AsmLine} {i : Instr} (h : assemble l = some i) :
    i.wf = true ∧ asmLine i = l := by
  obtain ⟨mn, high, signed, ops⟩ := l
  unfold assemble at h
  dsimp only at h
  split at h
  all_goals
    simp only [Option.bind_eq_bind, Option.bind_eq_some_iff, Option.pure_def, Option.some.injEq,
      fitField_eq_some_iff, Prod.exists, slaveOperand_eq_some_iff,
      Option.ite_none_left_eq_some] at h
  case h_1 =>
    obtain ⟨hh, a, rfl, rfl⟩ := h
    simp [Instr.wf, asmLine, hh]
  case h_2 => obtain ⟨a, rfl, rfl⟩ := h; exact ⟨rfl, rfl⟩
  case h_3 | h_4 =>
    obtain ⟨dflt, slave, ⟨hok, rfl⟩, a, rfl, b, rfl, rfl⟩ := h
    exact ⟨hok, rfl⟩
  case h_5 =>
    obtain ⟨hsuffix, h⟩ := h
    simp only [Bool.or_eq_true, not_or, Bool.not_eq_true] at hsuffix
    rw [hsuffix.1, hsuffix.2]
    exact asmLine_of_assemblePlain h

/-- Settles O5: a command's line is assembled by evaluation, and an assembled line is the command's
by the operands' ranges, mnemonic by mnemonic. -/
theorem assemblerInvertsTheCommandsLine : Obligations.AssemblerInvertsTheCommandsLine := by
  refine ⟨fun l i => ⟨asmLine_of_assemble, ?_⟩, fun b hb => ?_⟩
  · rintro ⟨hwf, rfl⟩
    exact assemble_asmLine hwf
  · simp [assemble, assemblePlain, fitField_eq_none (w := 8) hb]

end Machine
end Sys2Proof
end

section
/-! The cases of a step, said of the state before it: the next move taken off the schedule is
written out, so that a case's proof need not look for it. -/

namespace Sys2Proof
namespace Machine

/-- `step_next_induction` with the state the move runs on written as an update of `s`. -/
theorem step_induction {s t : State} {P : State → Prop} (h : step s = .next t)
    (busy : ∀ cw ms mi, (nextMove s).1 = .host cw → s.busy = true →
      P { s with moves := ms, moveIdx := mi, dutyViolated := true })
    (malformed : ∀ cw ms mi, (nextMove s).1 = .host cw → s.busy = false →
      P (raiseFree .illegalCommand (accept cw { s with moves := ms, moveIdx := mi })))
    (runs : ∀ cw ms mi i v, (nextMove s).1 = .host cw → s.busy = false → decode cw = .ok i →
      acceptedNext s = some i → ExecTo i (accept cw { s with moves := ms, moveIdx := mi }) v → P v)
    (engine : ∀ ms mi v, (nextMove s).1 = .engine →
      EngineTo { s with moves := ms, moveIdx := mi } v → P v)
    (deliver : ∀ ms mi b, (nextMove s).1 = .deliver b →
      P (lineDeliver b { s with moves := ms, moveIdx := mi }))
    (send : ∀ ms mi, (nextMove s).1 = .send → P (lineSend { s with moves := ms, moveIdx := mi }))
    (tick : ∀ ms mi, (nextMove s).1 = .tick → P (clockStep { s with moves := ms, moveIdx := mi }))
    (reset : ∀ ms mi, (nextMove s).1 = .reset →
      P (engineReset { s with moves := ms, moveIdx := mi })) : P t := by
  obtain ⟨ms, mi, hu⟩ := eq_of_nextMove (s := s) rfl
  refine step_next_induction h ?_ ?_ ?_ ?_ ?_ ?_ ?_ ?_ <;> rw [hu]
  · rintro cw _ hm rfl hb
    exact busy cw ms mi hm hb
  · rintro cw _ _ hm rfl hb -
    exact malformed cw ms mi hm hb
  · rintro cw _ i v hm rfl hb hd hi hv
    exact runs cw ms mi i v hm hb hd hi hv
  · rintro _ v hm rfl hv
    exact engine ms mi v hm hv
  · rintro _ b hm rfl
    exact deliver ms mi b hm
  · rintro _ hm rfl
    exact send ms mi hm
  · rintro _ hm rfl
    exact tick ms mi hm
  · rintro _ hm rfl
    exact reset ms mi hm

end Machine
end Sys2Proof
end

section
/-! BUSY and the direction output through every step (10_state.md R23, 41_framer_transport.md
R146). -/

namespace Sys2Proof
namespace Machine

/-! ### The direction output, by STATE -/

theorem dirOk_of_not_transmitting {s : State} (ht : s.txnState.transmitting = false)
    (hdir : s.params.dirPresent = true → s.dir = s.params.dirRxLevel) : dirOk s := by
  unfold dirOk
  split
  · rw [hdir ‹_›, ht]; rfl
  · constructor <;> (intro h; rw [h] at ht; cases ht)

theorem dirOk_of_transmitting {s : State} (ht : s.txnState.transmitting = true)
    (hp : s.params.dirPresent = true) (hdir : s.dir = s.params.dirTxLevel) : dirOk s := by
  rw [dirOk, if_pos hp, ht, hdir, if_pos rfl]

theorem dirOk_txSending {s : State} (ht : s.txnState = .txSending)
    (hdir : s.params.dirPresent = true → s.dir = s.params.dirTxLevel) : dirOk s := by
  unfold dirOk
  split
  · rw [hdir ‹_›, ht]; rfl
  · rw [ht]; decide

section
variable {s : State} (h : dirOk s)
include h

theorem dirOk.rxLevel (ht : s.txnState.transmitting = false) (hp : s.params.dirPresent = true) :
    s.dir = s.params.dirRxLevel := by
  rw [dirOk, if_pos hp, ht] at h
  exact h

theorem dirOk.txLevel (ht : s.txnState.transmitting = true) (hp : s.params.dirPresent = true) :
    s.dir = s.params.dirTxLevel := by
  rw [dirOk, if_pos hp, ht] at h
  exact h

/-- A settling state is only entered with a direction output. -/
theorem dirOk.dirPresent (ht : s.txnState = .txSettlePre ∨ s.txnState = .txSettlePost) :
    s.params.dirPresent = true := by
  by_contra hp
  rw [dirOk, if_neg hp] at h
  exact ht.elim h.1 h.2

end

theorem not_transmitting_of_not_active {t : TxnState} (h : t.active = false) :
    t.transmitting = false := (Bool.or_eq_false_iff.1 h).1

theorem not_transmitting_of_receiving {t : TxnState} (h : t.receiving = true) :
    t.transmitting = false := by
  cases t with
  | awaitingSync | headerCaptured | accumulating => rfl
  | _ => cases h

theorem transmitting_iff (t : TxnState) :
    t.transmitting = true ↔ t = .txSettlePre ∨ t = .txSending ∨ t = .txSettlePost := by
  cases t <;> simp [TxnState.transmitting]

theorem receiving_iff (t : TxnState) :
    t.receiving = true ↔ t = .awaitingSync ∨ t = .headerCaptured ∨ t = .accumulating := by
  cases t <;> simp [TxnState.receiving]

theorem active_of_transmitting {t : TxnState} (h : t.transmitting = true) : t.active = true := by
  rw [TxnState.active, h, Bool.true_or]

theorem active_of_receiving {t : TxnState} (h : t.receiving = true) : t.active = true := by
  rw [TxnState.active, h, Bool.or_true]

/-! ### Commands, bytes taken and engine steps -/

section
variable {s t : State}

/-- A completion in a state without a transaction. -/
theorem OnlyCompletes.keeps_mode (h : OnlyCompletes s t) (ha : s.txnState.active = false)
    (hd : dirOk s) : busyOk t ∧ dirOk t := by
  have ht : t.txnState.transmitting = false := by
    rw [h.txnState]; exact not_transmitting_of_not_active ha
  refine ⟨by rw [busyOk, h.busy, h.txnState, ha], dirOk_of_not_transmitting ht fun hp => ?_⟩
  rw [h.params] at hp
  rw [h.dir, h.params]
  exact hd.rxLevel (not_transmitting_of_not_active ha) hp

theorem StartedTransaction.keeps_mode {slave fc : Byte} {start qty : Half}
    (h : StartedTransaction slave fc start qty s t) (hb : s.busy = true) :
    busyOk t ∧ dirOk t := by
  rcases h.cases with ⟨hp, h⟩ | ⟨hp, h⟩ <;> rw [h]
  · exact ⟨hb, dirOk_of_transmitting rfl hp rfl⟩
  · exact ⟨hb, dirOk_txSending rfl fun hp' => absurd (hp.symm.trans hp') (by simp)⟩

theorem ExecTo.keeps_mode {i : Instr} (h : ExecTo i s t) (hb : s.busy = true)
    (ha : s.txnState.active = false) (hd : dirOk s) : busyOk t ∧ dirOk t := by
  have complete {u v : State} (hv : OnlyCompletes u v) (hu : u.txnState = s.txnState)
      (hdir : dirOk u) : busyOk v ∧ dirOk v := hv.keeps_mode (hu ▸ ha) hdir
  cases h with
  | completes h => exact complete h rfl hd
  | crcReset => exact complete (onlyCompletes_finish _ _) rfl hd
  | crcFeed => exact complete (onlyCompletes_finish _ _) rfl hd
  | builds => exact complete (onlyCompletes_finish _ _) rfl hd
  | setsTimeout => exact complete (onlyCompletes_finish _ _) rfl hd
  | unsupported =>
    refine (onlyCompletes_raise _ _ _).keeps_mode rfl (dirOk_of_not_transmitting rfl ?_)
    exact hd.rxLevel (not_transmitting_of_not_active ha)
  | starts _ h => exact (started_of_next h).keeps_mode hb

/-- A byte taken leaves the receiving states only by completing the transaction. -/
theorem TakeTo.keeps_mode {b : Byte} (h : TakeTo b s t) (hb : s.busy = true)
    (hdir : s.params.dirPresent = true → s.dir = s.params.dirRxLevel) : busyOk t ∧ dirOk t := by
  cases h with
  | searches hs =>
    have hr : s.txnState.receiving = true := by rw [hs]; rfl
    exact ⟨hb.trans (active_of_receiving hr).symm,
      dirOk_of_not_transmitting (not_transmitting_of_receiving hr) hdir⟩
  | synced => exact ⟨hb, dirOk_of_not_transmitting rfl hdir⟩
  | header => exact ⟨hb, dirOk_of_not_transmitting rfl hdir⟩
  | appends hs =>
    have hr : s.txnState.receiving = true := by rw [hs]; rfl
    exact ⟨hb.trans (active_of_receiving hr).symm,
      dirOk_of_not_transmitting (not_transmitting_of_receiving hr) hdir⟩
  | validates hs _ _ hu _ _ _ _ h =>
    subst hu
    refine (completeTxn_onlyCompletes h).keeps_mode ?_ (dirOk_of_not_transmitting ?_ hdir) <;>
      · dsimp only; split <;> rfl

theorem EngineTo.keeps_mode (h : EngineTo s t) (hb : busyOk s) (hd : dirOk s) :
    busyOk t ∧ dirOk t := by
  cases h with
  | waits => exact ⟨hb, hd⟩
  | sends hs =>
    rw [busyOk, hs] at hb
    exact ⟨hb, dirOk_txSending rfl (hd.txLevel (by rw [hs]; rfl))⟩
  | settles hs _ hp =>
    rw [busyOk, hs] at hb
    exact ⟨hb, dirOk_of_transmitting rfl hp (hd.txLevel (by rw [hs]; rfl) hp)⟩
  | listens hs _ hp =>
    rw [busyOk, hs] at hb
    exact ⟨hb, dirOk_of_not_transmitting rfl fun hp' => absurd (hp.symm.trans hp') (by simp)⟩
  | turns hs =>
    rw [busyOk, hs] at hb
    exact ⟨hb, dirOk_of_not_transmitting rfl fun _ => if_pos (hd.dirPresent (.inr hs))⟩
  | timesOut hr =>
    refine (onlyCompletes_raise _ _ _).keeps_mode rfl (dirOk_of_not_transmitting rfl ?_)
    exact hd.rxLevel (not_transmitting_of_receiving hr)
  | takes hr _ _ h =>
    exact h.keeps_mode (hb.trans (active_of_receiving hr))
      (hd.rxLevel (not_transmitting_of_receiving hr))

end

theorem engineReset_mode (s : State) : busyOk (engineReset s) ∧ dirOk (engineReset s) :=
  ⟨rfl, dirOk_of_not_transmitting rfl fun hp => if_pos hp⟩

/-- Settles O57: by cases on the step; the host's commands are accepted only without a transaction,
and the clock and the line write neither register. -/
theorem everyStepKeepsBusyAndDirection : Obligations.EveryStepKeepsBusyAndDirection := by
  intro s t hb hd h
  refine step_induction (P := fun t => busyOk t ∧ dirOk t) h
    (busy := fun _ _ _ _ _ => ⟨hb, hd⟩)
    (malformed := fun _ _ _ _ hbusy =>
      (onlyCompletes_raiseFree _ _).keeps_mode (hb.symm.trans hbusy) hd)
    (runs := fun _ _ _ _ _ _ hbusy _ _ hv => hv.keeps_mode rfl (hb.symm.trans hbusy) hd)
    (engine := fun _ _ _ _ hv => hv.keeps_mode hb hd)
    (deliver := fun _ _ _ _ => ⟨hb, hd⟩)
    (send := fun _ _ _ => ?_)
    (tick := fun _ _ _ => ⟨hb, hd⟩)
    (reset := fun _ _ _ => engineReset_mode _)
  simpa [busyOk, dirOk] using And.intro hb hd

end Machine
end Sys2Proof
end

section
/-! Both buffers stay canonical and inside their bounds (20_memory.md R60, R69). -/

namespace Sys2Proof
namespace Machine

/-- The accepting step of a transaction writes the frame over TXBUF. -/
theorem startTransaction_txbuf {slave fc : Byte} {start qty : Half} {s t : State}
    (h : startTransaction slave fc start qty s = .next t) :
    t.txbuf = Memory.writeList s.txbuf 0 (frame slave fc start qty) := by
  rw [startTransaction_eq] at h
  dsimp only at h
  split at h <;> cases h <;> rfl

/-! ### The buffers through an update -/

section
variable {s t : State}

theorem buffersOk.congr (h : buffersOk s) (htx : t.txbuf = s.txbuf) (hrx : t.rxbuf = s.rxbuf)
    (hp : t.params = s.params) : buffersOk t := by
  rw [buffersOk, htx, hrx, hp]
  exact h

theorem buffersOk.write_frame (h : buffersOk s) {slave fc : Byte} {start qty : Half}
    (htx : t.txbuf = Memory.writeList s.txbuf 0 (frame slave fc start qty))
    (hrx : t.rxbuf = s.rxbuf) (hp : t.params = s.params) : buffersOk t := by
  obtain ⟨⟨hwf, hlt⟩, hr⟩ := h
  rw [buffersOk, htx, hrx, hp]
  exact ⟨⟨writeList_wf hwf _ _, writeList_lt hlt _ (by simp [Config.txCap])⟩, hr⟩

theorem buffersOk.write_rxbuf (h : buffersOk s) {i : Nat} (hi : i < s.params.rxCap) (b : Byte) :
    buffersOk { s with rxbuf := Memory.write s.rxbuf i b } := by
  obtain ⟨htx, hwf, hlt⟩ := h
  exact ⟨htx, write_wf hwf i b, write_lt hlt hi b⟩

theorem OnlyCompletes.keeps_buffers (h : OnlyCompletes s t) (hs : buffersOk s) : buffersOk t :=
  hs.congr h.txbuf h.rxbuf h.params

/-! ### Commands, bytes taken and engine steps -/

theorem ExecTo.keeps_buffers {i : Instr} (h : ExecTo i s t) (hs : buffersOk s) : buffersOk t := by
  cases h with
  | completes h => exact h.keeps_buffers hs
  | crcReset => exact hs
  | crcFeed => exact hs
  | builds => exact hs.write_frame rfl rfl rfl
  | setsTimeout => exact hs
  | unsupported => exact hs
  | starts _ h =>
    have hst := started_of_next h
    exact hs.write_frame (startTransaction_txbuf h) hst.rxbuf hst.params

theorem TakeTo.keeps_buffers {b : Byte} (h : TakeTo b s t) (hs : buffersOk s) : buffersOk t := by
  cases h with
  | searches => exact hs
  | synced _ _ _ hc =>
    exact (hs.write_rxbuf (Nat.zero_lt_of_lt hc) _).write_rxbuf hc _
  | header _ hc => exact hs.write_rxbuf hc b
  | appends _ hc => exact hs.write_rxbuf hc b
  | validates _ hc _ hu _ _ _ _ h =>
    subst hu
    exact (completeTxn_onlyCompletes h).keeps_buffers (hs.write_rxbuf hc b)

theorem EngineTo.keeps_buffers (h : EngineTo s t) (hs : buffersOk s) : buffersOk t := by
  cases h with
  | takes _ _ _ h => exact h.keeps_buffers hs
  | _ => exact hs

end

theorem engineReset_buffers (s : State) : buffersOk (engineReset s) := by
  simp [buffersOk]

/-- Settles O56: only a frame build writes TXBUF, at 0 to 7, and each store to RXBUF is below
RX_CAP. -/
theorem everyStepKeepsTheBuffersCanonical : Obligations.EveryStepKeepsTheBuffersCanonical := by
  intro s t hs h
  exact step_induction (P := buffersOk) h
    (busy := fun _ _ _ _ _ => hs)
    (malformed := fun _ _ _ _ _ => hs)
    (runs := fun _ _ _ _ _ _ _ _ _ hv => hv.keeps_buffers hs)
    (engine := fun _ _ _ _ hv => hv.keeps_buffers hs)
    (deliver := fun _ _ _ _ => hs)
    (send := fun _ _ _ => hs.congr (lineSend_txbuf _) (lineSend_rxbuf _) (lineSend_params _))
    (tick := fun _ _ _ => hs)
    (reset := fun _ _ _ => engineReset_buffers _)

end Machine
end Sys2Proof
end

section
/-! What a command and an engine step leave unchanged: the registers each of them never writes. -/

namespace Sys2Proof
namespace Machine

/-- The registers no engine step writes are those of `s`. -/
def EngineFrame (s t : State) : Prop :=
  t = { s with
    busy := t.busy, cmdStatus := t.cmdStatus, result := t.result, txnState := t.txnState,
    m := t.m, expLen := t.expLen, rxLen := t.rxLen, tLast := t.tLast, tMark := t.tMark,
    rxbuf := t.rxbuf, dir := t.dir, inq := t.inq, outq := t.outq, freeIdx := t.freeIdx }

/-- The registers no command's accepting step writes are those of `s`. -/
def CommandFrame (s t : State) : Prop :=
  t = { s with
    busy := t.busy, cmdStatus := t.cmdStatus, result := t.result, timeoutMs := t.timeoutMs,
    curSlave := t.curSlave, txnState := t.txnState, m := t.m, rxLen := t.rxLen,
    tMark := t.tMark, txbuf := t.txbuf, crcAcc := t.crcAcc, dir := t.dir, outq := t.outq,
    freeIdx := t.freeIdx }

section
variable {s t : State}

theorem OnlyCompletes.engineFrame (h : OnlyCompletes s t) : EngineFrame s t := by
  rw [h]; rfl

theorem OnlyCompletes.commandFrame (h : OnlyCompletes s t) : CommandFrame s t := by
  rw [h]; rfl

theorem EngineFrame.trans {u : State} (h : EngineFrame s t) (h' : EngineFrame t u) :
    EngineFrame s u := by
  rw [h', h]; rfl

theorem TakeTo.engineFrame {b : Byte} (h : TakeTo b s t) : EngineFrame s t := by
  cases h with
  | searches => rfl
  | synced => rfl
  | header => rfl
  | appends => rfl
  | validates _ _ _ hu _ _ _ _ h =>
    subst hu
    refine EngineFrame.trans ?_ (completeTxn_onlyCompletes h).engineFrame
    rfl

theorem EngineTo.engineFrame (h : EngineTo s t) : EngineFrame s t := by
  cases h with
  | takes _ _ _ h => refine EngineFrame.trans ?_ h.engineFrame; rfl
  | _ => rfl

theorem StartedTransaction.commandFrame {slave fc : Byte} {start qty : Half}
    (h : StartedTransaction slave fc start qty s t) : CommandFrame s t := by
  rcases h.cases with ⟨-, h⟩ | ⟨-, h⟩ <;> rw [h] <;> rfl

theorem ExecTo.commandFrame {i : Instr} (h : ExecTo i s t) : CommandFrame s t := by
  cases h with
  | completes h => exact h.commandFrame
  | starts _ h => exact (started_of_next h).commandFrame
  | _ => rfl

end

namespace EngineFrame
variable {s t : State} (h : EngineFrame s t)
include h
theorem params : t.params = s.params := by rw [h]
theorem timeoutMs : t.timeoutMs = s.timeoutMs := by rw [h]
theorem curSlave : t.curSlave = s.curSlave := by rw [h]
theorem pend : t.pend = s.pend := by rw [h]
theorem txbuf : t.txbuf = s.txbuf := by rw [h]
theorem crcAcc : t.crcAcc = s.crcAcc := by rw [h]
theorem now : t.now = s.now := by rw [h]
theorem wireTx : t.wireTx = s.wireTx := by rw [h]
theorem moves : t.moves = s.moves := by rw [h]
theorem dutyViolated : t.dutyViolated = s.dutyViolated := by rw [h]
end EngineFrame

namespace CommandFrame
variable {s t : State} (h : CommandFrame s t)
include h
theorem params : t.params = s.params := by rw [h]
theorem pend : t.pend = s.pend := by rw [h]
theorem rxbuf : t.rxbuf = s.rxbuf := by rw [h]
theorem inq : t.inq = s.inq := by rw [h]
theorem wireTx : t.wireTx = s.wireTx := by rw [h]
theorem dutyViolated : t.dutyViolated = s.dutyViolated := by rw [h]
end CommandFrame

end Machine
end Sys2Proof
end

section
/-! The payload of a frame and the decoder's commands (43_decoder.md). -/

namespace Sys2Proof
namespace Machine

/-! ### Values of the payload's bytes -/

theorem toNat_be16 (hi lo : Byte) : (be16 hi lo).toNat = hi.toNat * 256 + lo.toNat := by
  have hhi := hi.isLt
  have hlo := lo.isLt
  have hor := Nat.shiftLeft_add_eq_or_of_lt (i := 8) hlo hi.toNat
  rw [Nat.shiftLeft_eq] at hor
  simp only [be16, BitVec.toNat_or, BitVec.toNat_shiftLeft, BitVec.toNat_setWidth,
    Nat.shiftLeft_eq, Nat.mod_eq_of_lt (show hi.toNat < 2 ^ 16 by omega),
    Nat.mod_eq_of_lt (show lo.toNat < 2 ^ 16 by omega),
    Nat.mod_eq_of_lt (show hi.toNat * 2 ^ 8 < 2 ^ 16 by omega), ← hor]

theorem toNat_joinWords (high low : Half) :
    (joinWords high low).toNat = high.toNat * 65536 + low.toNat := by
  have hhi := high.isLt
  have hlo := low.isLt
  have hor := Nat.shiftLeft_add_eq_or_of_lt (i := 16) hlo high.toNat
  rw [Nat.shiftLeft_eq] at hor
  simp only [joinWords, BitVec.toNat_or, BitVec.toNat_shiftLeft, BitVec.toNat_setWidth,
    Nat.shiftLeft_eq, Nat.mod_eq_of_lt (show high.toNat < 2 ^ 32 by omega),
    Nat.mod_eq_of_lt (show low.toNat < 2 ^ 32 by omega),
    Nat.mod_eq_of_lt (show high.toNat * 2 ^ 16 < 2 ^ 32 by omega), ← hor]

/-- Bit `k` of a payload byte, as a number. -/
theorem payloadBit_eq (p : Byte) (k : Nat) :
    payloadBit p k = if p.getLsbD k then 1#32 else 0#32 := by
  have h1 : ((p >>> k) &&& 1#8) = if p.getLsbD k then 1#8 else 0#8 := by
    ext i hi
    cases i with
    | zero => cases h : p.getLsbD k <;> simp [h]
    | succ i => cases h : p.getLsbD k <;> simp [BitVec.getElem_one]
  rw [payloadBit, h1]
  split <;> rfl

section
variable {s : State}

theorem payload_eq {i : Nat} {p : Byte} (h : Memory.read s.rxbuf (3 + i) = some p) :
    payload s i = .ok p := rxRead_eq h

theorem regWord_eq {r : Nat} {hi lo : Byte} (h0 : Memory.read s.rxbuf (3 + 2 * r) = some hi)
    (h1 : Memory.read s.rxbuf (3 + (2 * r + 1)) = some lo) :
    regWord s r = .ok (be16 hi lo) := by
  simp only [regWord, payload_eq h0, payload_eq h1]
  rfl

theorem w16_eq {r : Nat} {hi lo : Byte} (h0 : Memory.read s.rxbuf (3 + 2 * r) = some hi)
    (h1 : Memory.read s.rxbuf (3 + (2 * r + 1)) = some lo) (signed : Bool) :
    w16 s r signed = .ok (widen signed (be16 hi lo)) := by
  simp only [w16, regWord_eq h0 h1]
  rfl

theorem w32_eq {r : Nat} {b0 b1 b2 b3 : Byte} (h0 : Memory.read s.rxbuf (3 + 2 * r) = some b0)
    (h1 : Memory.read s.rxbuf (3 + (2 * r + 1)) = some b1)
    (h2 : Memory.read s.rxbuf (3 + (2 * r + 2)) = some b2)
    (h3 : Memory.read s.rxbuf (3 + (2 * r + 3)) = some b3) (highFirst : Bool) :
    w32 s r highFirst = .ok (if highFirst then joinWords (be16 b0 b1) (be16 b2 b3)
      else joinWords (be16 b2 b3) (be16 b0 b1)) := by
  simp only [w32, regWord_eq h0 h1, regWord_eq (r := r + 1) h2 h3]
  rfl

end

theorem toNat_widen_unsigned (w : Half) : (widen false w).toNat = w.toNat := by
  have := w.isLt
  simp only [widen, Bool.false_eq_true, if_false, BitVec.toNat_setWidth]
  omega

theorem toInt_widen_signed (w : Half) : (widen true w).toInt = w.toInt := by
  simp [widen, BitVec.toInt_signExtend_of_le]

/-- Settles O39: the word is read big-endian, and widening keeps its integer. -/
theorem word16KeepsItsInteger : Obligations.Word16KeepsItsInteger := fun _ _ hi lo h0 h1 =>
  ⟨⟨_, w16_eq h0 h1 false, by rw [toNat_widen_unsigned, toNat_be16]⟩,
    ⟨_, w16_eq h0 h1 true, toInt_widen_signed _⟩⟩

/-- Settles O40: the two words joined, the first the high one exactly with HIGH_FIRST. -/
theorem dword32JoinsTwoRegisters : Obligations.Dword32JoinsTwoRegisters := by
  intro s r b0 b1 b2 b3 h0 h1 h2 h3
  refine ⟨⟨_, w32_eq h0 h1 h2 h3 true, ?_⟩, ⟨_, w32_eq h0 h1 h2 h3 false, ?_⟩⟩ <;>
    simp [toNat_joinWords, toNat_be16]

/-! ### The commands -/

/-- A byte count is held, and each byte of the payload has a value. -/
structure PayloadIs (s : State) (bc : Byte) (p : Nat → Byte) : Prop where
  complete : s.txnState = .complete
  count : Memory.read s.rxbuf 2 = some bc
  bytes : ∀ j < bc.toNat, Memory.read s.rxbuf (3 + j) = some (p j)

namespace PayloadIs

variable {s : State} {bc : Byte} {p : Nat → Byte} (h : PayloadIs s bc p)
include h

/-- With a COMPLETE frame the precondition is the range test, and inside the data the command's own
computation runs. -/
theorem require_eq {first n : Nat} {k : Result} {t : State}
    (hk : first + n ≤ bc.toNat → k = .next t) :
    require first n s k =
      if first + n ≤ bc.toNat then .next t else .next (raiseFree .decodePrecondition s) := by
  rw [require_complete h.complete h.count]
  split
  · exact hk ‹_›
  · rfl

theorem payload_eq {i : Nat} (hi : i < bc.toNat) : payload s i = .ok (p i) :=
  Machine.payload_eq (h.bytes i hi)

theorem w16_eq {r : Nat} (hr : 2 * r + 2 ≤ bc.toNat) (signed : Bool) :
    w16 s r signed = .ok (widen signed (be16 (p (2 * r)) (p (2 * r + 1)))) :=
  Machine.w16_eq (h.bytes _ (by omega)) (h.bytes _ (by omega)) signed

theorem w32_eq {r : Nat} (hr : 2 * r + 4 ≤ bc.toNat) (highFirst : Bool) :
    w32 s r highFirst = .ok (if highFirst then
        joinWords (be16 (p (2 * r)) (p (2 * r + 1))) (be16 (p (2 * r + 2)) (p (2 * r + 3)))
      else joinWords (be16 (p (2 * r + 2)) (p (2 * r + 3))) (be16 (p (2 * r)) (p (2 * r + 1)))) :=
  Machine.w32_eq (h.bytes _ (by omega)) (h.bytes _ (by omega)) (h.bytes _ (by omega))
    (h.bytes _ (by omega)) highFirst

end PayloadIs

/-- Settles O37: each command passes its precondition and finishes with the value its bytes give. -/
theorem decoderCommandsGiveThePayload : Obligations.DecoderCommandsGiveThePayload := by
  intro s bc p a k signed highFirst hs hbc hp r
  have h : PayloadIs s bc p := ⟨hs, hbc, hp⟩
  refine ⟨fun hr hk => ?_, fun hr => ?_, fun hr => ?_, fun hr => ?_⟩
  · rw [exec, execDecBit, if_neg (by omega), require_complete hs hbc, if_pos hr,
      h.payload_eq (by omega), withRead_ok, payloadBit_eq]
    rfl
  · rw [exec, execDecByte, require_complete hs hbc, if_pos hr, h.payload_eq (by omega)]
    rfl
  · rw [exec, execDecWord16, require_complete hs hbc, if_pos hr, h.w16_eq hr]
    rfl
  · rw [exec, execDecDword32, require_complete hs hbc, if_pos hr, h.w32_eq hr]
    rfl

/-- The precondition fails: no COMPLETE frame, or the byte count is below what the command reads. -/
theorem require_fails {first n : Nat} {s : State} {k : Result}
    (h : s.txnState ≠ .complete ∨ ∃ bc, Memory.read s.rxbuf 2 = some bc ∧ bc.toNat < first + n) :
    require first n s k = .next (raiseFree .decodePrecondition s) := by
  by_cases hs : s.txnState = .complete
  · obtain ⟨bc, hbc, hlt⟩ := h.resolve_left (not_not_intro hs)
    rw [require_complete hs hbc, if_neg (by omega)]
  · exact require_not_complete hs

/-- Settles O38: the four commands share the precondition. -/
theorem decoderPreconditionIsChecked : Obligations.DecoderPreconditionIsChecked := by
  intro s a k signed highFirst t fails
  refine ⟨fun h hk => ?_, fun h => require_fails h, fun h => require_fails h,
    fun h => require_fails h⟩
  rw [exec, execDecBit, if_neg (by omega)]
  exact require_fails h

end Machine
end Sys2Proof
end

section
/-! The read wrappers' completion (44_api.md R246), what it shares with the decoder (30_encoding.md
R95), and the commands that only read (20_memory.md R67). -/

namespace Sys2Proof
namespace Machine

/-! ### The completion of a read wrapper -/

theorem wrapperComplete_eq {s : State} {bc : Byte} {p : Nat → Byte} (h : PayloadIs s bc p) :
    wrapperComplete s =
      if s.pend.extractLsb' 0 8 = 0x40#8 ∨ s.pend.extractLsb' 0 8 = 0x41#8 then
        if 1 ≤ bc.toNat then .next (finish (payloadBit (p 0) 0) s)
        else .next (raiseFree .decodePrecondition s)
      else if min (s.pend.extractLsb' 48 16).toNat 2 = 1 then
        if 2 ≤ bc.toNat then .next (finish (widen (s.pend.getLsbD 24) (be16 (p 0) (p 1))) s)
        else .next (raiseFree .decodePrecondition s)
      else if 4 ≤ bc.toNat then
        .next (finish (if s.pend.getLsbD 25 then joinWords (be16 (p 0) (p 1)) (be16 (p 2) (p 3))
          else joinWords (be16 (p 2) (p 3)) (be16 (p 0) (p 1))) s)
      else .next (raiseFree .decodePrecondition s) := by
  rw [wrapperComplete, if_pos h.complete]
  simp only [clampBlocks_eq_one_iff]
  split
  · refine (h.require_eq fun hn => ?_).trans (by rw [Nat.zero_add])
    rw [h.payload_eq (by omega)]
    rfl
  · split
    · refine (h.require_eq fun hn => ?_).trans (by rw [Nat.zero_add])
      rw [h.w16_eq (by omega)]
      rfl
    · refine (h.require_eq fun hn => ?_).trans (by rw [Nat.zero_add])
      rw [h.w32_eq (by omega)]
      rfl

theorem completeTxn_of_wrapper {s : State} (h : s.pend.extractLsb' 0 8 ≠ 0x20#8) :
    completeTxn s = wrapperComplete s := if_neg h

/-- Settles O34: by the kind of wrapper PEND names, each with its own need of the byte count. -/
theorem wrapperCompletesWithTheDecodedValue : Obligations.WrapperCompletesWithTheDecodedValue := by
  refine fun s hop => ⟨completeTxn_failed, fun bc p hs hbc hp => ?_⟩
  intro bits q need value
  rw [completeTxn_of_wrapper hop, wrapperComplete_eq ⟨hs, hbc, hp⟩, payloadBit_eq]
  by_cases hb : s.pend.extractLsb' 0 8 = 0x40#8 ∨ s.pend.extractLsb' 0 8 = 0x41#8
  · have hbits : bits = true := by simpa [bits] using hb
    simp only [need, value, hbits, if_pos hb, if_true]
    rfl
  · have hbits : bits = false := by simpa [bits] using hb
    by_cases hq : q = 1
    · simp only [need, value, hbits, if_neg hb, Bool.false_eq_true, if_false, if_pos hq,
        if_pos (show min _ 2 = 1 from hq)]
      rfl
    · simp only [need, value, hbits, if_neg hb, Bool.false_eq_true, if_false, if_neg hq,
        if_neg (show ¬ min _ 2 = 1 from hq)]
      rfl

/-! ### A wrapper is a request and then the decoder -/

theorem exec_requestFrom_of_supported {fc : Byte} (hf : supported fc = true) (slave : Byte)
    (start qty : Half) (s : State) :
    exec (.requestFrom slave fc start qty) s = startTransaction slave fc start qty s := if_pos hf

/-- A register wrapper with a block asks for at most two registers. -/
theorem startRegisterRead_eq {blocks : Half} (hb : blocks ≠ 0#16) (fc : Byte) (dflt : Bool)
    (slave : Byte) (addr : Half) (s : State) :
    startRegisterRead fc dflt slave addr blocks s =
      startTransaction (if dflt then s.curSlave else slave) fc addr
        (BitVec.ofNat 16 (min blocks.toNat 2)) s := by
  rw [startRegisterRead, if_neg hb, clampBlocks_eq, slaveSel]

theorem clampBlocks_eq_one_iff_of_ne_zero {b : Half} (hb : b ≠ 0#16) :
    clampBlocks b = 1#16 ↔ b = 1#16 := by
  have h0 : b.toNat ≠ 0 := fun h => hb (BitVec.eq_of_toNat_eq h)
  rw [clampBlocks_eq_one_iff, ← BitVec.toNat_inj]
  simp only [BitVec.toNat_ofNat]
  omega

/-- In COMPLETE a register wrapper in PEND answers what the decoder answers on register 0. -/
theorem completeTxn_of_registerRead {s : State} {blocks : Half} {signed highFirst : Bool}
    (hs : s.txnState = .complete) (hop : fieldOp s.pend = 0x42#8 ∨ fieldOp s.pend = 0x43#8)
    (hb : fieldB s.pend = blocks) (hsg : fieldSigned s.pend = signed)
    (hhf : fieldHighFirst s.pend = highFirst) (h0 : blocks ≠ 0#16) :
    completeTxn s =
      if blocks = 1#16 then exec (.decWord16 signed 0#16) s
      else exec (.decDword32 signed highFirst 0#16) s := by
  subst hb hsg hhf
  have hwrap : fieldOp s.pend ≠ 0x20#8 := by rcases hop with h | h <;> rw [h] <;> decide
  have hregs : ¬ (fieldOp s.pend = 0x40#8 ∨ fieldOp s.pend = 0x41#8) := by
    rcases hop with h | h <;> rw [h] <;> decide
  rw [completeTxn_of_wrapper hwrap, wrapperComplete, if_pos hs]
  refine (if_neg hregs).trans (if_congr (clampBlocks_eq_one_iff_of_ne_zero h0) rfl rfl)

/-- Settles O26: both sides of the first part are one `startTransaction`; in the second the fields
of the encoded wrapper are its operands. -/
theorem wrappersAreRequestThenDecode : Obligations.WrappersAreRequestThenDecode := by
  refine ⟨fun s signed highFirst slave addr blocks hb => ⟨?_, ?_⟩, ?_⟩
  · exact (startRegisterRead_eq hb 3#8 false slave addr s).trans
      (exec_requestFrom_of_supported rfl slave addr _ s).symm
  · exact (startRegisterRead_eq hb 4#8 false slave addr s).trans
      (exec_requestFrom_of_supported rfl slave addr _ s).symm
  · intro s signed highFirst dflt slave addr blocks hs hb hpend
    rcases hpend with h | h
    · refine completeTxn_of_registerRead hs (.inl ?_) ?_ ?_ ?_ hb <;> simp [h, encode, Instr.op]
    · refine completeTxn_of_registerRead hs (.inr ?_) ?_ ?_ ?_ hb <;> simp [h, encode, Instr.op]

/-! ### Commands that only read -/

/-- How a command that only reads ends: with a value, or with a status that is not OK. -/
inductive Ending where
  | value (w : Word)
  | failure (st : Status) (h : st ≠ .ok)

/-- The state an ending leaves. -/
def Ending.state : Ending → State → State
  | .value w, s => finish w s
  | .failure st _, s => raiseFree st s

theorem Ending.onlyCompletes (e : Ending) (s : State) : OnlyCompletes s (e.state s) := by
  cases e <;> rfl

theorem Ending.cmdStatus_eq (e : Ending) (s u : State) :
    (e.state u).cmdStatus = (e.state s).cmdStatus := by
  cases e <;> rfl

theorem Ending.result_eq {e : Ending} {s : State} (h : (e.state s).cmdStatus = .ok) (u : State) :
    (e.state u).result = (e.state s).result := by
  cases e with
  | value w => rfl
  | failure st hst => exact absurd h hst

/-- If the meaning `k` goes on from `s` it has an ending, and the same one from every state that
only a completion separates from `s`. -/
def Repeats (k : State → Result) (s : State) : Prop :=
  ∀ t, k s = .next t →
    ∃ e : Ending, t = e.state s ∧ ∀ u, OnlyCompletes s u → k u = .next (e.state u)

section
variable {s : State} {k l : State → Result}

theorem repeats_finish {f : State → Word} (hf : ∀ u, OnlyCompletes s u → f u = f s) :
    Repeats (fun u => .next (finish (f u) u)) s := by
  intro t h
  cases h
  exact ⟨.value (f s), rfl, fun u hu => by simp only [hf u hu, Ending.state]⟩

theorem repeats_raiseFree {st : Status} (hst : st ≠ .ok) :
    Repeats (fun u => .next (raiseFree st u)) s := by
  intro t h
  cases h
  exact ⟨.failure st hst, rfl, fun _ _ => rfl⟩

theorem repeats_withRead {α : Type} {v : State → Except Fault α} {f : α → Word}
    (hv : ∀ u, OnlyCompletes s u → v u = v s) :
    Repeats (fun u => withRead (v u) fun a => .next (finish (f a) u)) s := by
  intro t h
  obtain ⟨a, ha, h⟩ := withRead_next_iff.1 h
  cases h
  exact ⟨.value (f a), rfl, fun u hu => by simp only [hv u hu, ha, withRead_ok, Ending.state]⟩

theorem Repeats.ite {c : State → Prop} [∀ u, Decidable (c u)]
    (hc : ∀ u, OnlyCompletes s u → (c u ↔ c s)) (hk : Repeats k s) (hl : Repeats l s) :
    Repeats (fun u => if c u then k u else l u) s := by
  intro t h
  by_cases hs : c s
  · simp only [hs, if_true] at h
    obtain ⟨e, ht, hr⟩ := hk t h
    exact ⟨e, ht, fun u hu => by simp only [hc u hu, hs, if_true, hr u hu]⟩
  · simp only [hs, if_false] at h
    obtain ⟨e, ht, hr⟩ := hl t h
    exact ⟨e, ht, fun u hu => by simp only [hc u hu, hs, if_false, hr u hu]⟩

/-- The precondition reads STATE and RXBUF[2], which a completion leaves. -/
theorem Repeats.require {first n : Nat} (hk : Repeats k s) :
    Repeats (fun u => require first n u (k u)) s := by
  intro t h
  rcases require_next_iff.1 h with ⟨hs, bc, hbc, ⟨hn, h⟩ | ⟨hn, rfl⟩⟩ | ⟨hs, rfl⟩
  · obtain ⟨e, ht, hr⟩ := hk t h
    exact ⟨e, ht, fun u hu => (require_complete (hu.txnState.trans hs) (hu.rxbuf ▸ hbc)).trans
      ((if_pos hn).trans (hr u hu))⟩
  · exact ⟨.failure .decodePrecondition nofun, rfl, fun u hu =>
      (require_complete (hu.txnState.trans hs) (hu.rxbuf ▸ hbc)).trans (if_neg hn)⟩
  · exact ⟨.failure .decodePrecondition nofun, rfl, fun u hu =>
      require_not_complete (hu.txnState ▸ hs)⟩

end

theorem payload_congr {s u : State} (h : u.rxbuf = s.rxbuf) (i : Nat) :
    payload u i = payload s i := rxRead_congr h (3 + i)
theorem regWord_congr {s u : State} (h : u.rxbuf = s.rxbuf) (r : Nat) :
    regWord u r = regWord s r := by
  simp only [regWord, payload_congr h]
theorem w16_congr {s u : State} (h : u.rxbuf = s.rxbuf) (r : Nat) (signed : Bool) :
    w16 u r signed = w16 s r signed := by
  simp only [w16, regWord_congr h]
theorem w32_congr {s u : State} (h : u.rxbuf = s.rxbuf) (r : Nat) (highFirst : Bool) :
    w32 u r highFirst = w32 s r highFirst := by
  simp only [w32, regWord_congr h]
theorem txRead_congr {s u : State} (h : u.txbuf = s.txbuf) (i : Nat) :
    txRead u i = txRead s i := by
  simp only [txRead, h]

theorem OnlyCompletes.crcAcc {s t : State} (h : OnlyCompletes s t) : t.crcAcc = s.crcAcc := by
  unfold OnlyCompletes at h; rw [h]
theorem OnlyCompletes.timeoutMs {s t : State} (h : OnlyCompletes s t) :
    t.timeoutMs = s.timeoutMs := by
  unfold OnlyCompletes at h; rw [h]

/-- Each command that only reads gives a value of what a completion leaves, or a failure decided by
it. -/
theorem exec_repeats {i : Instr} (hi : readsOnly i = true) (s : State) : Repeats (exec i) s := by
  cases i with
  | crcRead => exact repeats_finish fun u hu => by rw [hu.crcAcc]
  | decBit index bit =>
    exact Repeats.ite (fun _ _ => Iff.rfl) (repeats_raiseFree nofun)
      (repeats_withRead fun u hu => payload_congr hu.rxbuf _).require
  | decByte index => exact (repeats_withRead fun u hu => payload_congr hu.rxbuf _).require
  | decWord16 signed reg => exact (repeats_withRead fun u hu => w16_congr hu.rxbuf _ _).require
  | decDword32 signed high reg =>
    exact (repeats_withRead fun u hu => w32_congr hu.rxbuf _ _).require
  | readTxbuf index =>
    exact Repeats.ite (fun _ _ => Iff.rfl) (repeats_raiseFree nofun)
      (repeats_withRead fun u hu => txRead_congr hu.txbuf _)
  | readRxbuf index =>
    exact Repeats.ite (fun u hu => by rw [hu.params]) (repeats_raiseFree nofun)
      (repeats_withRead fun u hu => rxRead_congr hu.rxbuf _)
  | readRxlen => exact repeats_finish fun u hu => by rw [hu.rxLen]
  | readState => exact repeats_finish fun u hu => by rw [hu.txnState]
  | readCurSlave => exact repeats_finish fun u hu => by rw [hu.curSlave]
  | readTimeout => exact repeats_finish fun u hu => hu.timeoutMs
  | _ => cases hi

/-- Settles O44: the second run starts from a state that only a completion separates from the
first's, so it ends the same way. -/
theorem readCommandsAreIdempotent : Obligations.ReadCommandsAreIdempotent := by
  intro i s t hi h
  obtain ⟨e, rfl, hr⟩ := exec_repeats hi s t h
  exact ⟨_, hr _ (e.onlyCompletes s), e.cmdStatus_eq s _, fun hok => Ending.result_eq hok _⟩

end Machine
end Sys2Proof
end

section
/-! The invariant of the machine through every step (10_state.md R31, R34, R35; 42_receiver.md R163
to R167, R169): the request held and the frame taken. BUSY, DIR and the buffers' form have their own
sections. -/

namespace Sys2Proof
namespace Machine

/-! ### What the parts of the invariant depend on -/

section
variable {s t : State}

theorem requestHeld_congr (hp : t.pend = s.pend) (htx : t.txbuf = s.txbuf)
    (hc : t.curSlave = s.curSlave) : requestHeld t = requestHeld s := by
  simp only [requestHeld, hp, hc, txReadList_congr htx]

theorem takenOk.congr (h : takenOk s) (hl : t.rxLen = s.rxLen) (hr : t.rxbuf = s.rxbuf) :
    takenOk t := by
  rw [takenOk, hl, hr]
  exact h

theorem headerTaken_congr (h0 : Memory.read t.rxbuf 0 = Memory.read s.rxbuf 0)
    (h1 : Memory.read t.rxbuf 1 = Memory.read s.rxbuf 1) (htx : t.txbuf = s.txbuf) :
    headerTaken t = headerTaken s := by
  simp only [headerTaken, h0, h1, htx]

theorem frameLength_congr (h2 : Memory.read t.rxbuf 2 = Memory.read s.rxbuf 2) :
    frameLength t = frameLength s := by
  simp only [frameLength, h2]

theorem frameLength_le {n : Nat} (h : frameLength s = some n) : n ≤ 260 := by
  obtain ⟨bc, -, rfl⟩ := Option.map_eq_some_iff.1 h
  have := bc.isLt
  omega

theorem crcMatches_congr (hl : t.rxLen = s.rxLen) (hr : t.rxbuf = s.rxbuf) :
    crcMatches t = crcMatches s := by
  simp only [crcMatches, hl, hr, rxReadList_congr hr]

theorem crcMatches_of_read {body : List Byte} {lo hi : Byte}
    (hb : rxReadList s 0 (s.rxLen.toNat - 2) = .ok body)
    (hlo : Memory.read s.rxbuf (s.rxLen.toNat - 2) = some lo)
    (hhi : Memory.read s.rxbuf (s.rxLen.toNat - 1) = some hi) :
    crcMatches s = (crc16 body == le16 lo hi) := by
  simp only [crcMatches, hb, hlo, hhi, Except.toOption]

/-! ### `receiverOk`, by STATE -/

theorem receiverOk_transmitting (h : s.txnState.transmitting = true) :
    receiverOk s = true ↔ s.m = 0 ∧ s.rxLen = 0#16 := by
  rcases (transmitting_iff _).1 h with hs | hs | hs <;> simp [receiverOk, hs]

theorem receiverOk_awaitingSync (h : s.txnState = .awaitingSync) :
    receiverOk s = true ↔ s.m ≠ 2 ∧ s.rxLen = 0#16 := by
  simp [receiverOk, h]

theorem receiverOk_headerCaptured (h : s.txnState = .headerCaptured) :
    receiverOk s = true ↔ s.m = 2 ∧ s.rxLen = 2#16 ∧ headerTaken s = true := by
  simp [receiverOk, h, and_assoc]

theorem receiverOk_accumulating (h : s.txnState = .accumulating) :
    receiverOk s = true ↔ s.m = 2 ∧ 3 ≤ s.rxLen.toNat ∧ s.rxLen.toNat < s.expLen.toNat ∧
      frameLength s = some s.expLen.toNat ∧ headerTaken s = true := by
  simp [receiverOk, h, and_assoc]

theorem receiverOk_complete (h : s.txnState = .complete) :
    receiverOk s = true ↔ frameLength s = some s.rxLen.toNat ∧ crcMatches s = true := by
  simp [receiverOk, h]

theorem receiverOk_crcError (h : s.txnState = .crcError) :
    receiverOk s = true ↔ frameLength s = some s.rxLen.toNat ∧ crcMatches s = false := by
  simp [receiverOk, h]

theorem receiverOk_timedOut (h : s.txnState = .timedOut) :
    receiverOk s = true ↔ s.rxLen.toNat < 260 := by
  simp [receiverOk, h]

/-- `t` agrees with `s` in every register the invariant's parts on the request and the receiver
read. -/
structure SameSession (s t : State) : Prop where
  params : t.params = s.params := by rfl
  txnState : t.txnState = s.txnState := by rfl
  m : t.m = s.m := by rfl
  expLen : t.expLen = s.expLen := by rfl
  rxLen : t.rxLen = s.rxLen := by rfl
  rxbuf : t.rxbuf = s.rxbuf := by rfl
  txbuf : t.txbuf = s.txbuf := by rfl
  pend : t.pend = s.pend := by rfl
  curSlave : t.curSlave = s.curSlave := by rfl

theorem SameSession.receiverOk_eq (h : SameSession s t) : receiverOk t = receiverOk s := by
  have hf : frameLength t = frameLength s := frameLength_congr (by rw [h.rxbuf])
  have hh : headerTaken t = headerTaken s :=
    headerTaken_congr (by rw [h.rxbuf]) (by rw [h.rxbuf]) h.txbuf
  simp only [receiverOk, h.txnState, h.m, h.expLen, h.rxLen, hf, hh,
    crcMatches_congr h.rxLen h.rxbuf]

/-- Without a transaction the receiver's part reads STATE, RX_LEN and RXBUF alone. -/
theorem receiverOk_congr_of_not_active (ha : s.txnState.active = false)
    (hs : t.txnState = s.txnState) (hl : t.rxLen = s.rxLen) (hr : t.rxbuf = s.rxbuf) :
    receiverOk t = receiverOk s := by
  have hf : frameLength t = frameLength s := frameLength_congr (by rw [hr])
  have hc := crcMatches_congr hl hr
  unfold receiverOk
  rw [hs]
  cases h : s.txnState with
  | idle => rfl
  | complete | crcError => simp only [hf, hc, hl]
  | timedOut => simp only [hl]
  | _ => rw [h] at ha; cases ha

end

/-! ### The session: the bytes taken and the receiver's registers -/

/-- The parts of the invariant about the receiver. -/
def SessionOk (s : State) : Prop := takenOk s ∧ receiverOk s = true

section
variable {s t : State}

theorem SessionOk.congr (h : SessionOk s) (hv : SameSession s t) : SessionOk t :=
  ⟨h.1.congr hv.rxLen hv.rxbuf, hv.receiverOk_eq.trans h.2⟩

theorem SessionOk.congr_of_not_active (h : SessionOk s) (ha : s.txnState.active = false)
    (hs : t.txnState = s.txnState) (hl : t.rxLen = s.rxLen) (hr : t.rxbuf = s.rxbuf) :
    SessionOk t :=
  ⟨h.1.congr hl hr, (receiverOk_congr_of_not_active ha hs hl hr).trans h.2⟩

theorem OnlyCompletes.keeps_session (h : OnlyCompletes s t) (hs : SessionOk s)
    (ha : s.txnState.active = false) : SessionOk t :=
  hs.congr_of_not_active ha h.txnState h.rxLen h.rxbuf

theorem sessionOk_of_rxLen_zero (h : s.rxLen = 0#16) (hr : receiverOk s = true) : SessionOk s :=
  ⟨by simp [takenOk, h], hr⟩

theorem ExecTo.keeps_session {i : Instr} (h : ExecTo i s t) (hs : SessionOk s)
    (ha : s.txnState.active = false) : SessionOk t := by
  cases h with
  | completes h => exact h.keeps_session hs ha
  | crcReset => exact hs.congr_of_not_active ha rfl rfl rfl
  | crcFeed => exact hs.congr_of_not_active ha rfl rfl rfl
  | builds => exact hs.congr_of_not_active ha rfl rfl rfl
  | setsTimeout => exact hs.congr_of_not_active ha rfl rfl rfl
  | unsupported => exact ⟨hs.1, rfl⟩
  | starts _ h =>
    have hst := started_of_next h
    refine sessionOk_of_rxLen_zero hst.rxLen ((receiverOk_transmitting ?_).2 ⟨hst.m, hst.rxLen⟩)
    rcases hst.cases with ⟨-, h⟩ | ⟨-, h⟩ <;> rw [h] <;> rfl

end

/-! ### A byte taken -/

/-- `s` with the byte `b` appended to the frame. -/
def appendByte (b : Byte) (s : State) : State :=
  { s with rxbuf := Memory.write s.rxbuf s.rxLen.toNat b, rxLen := s.rxLen + 1#16 }

section
variable {s t : State} {b : Byte}

theorem toNat_rxLen_succ (h : s.rxLen.toNat < 260) :
    (s.rxLen + 1#16).toNat = s.rxLen.toNat + 1 := by
  rw [BitVec.toNat_add]
  simp only [BitVec.toNat_ofNat]
  omega

theorem takenOk_appendByte (h : takenOk s) (hl : s.rxLen.toNat < 260) (b : Byte) :
    takenOk (appendByte b s) := by
  have hlen : (appendByte b s).rxLen.toNat = s.rxLen.toNat + 1 := toNat_rxLen_succ hl
  refine ⟨by omega, fun i hi => ?_⟩
  rw [hlen] at hi
  simp only [appendByte, read_write]
  split
  · rfl
  · exact h.2 i (by omega)

theorem frameLength_appendByte (h : 3 ≤ s.rxLen.toNat) (b : Byte) :
    frameLength (appendByte b s) = frameLength s :=
  frameLength_congr (read_write_other _ _ (by omega))

theorem headerTaken_appendByte (h : 3 ≤ s.rxLen.toNat) (b : Byte) :
    headerTaken (appendByte b s) = headerTaken s :=
  headerTaken_congr (read_write_other _ _ (by omega)) (read_write_other _ _ (by omega)) rfl

/-- The state after the last byte: the frame taken whole, its STATE that of its CRC. -/
theorem sessionOk_validated {body : List Byte} {lo hi : Byte} (hs : SessionOk s)
    (hst : s.txnState = .accumulating) (hlast : (s.rxLen + 1#16).toNat = s.expLen.toNat)
    (hb : rxReadList (appendByte b s) 0 ((appendByte b s).rxLen.toNat - 2) = .ok body)
    (hlo : Memory.read (appendByte b s).rxbuf ((appendByte b s).rxLen.toNat - 2) = some lo)
    (hhi : Memory.read (appendByte b s).rxbuf ((appendByte b s).rxLen.toNat - 1) = some hi) :
    SessionOk { appendByte b s with
      txnState := if crc16 body = le16 lo hi then .complete else .crcError } := by
  obtain ⟨htaken, hrecv⟩ := hs
  obtain ⟨-, h3, hlt, hfl, -⟩ := (receiverOk_accumulating hst).1 hrecv
  have hle := frameLength_le hfl
  have htaken' := takenOk_appendByte htaken (by omega) b
  have hlen : frameLength (appendByte b s) = some (appendByte b s).rxLen.toNat := by
    rw [frameLength_appendByte h3 b, hfl, ← hlast]
    rfl
  have hcrc := crcMatches_of_read hb hlo hhi
  refine ⟨htaken', ?_⟩
  split
  · refine (receiverOk_complete rfl).2
      ⟨hlen, (crcMatches_congr (by rfl) (by rfl)).trans (hcrc.trans ?_)⟩
    exact beq_iff_eq.2 ‹_›
  · refine (receiverOk_crcError rfl).2
      ⟨hlen, (crcMatches_congr (by rfl) (by rfl)).trans (hcrc.trans ?_)⟩
    exact beq_false_of_ne ‹_›

/-- Each byte taken keeps the session: the header P, the byte count, each byte of the frame, and the
check of its CRC. -/
theorem TakeTo.keeps_session (h : TakeTo b s t) (hs : SessionOk s) : SessionOk t := by
  have ⟨htaken, hrecv⟩ := hs
  cases h with
  | searches hst _ _ hn =>
    have hl := ((receiverOk_awaitingSync hst).1 hrecv).2
    exact ⟨htaken, (receiverOk_awaitingSync (by exact hst)).2 ⟨hn, hl⟩⟩
  | synced hst h0 h1 =>
    refine ⟨⟨(by decide : (2#16).toNat ≤ 260), fun i hi => ?_⟩,
      (receiverOk_headerCaptured rfl).2 ⟨rfl, rfl, ?_⟩⟩
    · have hi : i < 2 := hi
      simp only [read_write_zero_one]
      split
      · rfl
      · rw [if_pos (by omega)]; rfl
    · simp [headerTaken, h0, h1]
  | header hst =>
    obtain ⟨hm, hl, hh⟩ := (receiverOk_headerCaptured hst).1 hrecv
    refine ⟨⟨(by decide : (3#16).toNat ≤ 260), fun i hi => ?_⟩,
      (receiverOk_accumulating rfl).2 ⟨hm, ?_, ?_, ?_, ?_⟩⟩
    · have hi : i < 3 := hi
      simp only [read_write]
      split
      · rfl
      · exact htaken.2 i (by rw [hl]; show i < 2; omega)
    · exact le_refl 3
    · show 3 < (b.setWidth 9 + 5#9).toNat
      rw [toNat_expectedLength]
      omega
    · simp only [frameLength, read_write_same, Option.map_some, toNat_expectedLength]
    · rw [← hh]
      exact headerTaken_congr (read_write_other _ _ (by omega)) (read_write_other _ _ (by omega))
        rfl
  | appends hst _ hne =>
    obtain ⟨hm, h3, hlt, hfl, hh⟩ := (receiverOk_accumulating hst).1 hrecv
    have hle := frameLength_le hfl
    have hsucc := toNat_rxLen_succ (s := s) (by omega)
    refine ⟨takenOk_appendByte htaken (by omega) b, (receiverOk_accumulating (by exact hst)).2
      ⟨hm, ?_, ?_, (frameLength_appendByte h3 b).trans hfl, (headerTaken_appendByte h3 b).trans hh⟩⟩
    · show 3 ≤ (s.rxLen + 1#16).toNat
      omega
    · show (s.rxLen + 1#16).toNat < s.expLen.toNat
      omega
  | validates hst _ hlast hu _ hb hlo hhi h =>
    subst hu
    exact (completeTxn_onlyCompletes h).keeps_session (sessionOk_validated hs hst hlast hb hlo hhi)
      (by dsimp only; split <;> rfl)

end

end Machine
end Sys2Proof
end

section
/-! Every step keeps the state legal. -/

namespace Sys2Proof
namespace Machine

section
variable {s t : State}

/-- A receiving state has room in the longest frame. -/
theorem SessionOk.rxLen_lt (h : SessionOk s) (hr : s.txnState.receiving = true) :
    s.rxLen.toNat < 260 := by
  obtain ⟨-, hrecv⟩ := h
  cases hs : s.txnState <;> rw [hs] at hr <;> try cases hr
  · rw [((receiverOk_awaitingSync hs).1 hrecv).2]; decide
  · rw [((receiverOk_headerCaptured hs).1 hrecv).2.1]; decide
  · obtain ⟨-, -, hlt, hfl, -⟩ := (receiverOk_accumulating hs).1 hrecv
    exact lt_of_lt_of_le hlt (frameLength_le hfl)

theorem SessionOk.of_transmitting (h : SessionOk s) (hs : s.txnState.transmitting = true) :
    s.m = 0 ∧ s.rxLen = 0#16 := (receiverOk_transmitting hs).1 h.2

theorem EngineTo.keeps_session (h : EngineTo s t) (hs : SessionOk s) : SessionOk t := by
  cases h with
  | waits => exact hs
  | sends hst =>
    exact ⟨hs.1, (receiverOk_transmitting rfl).2 (hs.of_transmitting (by rw [hst]; rfl))⟩
  | settles hst =>
    exact ⟨hs.1, (receiverOk_transmitting rfl).2 (hs.of_transmitting (by rw [hst]; rfl))⟩
  | listens hst =>
    obtain ⟨hm, hl⟩ := hs.of_transmitting (by rw [hst]; rfl)
    exact ⟨hs.1, (receiverOk_awaitingSync rfl).2 ⟨by simp [hm], hl⟩⟩
  | turns hst =>
    obtain ⟨hm, hl⟩ := hs.of_transmitting (by rw [hst]; rfl)
    exact ⟨hs.1, (receiverOk_awaitingSync rfl).2 ⟨by simp [hm], hl⟩⟩
  | timesOut hr => exact ⟨hs.1, (receiverOk_timedOut rfl).2 (hs.rxLen_lt hr)⟩
  | takes _ _ _ h => exact h.keeps_session (hs.congr {})

/-! ### The request held -/

/-- A transaction starts only with its command in PEND, and its frame is then in TXBUF. -/
theorem requestHeld_of_started {i : Instr} {slave fc : Byte} {start qty : Half}
    (hd : decode t.pend = .ok i) (hq : requestOf i = some (fc, start, qty))
    (h : StartedTransaction slave fc start qty s t) : requestHeld t = true := by
  have hread : txReadList t 0 8 = .ok (frame slave fc start qty) :=
    txReadList_eq (bs := frame slave fc start qty) fun k hk => by
      rw [Nat.zero_add, h.read_txbuf hk]
  simp only [requestHeld, hd, hq, hread, h.curSlave, Except.toOption, beq_self_eq_true]

theorem OnlyCompletes.requestOk (h : OnlyCompletes s t) (ha : s.txnState.active = false) :
    requestOk t := fun hact => by
  rw [h.txnState, ha] at hact
  cases hact

theorem ExecTo.keeps_request {i : Instr} (h : ExecTo i s t) (hd : decode s.pend = .ok i)
    (ha : s.txnState.active = false) : requestOk t := by
  have complete {u v : State} (hv : OnlyCompletes u v) (hu : u.txnState.active = false) :
      Machine.requestOk v := hv.requestOk hu
  cases h with
  | completes h => exact complete h ha
  | crcReset => exact complete (onlyCompletes_finish _ _) ha
  | crcFeed => exact complete (onlyCompletes_finish _ _) ha
  | builds => exact complete (onlyCompletes_finish _ _) ha
  | setsTimeout => exact complete (onlyCompletes_finish _ _) ha
  | unsupported => exact complete (onlyCompletes_raise _ _ _) rfl
  | starts hq h =>
    have hst := started_of_next h
    exact fun _ => requestHeld_of_started (hst.pend.symm ▸ hd) hq hst

/-- An engine step starts no transaction. -/
theorem EngineTo.active_of_active (h : EngineTo s t) (ht : t.txnState.active = true) :
    s.txnState.active = true := by
  cases h with
  | waits => exact ht
  | sends hs => rw [hs]; rfl
  | settles hs => rw [hs]; rfl
  | listens hs => rw [hs]; rfl
  | turns hs => rw [hs]; rfl
  | timesOut hr => exact active_of_receiving hr
  | takes hr => exact active_of_receiving hr

theorem EngineTo.keeps_request (h : EngineTo s t) (hs : requestOk s) : requestOk t := fun ht => by
  have hf := h.engineFrame
  rw [requestHeld_congr hf.pend hf.txbuf hf.curSlave]
  exact hs (h.active_of_active ht)

end

/-! ### Steps -/

/-- The parts of the invariant that O56 and O57 do not speak of. -/
def RestOk (s : State) : Prop := paramsOk s ∧ requestOk s ∧ SessionOk s

theorem legal_iff (s : State) :
    Legal s ↔ (busyOk s ∧ dirOk s) ∧ buffersOk s ∧ RestOk s :=
  ⟨fun h => ⟨⟨h.busy, h.dir⟩, h.buffers, h.params, h.request, h.taken, h.receiver⟩,
    fun ⟨⟨hb, hd⟩, hbuf, hp, hreq, ht, hr⟩ => ⟨hp, hbuf, hb, hd, hreq, ht, hr⟩⟩

theorem RestOk.congr {s t : State} (h : RestOk s) (hv : SameSession s t) : RestOk t := by
  obtain ⟨hp, hreq, hsess⟩ := h
  refine ⟨by rw [paramsOk, hv.params]; exact hp, fun ha => ?_, hsess.congr hv⟩
  rw [requestHeld_congr hv.pend hv.txbuf hv.curSlave]
  exact hreq (hv.txnState ▸ ha)

theorem restOk_of_not_active {s t : State} (h : RestOk s) (ha : s.txnState.active = false)
    (hp : t.params = s.params) (hs : t.txnState = s.txnState) (hl : t.rxLen = s.rxLen)
    (hr : t.rxbuf = s.rxbuf) : RestOk t := by
  refine ⟨by rw [paramsOk, hp]; exact h.1, fun ht => ?_, h.2.2.congr_of_not_active ha hs hl hr⟩
  rw [hs, ha] at ht
  cases ht

theorem lineSend_sameSession (s : State) : SameSession s (lineSend s) := by
  constructor <;> simp

theorem engineReset_restOk {s : State} (h : paramsOk s) : RestOk (engineReset s) :=
  ⟨h, nofun, sessionOk_of_rxLen_zero (s := engineReset s) rfl rfl⟩

/-- The rest of the invariant through a step; BUSY tells that no transaction runs when a command is
accepted. -/
theorem step_keeps_rest {s t : State} (hb : busyOk s) (hs : RestOk s) (h : step s = .next t) :
    RestOk t := by
  have hs' (ms : List Move) (mi : Nat) : RestOk { s with moves := ms, moveIdx := mi } :=
    hs.congr {}
  refine step_induction (P := RestOk) h
    (busy := fun _ _ _ _ _ => hs.congr {})
    (malformed := fun _ _ _ _ hbusy =>
      restOk_of_not_active hs (hb.symm.trans hbusy) rfl rfl rfl rfl)
    (runs := fun _ ms mi _ _ _ hbusy hd _ hv => ?runs)
    (engine := fun ms mi _ _ hv => ?engine)
    (deliver := fun _ _ _ _ => hs.congr {})
    (send := fun ms mi _ => (hs' ms mi).congr (lineSend_sameSession _))
    (tick := fun _ _ _ => hs.congr {})
    (reset := fun _ _ _ => engineReset_restOk hs.1)
  case runs =>
    have ha := hb.symm.trans hbusy
    obtain ⟨hp, -, hsess⟩ := hs
    exact ⟨by rw [paramsOk, hv.commandFrame.params]; exact hp, hv.keeps_request hd ha,
      hv.keeps_session (hsess.congr_of_not_active ha rfl rfl rfl) ha⟩
  case engine =>
    obtain ⟨hp, hreq, hsess⟩ := hs' ms mi
    exact ⟨by rw [paramsOk, hv.engineFrame.params]; exact hp, hv.keeps_request hreq,
      hv.keeps_session hsess⟩

/-- Settles O59: BUSY and DIR by O57, the buffers by O56, and the rest by `step_keeps_rest`. -/
theorem everyStepKeepsTheStateLegal : Obligations.EveryStepKeepsTheStateLegal := by
  intro s t hs h
  obtain ⟨⟨hb, hd⟩, hbuf, hrest⟩ := (legal_iff s).1 hs
  exact (legal_iff t).2 ⟨everyStepKeepsBusyAndDirection s t hb hd h,
    everyStepKeepsTheBuffersCanonical s t hbuf h, step_keeps_rest hb hrest h⟩

/-- Settles O58: with empty buffers and STATE idle each part of the invariant is immediate. -/
theorem resetStateIsLegal : Obligations.ResetStateIsLegal := by
  have powerOn (p : Params) (hp : 512 ≤ p.rxCap) : Legal (State.powerOn p) :=
    (legal_iff _).2 ⟨⟨rfl, dirOk_of_not_transmitting rfl fun _ => rfl⟩,
      by simp [buffersOk, State.powerOn], hp, nofun,
      sessionOk_of_rxLen_zero (s := State.powerOn p) rfl rfl⟩
  exact ⟨powerOn Config.params (le_refl 512), powerOn⟩

end Machine
end Sys2Proof
end

section
/-! Single steps of the host, the clock, the line and reset (10_state.md R22, 60_exceptions.md R277
to R281, 70_reset_and_hazards.md R300). -/

namespace Sys2Proof
namespace Machine

/-! ### The host's write -/

theorem hostWrite_eq_exec {s : State} {cw : CmdWord} {i : Instr} (hb : s.busy = false)
    (hd : decode cw = .ok i) : hostWrite cw s = exec i (accept cw s) := by
  simp [hostWrite, hb, hd]

theorem hostWrite_malformed {s : State} {cw : CmdWord} {r : Reject} (hb : s.busy = false)
    (hd : decode cw = .error r) :
    hostWrite cw s = .next (raiseFree .illegalCommand (accept cw s)) := by
  simp [hostWrite, hb, hd]

theorem hostWrite_busy {s : State} (hb : s.busy = true) (cw : CmdWord) :
    hostWrite cw s = .next { s with dutyViolated := true } := if_pos hb

/-- Settles O6: the step is the host's write, accepted and decoded. -/
theorem stepRunsTheDecodedCommand : Obligations.StepRunsTheDecodedCommand := by
  intro s cw rest i hc hb hm hd
  rw [step_of_cons hc hm]
  exact hostWrite_eq_exec hb hd

/-- Settles O7: the step is the host's write, accepted and refused by the decoder. -/
theorem malformedWordEndsIllegalCommand : Obligations.MalformedWordEndsIllegalCommand := by
  intro s cw rest r hc hb hm hd
  rw [step_of_cons hc hm]
  exact hostWrite_malformed hb hd

/-- Settles O8: the step is the host's write, not accepted. -/
theorem commandWriteWhileBusyIsRefused : Obligations.CommandWriteWhileBusyIsRefused := by
  intro s cw rest hc hb hm
  rw [step_of_cons hc hm]
  exact hostWrite_busy (by exact hb) cw

/-- Settles O9: the test of RX_CAP comes before the move. -/
theorem smallReceiveBufferIsRefused : Obligations.SmallReceiveBufferIsRefused := fun _ h =>
  if_pos h

/-! ### The clock, the line and reset -/

theorem toNat_add_one (n : Word) : (n + 1#32).toNat = (n.toNat + 1) % 2 ^ 32 :=
  BitVec.toNat_add n 1#32

theorem lineSend_of_cons {s : State} {b : Byte} {out : List Byte} (h : s.outq = b :: out) :
    lineSend s = { s with outq := out, wireTx := s.wireTx ++ [b] } := by
  rw [lineSend, h]

theorem lineSend_of_nil {s : State} (h : s.outq = []) : lineSend s = s := by
  rw [lineSend, h]

/-- Settles O45: each clause is one agent's move. -/
theorem clockAndLineSteps : Obligations.ClockAndLineSteps := by
  intro s rest hc
  refine ⟨fun hm => ?_, fun b hm => ?_, fun b out hm ho => ?_, fun hm ho => ?_⟩ <;>
    rw [step_of_cons hc hm]
  · exact ⟨_, rfl, toNat_add_one s.now, rfl⟩
  · rfl
  · exact congrArg Host.Outcome.next (lineSend_of_cons ho)
  · exact congrArg Host.Outcome.next (lineSend_of_nil ho)

/-- Settles O46: the step is `engineReset`. -/
theorem resetSetsTheEngine : Obligations.ResetSetsTheEngine := by
  intro s rest hc hm
  refine ⟨_, step_of_cons hc hm, rfl, rfl, rfl, rfl, rfl, rfl, rfl, rfl, rfl, rfl,
    fun hp => if_pos hp, fun hp => if_neg (by simp [hp]), fun _ => ⟨rfl, rfl⟩, rfl, rfl, rfl, rfl,
    rfl, rfl⟩

theorem Level.other_ne (l : Level) : l.other ≠ l := by
  cases l <;> decide

/-- Settles O47: the values of `State.powerOn`. -/
theorem powerOnStateIsAsTheSpecSays : Obligations.PowerOnStateIsAsTheSpecSays := fun p =>
  ⟨rfl, rfl, rfl, rfl, rfl, rfl, rfl, rfl, rfl, rfl, Level.other_ne p.dirTxLevel, rfl, rfl,
    fun _ => ⟨rfl, rfl⟩⟩

/-! ### The accumulator, configuration and diagnostic commands -/

/-- Settles O13: the three commands' meanings. -/
theorem crcCommandsComplete : Obligations.CrcCommandsComplete := fun _ _ => ⟨rfl, rfl, rfl⟩

/-- Settles O41: the five commands' meanings. -/
theorem registerAccessCommandsComplete : Obligations.RegisterAccessCommandsComplete := fun _ _ =>
  ⟨rfl, rfl, rfl, rfl, rfl⟩

theorem txRead_unwritten {s : State} {i : Nat} (h : Memory.read s.txbuf i = none) :
    txRead s i = .error (.unwrittenTxbuf i) := by
  rw [txRead, h]

theorem rxRead_unwritten {s : State} {i : Nat} (h : Memory.read s.rxbuf i = none) :
    rxRead s i = .error (.unwrittenRxbuf i) := by
  rw [rxRead, h]

/-- Settles O42: the index check, then the read of TXBUF. -/
theorem readTxbufGivesTheByte : Obligations.ReadTxbufGivesTheByte := by
  refine fun s a => ⟨fun h => if_pos h, fun b h hb => ?_, fun h hb => ?_⟩
  · rw [exec, execReadTxbuf, if_neg (show ¬ Config.txCap ≤ _ from Nat.not_le.2 h), txRead_eq hb]
    rfl
  · rw [exec, execReadTxbuf, if_neg (show ¬ Config.txCap ≤ _ from Nat.not_le.2 h),
      txRead_unwritten hb]
    rfl

/-- Settles O43: the index check, then the read of RXBUF. -/
theorem readRxbufGivesTheByte : Obligations.ReadRxbufGivesTheByte := by
  refine fun s a => ⟨fun h => if_pos h, fun b h hb => ?_, fun h hb => ?_⟩
  · rw [exec, execReadRxbuf, if_neg (Nat.not_le.2 h), rxRead_eq hb]
    rfl
  · rw [exec, execReadRxbuf, if_neg (Nat.not_le.2 h), rxRead_unwritten hb]
    rfl

theorem startRegisterRead_zero (fc : Byte) (dflt : Bool) (slave : Byte) (addr : Half) (s : State) :
    startRegisterRead fc dflt slave addr 0#16 s = .next (raiseFree .illegalOperand s) := if_pos rfl

/-- Settles O25: both register wrappers test the block count first, DEC_BIT its bit index. -/
theorem illegalOperandsAreReportedFirst : Obligations.IllegalOperandsAreReportedFirst :=
  fun s _ _ dflt slave addr _ _ hk => ⟨startRegisterRead_zero 3#8 dflt slave addr s,
    startRegisterRead_zero 4#8 dflt slave addr s, if_pos hk⟩

end Machine
end Sys2Proof
end

section
/-! The laws of the CRC function (40_crc.md R113) and the CRC16 pseudo-instruction (30_encoding.md
R94). -/

namespace Sys2Proof
namespace Machine

/-! ### The residue -/

/-- While the low bits are 0 a shift round only shifts. -/
theorem crcShift_of_low_zero (n : Nat) (c : Half) (h : ∀ j < n, c.getLsbD j = false) :
    crcShift n c = c >>> n := by
  induction n generalizing c with
  | zero => simp [crcShift]
  | succ n ih =>
    have h0 : c.getLsbD 0 = false := h 0 (by omega)
    simp only [crcShift, h0, Bool.false_eq_true, if_false]
    rw [ih (c >>> 1) fun j hj => by simpa [Nat.add_comm 1 j] using h (j + 1) (by omega),
      ← BitVec.shiftRight_add, Nat.add_comm]

/-- Fed its own low byte, the register is left with its high byte. -/
theorem crcStep_lo8 (c : Half) : crcStep c (lo8 c) = (hi8 c).setWidth 16 := by
  rw [crcStep, crcShift_of_low_zero]
  · ext i hi
    by_cases h8 : i < 8
    · simp [lo8, hi8, h8, BitVec.getLsbD_setWidth]
    · simp [hi8, h8, show 16 ≤ 8 + i by omega]
  · intro j hj
    simp [lo8, hj, show j < 16 by omega]

/-- Fed the byte it holds, the register is left 0. -/
theorem crcStep_self (b : Byte) : crcStep (b.setWidth 16) b = 0#16 := by
  rw [crcStep, BitVec.xor_self]
  rfl

theorem crc16_snoc (xs : List Byte) (b : Byte) : crc16 (xs ++ [b]) = crcStep (crc16 xs) b := by
  rw [crc16_append]
  rfl

/-- "crc16(list with its CRC appended, low byte first) = 0" (R113). -/
theorem crc16_residue (xs : List Byte) : crc16 (xs ++ [lo8 (crc16 xs), hi8 (crc16 xs)]) = 0#16 := by
  rw [crc16_append, List.foldl_cons, crcStep_lo8, List.foldl_cons, crcStep_self]
  rfl

/-- Settles O12: the first two laws are `foldl`'s; the residue is the register fed its own bytes. -/
theorem crcLaws : Obligations.CrcLaws := ⟨rfl, crc16_snoc, crc16_residue⟩

/-! ### The pseudo-instruction CRC16 -/

/-- What the accumulator commands may change besides their completion: CRC_ACC, and PEND and the
schedule through being written. -/
def CrcFrame (s t : State) : Prop :=
  t = { s with
    moves := t.moves, pend := t.pend, cmdStatus := t.cmdStatus, result := t.result,
    busy := t.busy, crcAcc := t.crcAcc }

theorem CrcFrame.trans {s t u : State} (h : CrcFrame s t) (h' : CrcFrame t u) : CrcFrame s u := by
  rw [h', h]
  rfl

theorem CrcFrame.params {s t : State} (h : CrcFrame s t) : t.params = s.params := by rw [h]

/-- The host's write of a well-formed command's word runs the command. -/
theorem step_of_encode {s : State} {i : Instr} {rest : List Move} (hwf : i.wf = true)
    (hc : 512 ≤ s.params.rxCap) (hb : s.busy = false) (hm : s.moves = .host (encode i) :: rest) :
    step s = exec i { s with moves := rest, pend := encode i, busy := true } :=
  stepRunsTheDecodedCommand s _ rest i hc hb hm (decodeOfEncodeIsTheCommand i hwf)

/-- CRC_FEED byte by byte runs the register over the list. -/
theorem run_crcFeeds (bs : List Byte) {s : State} {more : List Move}
    (hc : 512 ≤ s.params.rxCap) (hb : s.busy = false)
    (hm : s.moves = (bs.map fun b => Move.host (encode (.crcFeed b))) ++ more) :
    ∃ t, Host.Core.run Sys2Proof.core bs.length s = .next t ∧ CrcFrame s t ∧ t.busy = false ∧
      t.crcAcc = bs.foldl crcStep s.crcAcc ∧ t.moves = more := by
  induction bs generalizing s with
  | nil => exact ⟨s, rfl, rfl, hb, rfl, hm⟩
  | cons b bs ih =>
    have hs := step_of_encode (i := .crcFeed b) rfl hc hb hm
    obtain ⟨t, ht, hf, hb', hacc, hm'⟩ := ih
      (s := finish ((crcStep s.crcAcc b).setWidth 32) { s with
        moves := (bs.map fun b => Move.host (encode (.crcFeed b))) ++ more,
        pend := encode (.crcFeed b), crcAcc := crcStep s.crcAcc b }) hc rfl rfl
    refine ⟨t, (run_succ hs bs.length).trans ht, CrcFrame.trans ?_ hf, hb', hacc, hm'⟩
    rfl

/-- Settles O14: CRC_RESET, then the bytes by `run_crcFeeds`, then CRC_READ. -/
theorem crc16ExpansionGivesTheCrc : Obligations.Crc16ExpansionGivesTheCrc := by
  intro s bs more hc hb hm
  have hmoves : s.moves = .host (encode .crcReset) ::
      ((bs.map fun b => Move.host (encode (.crcFeed b))) ++ (.host (encode .crcRead) :: more)) := by
    rw [hm, crc16Expansion]
    simp
  have hreset := step_of_encode (i := .crcReset) rfl hc hb hmoves
  obtain ⟨t, ht, hf, hb', hacc, hm'⟩ := run_crcFeeds bs (more := .host (encode .crcRead) :: more)
    (s := finish 0x0000FFFF#32 { s with
      moves := (bs.map fun b => Move.host (encode (.crcFeed b))) ++
        (.host (encode .crcRead) :: more),
      pend := encode .crcReset, crcAcc := 0xFFFF#16 }) hc rfl rfl
  have hread := step_of_encode (i := .crcRead) rfl (by rw [hf.params]; exact hc) hb' hm'
  have hcrc : t.crcAcc = crc16 bs := hacc
  have hsame : t.txnState = s.txnState ∧ t.txbuf = s.txbuf ∧ t.rxbuf = s.rxbuf ∧
      t.curSlave = s.curSlave := by rw [hf]; exact ⟨rfl, rfl, rfl, rfl⟩
  refine ⟨finish (t.crcAcc.setWidth 32) { t with moves := more, pend := encode .crcRead },
    (run_succ hreset (bs.length + 1)).trans ((run_add bs.length 1 ht).trans (run_succ hread 0)),
    ?_, rfl, rfl, hcrc, rfl, hsame⟩
  rw [finish_result, hcrc]

end Machine
end Sys2Proof
end

section
/-! The frame builder, the transmit sequencer and the accepting steps of the transactions
(41_framer_transport.md, 44_api.md R230 to R239). -/

namespace Sys2Proof
namespace Machine

/-! ### The frame -/

theorem frameCrc_eq (slave fc : Byte) (start qty : Half) :
    frameCrc slave fc start qty = crc16 ((frame slave fc start qty).take 6) :=
  le16_lo8_hi8 _

/-- Settles O16: the accepting step is `buildStep` and `finish`. -/
theorem buildRequestWritesTheFrame : Obligations.BuildRequestWritesTheFrame := by
  intro s slave fc start qty hfc
  refine ⟨_, if_pos ((supported_iff fc).2 hfc), read_buildStep slave fc start qty s, ?_⟩
  rw [← frameCrc_eq]
  rfl

/-- Settles O18: the last two bytes are the CRC of the head, so the frame is a list with its own CRC
appended. -/
theorem builtFrameCarriesItsCrc : Obligations.BuiltFrameCarriesItsCrc :=
  fun slave fc start qty => ⟨(frameCrc_eq slave fc start qty).symm,
    crc16_residue (frameHead slave fc start qty)⟩

/-! ### The transmit sequencer -/

theorem settled_eq_false {s : State} (h : s.now = s.tMark) : settled s = false := by
  rw [← Bool.not_eq_true, settled_iff]
  exact not_not_intro h

theorem sendFrame_eq {s : State} {f : List Byte} (hl : f.length = 8)
    (hf : ∀ k < 8, Memory.read s.txbuf k = f[k]?) :
    sendFrame s = .next { s with outq := s.outq ++ f, txnState := .txSending } := by
  have hread : txReadList s 0 8 = .ok f := by
    rw [← hl]
    exact txReadList_eq fun k hk => by rw [Nat.zero_add, hf k (hl ▸ hk)]
  exact sendFrame_next_iff.2 ⟨f, hread, rfl⟩

theorem engineStep_of_txSettlePre {s : State} (h : s.txnState = .txSettlePre) :
    engineStep s = txSettlePreStep s := by
  simp only [engineStep, h]

theorem engineStep_of_txSending {s : State} (h : s.txnState = .txSending) :
    engineStep s = txSendingStep s := by
  simp only [engineStep, h]

theorem engineStep_of_txSettlePost {s : State} (h : s.txnState = .txSettlePost) :
    engineStep s = txSettlePostStep s := by
  simp only [engineStep, h]

/-- Settles O19: the settling test, then `sendFrame`. -/
theorem settlePreSendsTheFrame : Obligations.SettlePreSendsTheFrame := by
  refine fun s f hs hl hf => ⟨fun h => ?_, fun h => ?_⟩ <;>
    rw [engineStep_of_txSettlePre hs, txSettlePreStep]
  · rw [settled_eq_false h]
    rfl
  · rw [if_pos ((settled_iff s).2 h), sendFrame_eq hl hf]

/-- Settles O20: the test of OUTQ, then that of the direction output. -/
theorem sendingWaitsForTheFlush : Obligations.SendingWaitsForTheFlush := by
  refine fun s hs => ⟨fun h => ?_, fun h hd => ?_, fun h hd => ?_⟩ <;>
    rw [engineStep_of_txSending hs, txSendingStep]
  · exact if_neg (by simpa [lineDrained] using h)
  · rw [if_pos (by simp [lineDrained, h]), if_pos hd]
  · rw [if_pos (by simp [lineDrained, h]), if_neg (by simp [hd])]
    rfl

/-- Settles O21: the settling test, then the direction output and the receiver. -/
theorem settlePostBeginsReceiving : Obligations.SettlePostBeginsReceiving := by
  refine fun s hs => ⟨Level.other_ne _, fun h => ?_, fun h => ?_⟩ <;>
    rw [engineStep_of_txSettlePost hs, txSettlePostStep]
  · rw [settled_eq_false h]
    rfl
  · exact if_pos ((settled_iff s).2 h)

/-! ### Acceptance -/

/-- Settles O23: with a supported function code REQUEST_FROM is `startTransaction`. -/
theorem requestFromStartsATransaction : Obligations.RequestFromStartsATransaction := by
  intro s slave fc start qty hfc
  rw [exec_requestFrom_of_supported ((supported_iff fc).2 hfc)]
  exact startTransaction_started slave fc start qty s

/-- Settles O24: each wrapper is `startTransaction` with its function code and quantity. -/
theorem readWrappersStartTheirTransaction : Obligations.ReadWrappersStartTheirTransaction := by
  intro s signed highFirst dflt slave addr blocks
  refine ⟨startTransaction_started _ 1#8 addr 1#16 s, startTransaction_started _ 2#8 addr 1#16 s,
    fun hb => ⟨?_, ?_⟩⟩
  · obtain ⟨t, ht, hst⟩ := startTransaction_started (if dflt then s.curSlave else slave) 3#8 addr
      (BitVec.ofNat 16 (min blocks.toNat 2)) s
    exact ⟨t, (startRegisterRead_eq hb 3#8 dflt slave addr s).trans ht, hst⟩
  · obtain ⟨t, ht, hst⟩ := startTransaction_started (if dflt then s.curSlave else slave) 4#8 addr
      (BitVec.ofNat 16 (min blocks.toNat 2)) s
    exact ⟨t, (startRegisterRead_eq hb 4#8 dflt slave addr s).trans ht, hst⟩

/-! ### The receiver -/

theorem engineStep_of_receiving {s : State} (h : s.txnState.receiving = true) :
    engineStep s = receiveStep s := by
  rcases (receiving_iff _).1 h with hs | hs | hs <;> simp only [engineStep, hs]

theorem timeoutElapsed_iff (s : State) :
    timeoutElapsed s = true ↔ s.timeoutMs.toNat ≤ (s.now - s.tLast).toNat := decide_eq_true_iff

theorem receiveStep_of_timeout {s : State} (h : s.timeoutMs.toNat ≤ (s.now - s.tLast).toNat) :
    receiveStep s = .next (raise .transactionFailed minusOne { s with txnState := .timedOut }) := by
  rw [receiveStep, if_pos ((timeoutElapsed_iff s).2 h), completeTxn_failed (by simp)]

/-- Settles O27: the timeout is tested before INQ, and TIMED_OUT fails every transaction. -/
theorem timeoutEndsTheTransaction : Obligations.TimeoutEndsTheTransaction := by
  intro s hs ht
  rw [engineStep_of_receiving ((receiving_iff _).2 hs), receiveStep_of_timeout ht]
  rfl

/-- Settles O28: neither the timeout nor a byte. -/
theorem receiverWaitsForAByte : Obligations.ReceiverWaitsForAByte := by
  intro s hs ht hq
  rw [engineStep_of_receiving ((receiving_iff _).2 hs), receiveStep,
    if_neg (mt (timeoutElapsed_iff s).1 (Nat.not_le.2 ht)), hq]

theorem engineStep_of_accumulating {s : State} {b : Byte} {rest : List Byte}
    (hs : s.txnState = .accumulating) (hb : takesByte s b rest) :
    engineStep s = accumulateStep b { s with inq := rest, tLast := s.now } := by
  rw [engineStep_takes hb (by rw [hs]; rfl)]
  simp only [takeByte, hs]

theorem accumulateStep_of_not_last {s : State} (hc : s.rxLen.toNat < s.params.rxCap)
    (hne : (s.rxLen + 1#16).toNat ≠ s.expLen.toNat) (b : Byte) :
    accumulateStep b s = .next (appendByte b s) := by
  rw [accumulateStep, storeRx_eq b hc, andThen_of_next]
  exact if_neg hne

theorem accumulateStep_of_last {s : State} (hc : s.rxLen.toNat < s.params.rxCap)
    (hlast : (s.rxLen + 1#16).toNat = s.expLen.toNat) (b : Byte) :
    accumulateStep b s = validate (appendByte b s) := by
  rw [accumulateStep, storeRx_eq b hc, andThen_of_next]
  exact if_pos hlast

/-- `validate` on a frame whose bytes are known: `body` and then the CRC's two bytes. -/
theorem validate_eq {s : State} {body : List Byte} {lo hi : Byte} (h2 : 2 ≤ s.rxLen.toNat)
    (hb : rxReadList s 0 (s.rxLen.toNat - 2) = .ok body)
    (hlo : Memory.read s.rxbuf (s.rxLen.toNat - 2) = some lo)
    (hhi : Memory.read s.rxbuf (s.rxLen.toNat - 1) = some hi) :
    validate s = completeTxn { s with
      txnState := if crc16 body = le16 lo hi then .complete else .crcError } := by
  simp only [validate, if_neg (Nat.not_lt.2 h2), hb, rxRead_eq hlo, rxRead_eq hhi, withRead_ok]

/-- Settles O31: the byte is appended, and it is not the frame's last. -/
theorem accumulateStepAppendsTheByte : Obligations.AccumulateStepAppendsTheByte := by
  intro s b rest hc hs hb hl hne
  have hsucc := toNat_rxLen_succ hl
  rw [engineStep_of_accumulating hs hb]
  exact ⟨_, accumulateStep_of_not_last (s := { s with inq := rest, tLast := s.now })
    (show s.rxLen.toNat < s.params.rxCap by omega)
    (show (s.rxLen + 1#16).toNat ≠ s.expLen.toNat by omega) b,
    fun k => read_write _ _ k b, hsucc, rfl⟩

/-- Settles O32: the appended byte is the CRC's high byte, and `validate` reads `body` and `lo`
where they stood. -/
theorem lastByteIsValidated : Obligations.LastByteIsValidated := by
  intro s b lo body rest hc hs hb hl hlast hlen hread
  have hsucc := toNat_rxLen_succ hl
  let u : State := { s with inq := rest, tLast := s.now }
  have hu : (appendByte b u).rxLen.toNat = body.length + 2 := by
    show (s.rxLen + 1#16).toNat = _
    omega
  have hold {k : Nat} (hk : k < body.length + 1) :
      Memory.read (appendByte b u).rxbuf k = (body ++ [lo])[k]? :=
    (read_write_other _ _ (show k ≠ s.rxLen.toNat by omega)).trans (hread k hk)
  have hnew : Memory.read (appendByte b u).rxbuf (body.length + 1) = some b := by
    rw [← hlen]
    exact read_write_same _ _ _
  refine ⟨{ appendByte b u with
    txnState := if crc16 body = le16 lo b then .complete else .crcError }, ?_,
    fun k => read_write _ _ k b, hsucc, rfl⟩
  rw [engineStep_of_accumulating hs hb]
  refine (accumulateStep_of_last (s := u) (show s.rxLen.toNat < s.params.rxCap by omega)
    (show (s.rxLen + 1#16).toNat = s.expLen.toNat by omega) b).trans
    (validate_eq (by omega) ?_ ?_ ?_) <;> rw [hu]
  · refine rxReadList_eq fun k hk => ?_
    rw [Nat.zero_add, hold (by omega), List.getElem?_append_left hk]
  · refine (hold (by omega)).trans ?_
    simp
  · exact hnew

end Machine
end Sys2Proof
end

section
/-! From a legal state every step goes on (10_state.md R45, 42_receiver.md R169). -/

namespace Sys2Proof
namespace Machine

/-! ### What the invariant gives a step to read -/

section
variable {s : State}

theorem requestHeld_iff : requestHeld s = true ↔
    ∃ i fc start qty, decode s.pend = .ok i ∧ requestOf i = some (fc, start, qty) ∧
      txReadList s 0 8 = .ok (frame s.curSlave fc start qty) := by
  unfold requestHeld
  cases decode s.pend with
  | error r => simp
  | ok i =>
    cases hq : requestOf i with
    | none => simp [hq]
    | some q =>
      obtain ⟨fc, start, qty⟩ := q
      cases txReadList s 0 8 <;> simp [hq, Except.toOption, and_assoc]

/-- While a transaction runs, TXBUF reads as its frame. -/
theorem requestOk.read_frame (h : requestOk s) (ha : s.txnState.active = true) :
    ∃ f, txReadList s 0 8 = .ok f := by
  obtain ⟨i, fc, start, qty, -, -, hread⟩ := requestHeld_iff.1 (h ha)
  exact ⟨_, hread⟩

/-- The bytes P = [TXBUF[0], TXBUF[1]] are there to be matched. -/
theorem requestOk.read_prefix (h : requestOk s) (ha : s.txnState.active = true) :
    ∃ p0 p1, Memory.read s.txbuf 0 = some p0 ∧ Memory.read s.txbuf 1 = some p1 := by
  obtain ⟨f, hf⟩ := h.read_frame ha
  obtain ⟨hl, hk⟩ := txReadList_ok hf
  have h0 := hk 0 (by omega)
  have h1 := hk 1 (by omega)
  rw [List.getElem?_eq_getElem (by omega)] at h0 h1
  exact ⟨_, _, h0, h1⟩

/-- In COMPLETE the byte count and each byte of the payload have values. -/
theorem SessionOk.payloadIs (h : SessionOk s) (hs : s.txnState = .complete) :
    ∃ bc p, PayloadIs s bc p := by
  obtain ⟨⟨-, htaken⟩, hrecv⟩ := h
  obtain ⟨bc, hbc, hlen⟩ := Option.map_eq_some_iff.1 ((receiverOk_complete hs).1 hrecv).1
  refine ⟨bc, fun j => (Memory.read s.rxbuf (3 + j)).getD 0, hs, hbc, fun j hj => ?_⟩
  obtain ⟨b, hb⟩ := Option.isSome_iff_exists.1 (htaken (3 + j) (by omega))
  rw [hb]
  rfl

/-! ### Completion and commands -/

theorem SessionOk.completeTxn_goes_on (h : SessionOk s) : ∃ t, completeTxn s = .next t := by
  by_cases hs : s.txnState = .complete
  · obtain ⟨bc, p, hp⟩ := h.payloadIs hs
    by_cases hop : s.pend.extractLsb' 0 8 = 0x20#8
    · exact ⟨_, (completeTxn_of_requestFrom hop).trans (requestComplete_of_complete hs hp.count)⟩
    · rw [completeTxn_of_wrapper hop, wrapperComplete_eq hp]
      split_ifs <;> exact ⟨_, rfl⟩
  · exact ⟨_, completeTxn_failed hs⟩

/-- The decoder's precondition never stops, and what runs behind it has its payload. -/
theorem SessionOk.require_goes_on (h : SessionOk s) {first n : Nat} {k : Result}
    (hk : ∀ bc p, PayloadIs s bc p → first + n ≤ bc.toNat → ∃ t, k = .next t) :
    ∃ t, require first n s k = .next t := by
  by_cases hs : s.txnState = .complete
  · obtain ⟨bc, p, hp⟩ := h.payloadIs hs
    rw [require_complete hs hp.count]
    split
    · exact hk bc p hp ‹_›
    · exact ⟨_, rfl⟩
  · exact ⟨_, require_not_complete hs⟩

/-- The command is one of the host's two buffer reads. -/
def readsBuffer : Instr → Bool
  | .readTxbuf _ | .readRxbuf _ => true
  | _ => false

theorem startTransaction_goes_on (slave fc : Byte) (start qty : Half) (s : State) :
    ∃ t, startTransaction slave fc start qty s = .next t :=
  (startTransaction_started slave fc start qty s).imp fun _ h => h.1

theorem startRegisterRead_goes_on (fc : Byte) (dflt : Bool) (slave : Byte) (addr blocks : Half)
    (s : State) : ∃ t, startRegisterRead fc dflt slave addr blocks s = .next t := by
  unfold startRegisterRead
  split
  · exact ⟨_, rfl⟩
  · exact startTransaction_goes_on _ _ _ _ s

theorem SessionOk.exec_goes_on (h : SessionOk s) {i : Instr} (hi : readsBuffer i = false) :
    ∃ t, exec i s = .next t := by
  cases i with
  | buildRequest slave fc start qty =>
    simp only [exec, execBuildRequest]
    split <;> exact ⟨_, rfl⟩
  | requestFrom slave fc start qty =>
    simp only [exec, execRequestFrom]
    split
    · exact startTransaction_goes_on _ _ _ _ s
    · exact ⟨_, rfl⟩
  | decBit index bit =>
    simp only [exec, execDecBit]
    split
    · exact ⟨_, rfl⟩
    · exact h.require_goes_on fun bc p hp hn => ⟨_, by rw [hp.payload_eq (by omega)]; rfl⟩
  | decByte index =>
    exact h.require_goes_on fun bc p hp hn => ⟨_, by rw [hp.payload_eq (by omega)]; rfl⟩
  | decWord16 signed reg =>
    exact h.require_goes_on fun bc p hp hn => ⟨_, by rw [hp.w16_eq hn]; rfl⟩
  | decDword32 signed high reg =>
    exact h.require_goes_on fun bc p hp hn => ⟨_, by rw [hp.w32_eq hn]; rfl⟩
  | coilRead => exact startTransaction_goes_on _ _ _ _ s
  | discreteInputRead => exact startTransaction_goes_on _ _ _ _ s
  | holdingRegisterRead => exact startRegisterRead_goes_on _ _ _ _ _ s
  | inputRegisterRead => exact startRegisterRead_goes_on _ _ _ _ _ s
  | readTxbuf | readRxbuf => cases hi
  | _ => exact ⟨_, rfl⟩

/-! ### The engine -/

theorem syncStep_goes_on {b p0 p1 : Byte} (h0 : Memory.read s.txbuf 0 = some p0)
    (h1 : Memory.read s.txbuf 1 = some p1) (hc : 1 < s.params.rxCap) (hm : s.m ≠ 2) :
    ∃ t, syncStep b s = .next t := by
  have hm01 : s.m = 0 ∨ s.m = 1 := by omega
  by_cases hsecond : s.m = 1 ∧ b = p1
  · exact ⟨_, syncStep_of_second_match h0 h1 hc hsecond.1 hsecond.2⟩
  · exact ⟨_, syncStep_of_not_second_match h0 h1
      (hm01.imp_right fun hm => ⟨hm, fun hb => hsecond ⟨hm, hb⟩⟩)⟩

/-- The frame whose last byte has just been taken is read whole and completed. -/
theorem validate_goes_on {b : Byte} (h : SessionOk s) (hs : s.txnState = .accumulating)
    (hlast : (s.rxLen + 1#16).toNat = s.expLen.toNat) :
    ∃ t, validate (appendByte b s) = .next t := by
  obtain ⟨-, h3, hlt, hfl, -⟩ := (receiverOk_accumulating hs).1 h.2
  have hle := frameLength_le hfl
  obtain ⟨-, htaken⟩ := takenOk_appendByte h.1 (by omega) b
  have hlen : (appendByte b s).rxLen.toNat = s.rxLen.toNat + 1 := toNat_rxLen_succ (by omega)
  obtain ⟨body, hb⟩ := rxReadList_of_written (s := appendByte b s) (i := 0)
    (n := (appendByte b s).rxLen.toNat - 2) fun k hk => by
      rw [Nat.zero_add]; exact htaken k (by omega)
  obtain ⟨lo, hlo⟩ := Option.isSome_iff_exists.1
    (htaken ((appendByte b s).rxLen.toNat - 2) (by omega))
  obtain ⟨hi, hhi⟩ := Option.isSome_iff_exists.1
    (htaken ((appendByte b s).rxLen.toNat - 1) (by omega))
  rw [validate_eq (by omega) hb hlo hhi]
  exact (sessionOk_validated h hs hlast hb hlo hhi).completeTxn_goes_on

theorem takeByte_goes_on {b : Byte} (h : RestOk s) (hr : s.txnState.receiving = true) :
    ∃ t, takeByte b s = .next t := by
  obtain ⟨hc, hreq, hsess⟩ := h
  have hc : 512 ≤ s.params.rxCap := hc
  rcases (receiving_iff _).1 hr with hs | hs | hs <;> simp only [takeByte, hs]
  · obtain ⟨p0, p1, h0, h1⟩ := hreq.read_prefix (active_of_receiving hr)
    exact syncStep_goes_on h0 h1 (by omega) ((receiverOk_awaitingSync hs).1 hsess.2).1
  · exact ⟨_, headerStep_eq b (by omega)⟩
  · have hl := hsess.rxLen_lt hr
    by_cases hlast : (s.rxLen + 1#16).toNat = s.expLen.toNat
    · rw [accumulateStep_of_last (by omega) hlast]
      exact validate_goes_on hsess hs hlast
    · exact ⟨_, accumulateStep_of_not_last (by omega) hlast b⟩

theorem receiveStep_goes_on (h : RestOk s) (hr : s.txnState.receiving = true) :
    ∃ t, receiveStep s = .next t := by
  unfold receiveStep
  split
  · exact ⟨_, completeTxn_failed (by simp)⟩
  · split
    · exact takeByte_goes_on (h.congr {}) hr
    · exact ⟨_, rfl⟩

theorem sendFrame_goes_on (h : RestOk s) (ha : s.txnState.active = true) :
    ∃ t, sendFrame s = .next t := by
  obtain ⟨f, hf⟩ := h.2.1.read_frame ha
  exact ⟨_, sendFrame_next_iff.2 ⟨f, hf, rfl⟩⟩

theorem engineStep_goes_on (h : RestOk s) : ∃ t, engineStep s = .next t := by
  unfold engineStep
  split <;> rename_i hs
  case h_1 =>
    unfold txSettlePreStep
    split
    · exact sendFrame_goes_on h (by rw [hs]; rfl)
    · exact ⟨_, rfl⟩
  case h_2 => unfold txSendingStep; split_ifs <;> exact ⟨_, rfl⟩
  case h_3 => unfold txSettlePostStep; split <;> exact ⟨_, rfl⟩
  case h_4 | h_5 | h_6 => exact receiveStep_goes_on h (by rw [hs]; rfl)
  all_goals exact ⟨_, rfl⟩

/-! ### The host and every step -/

theorem hostWrite_goes_on {cw : CmdWord} (h : RestOk s) (hb : busyOk s)
    (hread : ∀ i, decode cw = .ok i → readsBuffer i = false) :
    ∃ t, hostWrite cw s = .next t := by
  unfold hostWrite
  split
  · exact ⟨_, rfl⟩
  · rename_i hbusy
    have ha : s.txnState.active = false := hb.symm.trans (by simpa using hbusy)
    split
    · exact SessionOk.exec_goes_on (s := accept cw s)
        (h.2.2.congr_of_not_active ha rfl rfl rfl) (hread _ ‹_›)
    · exact ⟨_, rfl⟩

theorem readsBuffer_of_hostReadsBuffer {cw : CmdWord} {i : Instr} (h : hostReadsBuffer s = false)
    (hm : (nextMove s).1 = .host cw) (hd : decode cw = .ok i) : readsBuffer i = false := by
  simp only [hostReadsBuffer, hm, hd] at h
  cases i with
  | readTxbuf | readRxbuf => cases h
  | _ => rfl

/-- Settles O60: each agent's move goes on; the host's needs that it is no buffer read. -/
theorem legalStepsNeverStop : Obligations.LegalStepsNeverStop := by
  intro s hs hread
  obtain ⟨⟨hb, -⟩, -, hrest⟩ := (legal_iff s).1 hs
  suffices ∃ t, runMove (nextMove s).1 (nextMove s).2 = .next t from
    this.imp fun t ht => step_next_iff.2 ⟨hs.params, ht⟩
  obtain ⟨ms, mi, hu⟩ := eq_of_nextMove (s := s) rfl
  have hrest' : RestOk (nextMove s).2 := by rw [hu]; exact hrest.congr {}
  have hb' : busyOk (nextMove s).2 := by rw [hu]; exact hb
  cases hm : (nextMove s).1 with
  | host cw =>
    exact hostWrite_goes_on hrest' hb' fun i hd => readsBuffer_of_hostReadsBuffer hread hm hd
  | engine => exact engineStep_goes_on hrest'
  | _ => exact ⟨_, rfl⟩

end

end Machine
end Sys2Proof
end

section
/-! Rules of the whole machine: who writes what (10_state.md R26 to R40), what reaches the wire
(20_memory.md R71), and how commands end (60_exceptions.md R270 to R277). -/

namespace Sys2Proof
namespace Machine

/-! ### The host's next command -/

theorem acceptedNext_iff {s : State} {i : Instr} :
    acceptedNext s = some i ↔
      ∃ cw, (nextMove s).1 = .host cw ∧ s.busy = false ∧ decode cw = .ok i := by
  unfold acceptedNext
  cases (nextMove s).1 with
  | host cw => cases s.busy <;> cases hd : decode cw <;> simp [hd, Except.toOption]
  | _ => simp

/-- A step that accepts a command runs it. -/
theorem step_of_acceptedNext {s t : State} {i : Instr} (h : step s = .next t)
    (hi : acceptedNext s = some i) :
    ∃ cw ms mi, s.busy = false ∧ decode cw = .ok i ∧
      exec i (accept cw { s with moves := ms, moveIdx := mi }) = .next t := by
  obtain ⟨cw, hm, hb, hd⟩ := acceptedNext_iff.1 hi
  obtain ⟨ms, mi, hu⟩ := eq_of_nextMove (s := s) rfl
  have hrun := (step_next_iff.1 h).2
  rw [hm, hu] at hrun
  exact ⟨cw, ms, mi, hb, hd, (hostWrite_eq_exec (by exact hb) hd).symm.trans hrun⟩

/-! ### The record of a breach -/

/-- Settles O10: only the host's write while BUSY = 1 writes the record. -/
theorem dutyRecordIsExactlyTheBusyWrites : Obligations.DutyRecordIsExactlyTheBusyWrites := by
  intro s t h
  have keeps {u : State} (hu : u.dutyViolated = s.dutyViolated) (hk : hostKeepsDuty s = true) :
      u.dutyViolated = true ↔ s.dutyViolated = true ∨ hostKeepsDuty s = false := by
    simp [hu, hk]
  have idle {cw : CmdWord} (hm : (nextMove s).1 = .host cw) (hb : s.busy = false) :
      hostKeepsDuty s = true := by simp [hostKeepsDuty, hm, hb]
  refine step_induction
    (P := fun t => t.dutyViolated = true ↔ s.dutyViolated = true ∨ hostKeepsDuty s = false) h
    (busy := fun _ _ _ hm hb => by simp [hostKeepsDuty, hm, hb])
    (malformed := fun _ _ _ hm hb => keeps rfl (idle hm hb))
    (runs := fun _ _ _ _ _ hm hb _ _ hv => keeps hv.commandFrame.dutyViolated (idle hm hb))
    (engine := fun _ _ _ hm hv => keeps hv.engineFrame.dutyViolated ?_)
    (deliver := fun _ _ _ hm => keeps rfl ?_)
    (send := fun _ _ hm => keeps (lineSend_dutyViolated _) ?_)
    (tick := fun _ _ hm => keeps rfl ?_)
    (reset := fun _ _ hm => keeps rfl ?_) <;>
    simp [hostKeepsDuty, hm]

/-! ### The registers commands write -/

/-- The configuration registers, TXBUF and CRC_ACC of `t` are those of `s`. -/
structure SameConfig (s t : State) : Prop where
  timeoutMs : t.timeoutMs = s.timeoutMs := by rfl
  curSlave : t.curSlave = s.curSlave := by rfl
  txbuf : t.txbuf = s.txbuf := by rfl
  crcAcc : t.crcAcc = s.crcAcc := by rfl

/-- A step leaves the parameters, and the registers too unless it is reset or runs a command. -/
theorem step_config {s t : State} (h : step s = .next t) :
    t.params = s.params ∧ (SameConfig s t ∨ (nextMove s).1 = .reset ∨
      ∃ i u, acceptedNext s = some i ∧ SameConfig s u ∧ ExecTo i u t) := by
  exact step_induction (P := fun t => t.params = s.params ∧ (SameConfig s t ∨
      (nextMove s).1 = .reset ∨ ∃ i u, acceptedNext s = some i ∧ SameConfig s u ∧ ExecTo i u t)) h
    (busy := fun _ _ _ _ _ => ⟨rfl, .inl {}⟩)
    (malformed := fun _ _ _ _ _ => ⟨rfl, .inl {}⟩)
    (runs := fun _ _ _ i _ _ _ _ hi hv =>
      ⟨hv.commandFrame.params, .inr (.inr ⟨i, _, hi, {}, hv⟩)⟩)
    (engine := fun _ _ _ _ hv => ⟨hv.engineFrame.params, .inl ⟨hv.engineFrame.timeoutMs,
      hv.engineFrame.curSlave, hv.engineFrame.txbuf, hv.engineFrame.crcAcc⟩⟩)
    (deliver := fun _ _ _ _ => ⟨rfl, .inl {}⟩)
    (send := fun _ _ _ => ⟨lineSend_params _, .inl ⟨lineSend_timeoutMs _, lineSend_curSlave _,
      lineSend_txbuf _, lineSend_crcAcc _⟩⟩)
    (tick := fun _ _ _ => ⟨rfl, .inl {}⟩)
    (reset := fun _ _ hm => ⟨rfl, .inr (.inl hm)⟩)

section
variable {i : Instr} {s t : State}

theorem ExecTo.timeoutMs (h : ExecTo i s t) :
    t.timeoutMs = s.timeoutMs ∨ ∃ ms, i = .setTimeout ms ∧ t.timeoutMs = ms := by
  cases h with
  | completes h => exact .inl h.timeoutMs
  | setsTimeout hi => exact .inr ⟨_, hi, rfl⟩
  | starts _ h => exact .inl (started_of_next h).timeoutMs
  | _ => exact .inl rfl

theorem buildsFrame_of_requestOf {q : Byte × Half × Half} (h : requestOf i = some q) :
    buildsFrame i = true := by
  cases i with
  | buildRequest => cases h
  | _ => exact Option.isSome_of_eq_some h

theorem ExecTo.frame_registers (h : ExecTo i s t) :
    (t.curSlave = s.curSlave ∧ t.txbuf = s.txbuf) ∨ buildsFrame i = true := by
  cases h with
  | completes h => exact .inl ⟨h.curSlave, h.txbuf⟩
  | builds hi hf => exact .inr (by rw [hi]; exact hf)
  | starts hq _ => exact .inr (buildsFrame_of_requestOf hq)
  | _ => exact .inl ⟨rfl, rfl⟩

theorem ExecTo.crcAcc (h : ExecTo i s t) :
    t.crcAcc = s.crcAcc ∨ i = .crcReset ∨ ∃ b, i = .crcFeed b := by
  cases h with
  | completes h => exact .inl h.crcAcc
  | crcReset hi => exact .inr (.inl hi)
  | crcFeed hi => exact .inr (.inr ⟨_, hi⟩)
  | starts _ h => exact .inl (started_of_next h).crcAcc
  | _ => exact .inl rfl

end

/-- Settles O48: besides reset a step that changes one of the registers runs a command, and the
command is one of its writers. -/
theorem registersHaveOnlyTheirWriters : Obligations.RegistersHaveOnlyTheirWriters := by
  intro s t h
  obtain ⟨hp, hsame | hreset | ⟨i, u, hi, hu, hv⟩⟩ := step_config h
  · refine ⟨hp, fun hne => absurd hsame.timeoutMs hne, fun hne => ?_,
      fun hne => absurd hsame.crcAcc hne⟩
    exact (hne.elim (absurd hsame.curSlave) (absurd hsame.txbuf))
  · exact ⟨hp, fun _ => .inl hreset, fun _ => .inl hreset, fun _ => .inl hreset⟩
  · refine ⟨hp, fun hne => .inr ?_, fun hne => .inr ⟨i, hi, ?_⟩, fun hne => .inr ?_⟩
    · rw [← hu.timeoutMs] at hne
      obtain ⟨ms, rfl, ht⟩ := hv.timeoutMs.resolve_left hne
      exact ⟨ms, hi, ht⟩
    · rw [← hu.curSlave, ← hu.txbuf] at hne
      exact hv.frame_registers.resolve_left fun hs => hne.elim (absurd hs.1) (absurd hs.2)
    · rw [← hu.crcAcc] at hne
      rcases hv.crcAcc.resolve_left hne with rfl | ⟨b, rfl⟩
      · exact .inl hi
      · exact .inr ⟨b, hi⟩

end Machine
end Sys2Proof
end

section
/-! The line's queues, the terminal states and the statuses commands end with (20_memory.md R71,
42_receiver.md R160, 60_exceptions.md R272, R275). -/

namespace Sys2Proof
namespace Machine

/-! ### RXBUF and INQ -/

section
variable {s t : State}

theorem TakeTo.inq {b : Byte} (h : TakeTo b s t) : t.inq = s.inq := by
  cases h with
  | validates _ _ _ hu _ _ _ _ h =>
    have hinq := congrArg State.inq (completeTxn_onlyCompletes h)
    subst hu
    exact hinq
  | _ => rfl

/-- The engine takes a byte off INQ, and writes RXBUF, only in a receiving state. -/
theorem EngineTo.rxbuf_inq (h : EngineTo s t) :
    (t.rxbuf = s.rxbuf ∧ t.inq = s.inq) ∨
      s.txnState.receiving = true ∧ ∃ b, s.inq = b :: t.inq := by
  cases h with
  | takes hr hq _ h => exact .inr ⟨hr, _, by rw [h.inq]; exact hq⟩
  | _ => exact .inl ⟨rfl, rfl⟩

end

/-- Who writes RXBUF and takes from INQ in the step from `s` to `t`, as O49 says it. -/
def ReceiverStep (s t : State) : Prop :=
  (t.rxbuf ≠ s.rxbuf → (nextMove s).1 = .reset ∨
    (nextMove s).1 = .engine ∧ s.txnState.receiving = true) ∧
  (t.inq = s.inq ∨
    (∃ b, (nextMove s).1 = .deliver b ∧ t.inq = s.inq ++ [b]) ∨
    (∃ b, (nextMove s).1 = .engine ∧ s.txnState.receiving = true ∧ s.inq = b :: t.inq))

/-- Settles O49: by cases on the step; a step that takes a byte is the engine's, and a delivery
leaves RXBUF. -/
theorem onlyTheReceiverTakesBytes : Obligations.OnlyTheReceiverTakesBytes := by
  intro s t h
  have same {u : State} (hr : u.rxbuf = s.rxbuf) (hq : u.inq = s.inq) : ReceiverStep s u :=
    ⟨fun hne => absurd hr hne, .inl hq⟩
  refine step_induction (P := ReceiverStep s) h
    (busy := fun _ _ _ _ _ => same rfl rfl)
    (malformed := fun _ _ _ _ _ => same rfl rfl)
    (runs := fun _ _ _ _ _ _ _ _ _ hv => same hv.commandFrame.rxbuf hv.commandFrame.inq)
    (engine := fun _ _ _ hm hv => ?_)
    (deliver := fun _ _ b hm => ⟨fun hne => absurd rfl hne, .inr (.inl ⟨b, hm, rfl⟩)⟩)
    (send := fun _ _ _ => same (lineSend_rxbuf _) (lineSend_inq _))
    (tick := fun _ _ _ => same rfl rfl)
    (reset := fun _ _ hm => ⟨fun _ => .inl hm, .inl rfl⟩)
  rcases hv.rxbuf_inq with ⟨hr, hq⟩ | ⟨hr, b, hq⟩
  · exact same hr hq
  · exact ⟨fun _ => .inr ⟨hm, hr⟩, .inr (.inr ⟨b, hm, hr, hq⟩)⟩

/-! ### The wire -/

section
variable {s t : State}

/-- A command puts its own frame on the line, and only where there is no settling delay. -/
theorem ExecTo.outq {i : Instr} (h : ExecTo i s t) :
    t.outq = s.outq ∨ ∃ fc start qty, requestOf i = some (fc, start, qty) ∧
      t.outq = s.outq ++ frame t.curSlave fc start qty ∧
      ∀ k < 8, Memory.read t.txbuf k = (frame t.curSlave fc start qty)[k]? := by
  cases h with
  | completes h => exact .inl (congrArg State.outq h :)
  | @starts slave fc start qty t hq h =>
    have hst := started_of_next h
    rcases hst.cases with ⟨-, ht⟩ | ⟨-, ht⟩
    · exact .inl (congrArg State.outq ht :)
    · refine .inr ⟨fc, start, qty, hq, ?_, fun k hk => ?_⟩ <;> rw [hst.curSlave]
      · exact congrArg State.outq ht
      · exact hst.read_txbuf hk
  | _ => exact .inl rfl

theorem TakeTo.outq {b : Byte} (h : TakeTo b s t) : t.outq = s.outq := by
  cases h with
  | validates _ _ _ hu _ _ _ _ h =>
    have houtq := congrArg State.outq (completeTxn_onlyCompletes h)
    subst hu
    exact houtq
  | _ => rfl

/-- The engine puts TXBUF on the line, at the end of the first settling delay. -/
theorem EngineTo.outq (h : EngineTo s t) :
    t.outq = s.outq ∨ s.txnState = .txSettlePre ∧
      ∃ f, txReadList s 0 8 = .ok f ∧ t.outq = s.outq ++ f := by
  cases h with
  | sends hs hf => exact .inr ⟨hs, _, hf, rfl⟩
  | takes _ _ _ h => exact .inl h.outq
  | _ => exact .inl rfl

theorem lineSend_wire (s : State) :
    (lineSend s).wireTx ++ (lineSend s).outq = s.wireTx ++ s.outq := by
  rcases lineSend_cases s with ⟨-, hs⟩ | ⟨b, rest, hq, hs⟩ <;> rw [hs]
  rw [hq]
  simp

end

/-- The wire's bytes and OUTQ are those of `s`, or one whole TXBUF stands behind them, and from a
legal state that is the frame of PEND's request. -/
def WireStep (s t : State) : Prop :=
  t.wireTx ++ t.outq = s.wireTx ++ s.outq ∨
  ∃ f, f.length = 8 ∧ (∀ k < 8, Memory.read t.txbuf k = f[k]?) ∧
    t.wireTx ++ t.outq = s.wireTx ++ s.outq ++ f ∧
    (Legal s → ∃ i fc start qty, decode t.pend = .ok i ∧ requestOf i = some (fc, start, qty) ∧
      f = frame t.curSlave fc start qty)

theorem wireStep_runs {s u t : State} {i : Instr} (h : ExecTo i u t)
    (hu : u.wireTx = s.wireTx ∧ u.outq = s.outq) (hd : decode u.pend = .ok i) : WireStep s t := by
  have hf := h.commandFrame
  rw [WireStep, hf.wireTx, ← hu.1, ← hu.2]
  rcases h.outq with ho | ⟨fc, start, qty, hq, ho, hread⟩ <;> rw [ho]
  · exact .inl rfl
  · refine .inr ⟨_, frame_length _ _ _ _, hread, (List.append_assoc _ _ _).symm, fun _ => ?_⟩
    exact ⟨i, fc, start, qty, hf.pend.symm ▸ hd, hq, rfl⟩

theorem wireStep_engine {s u t : State} (h : EngineTo u t)
    (hu : u.wireTx = s.wireTx ∧ u.outq = s.outq) (hreq : Legal s → requestOk u) :
    WireStep s t := by
  have hf := h.engineFrame
  rw [WireStep, hf.wireTx, hf.txbuf, hf.pend, hf.curSlave, ← hu.1, ← hu.2]
  rcases h.outq with ho | ⟨hs, f, hread, ho⟩ <;> rw [ho]
  · exact .inl rfl
  · obtain ⟨hl, hk⟩ := txReadList_ok hread
    refine .inr ⟨f, hl, fun k hk' => by simpa using hk k hk', (List.append_assoc _ _ _).symm,
      fun hlegal => ?_⟩
    obtain ⟨i, fc, start, qty, hd, hq, hframe⟩ :=
      requestHeld_iff.1 (hreq hlegal (by rw [hs]; rfl))
    rw [hread] at hframe
    exact ⟨i, fc, start, qty, hd, hq, Except.ok.inj hframe⟩

/-- Settles O50: OUTQ grows where a transaction starts without a settling delay and at the end of
one, and `line_send` moves a byte from one list to the other. -/
theorem wireCarriesOnlyRequestFrames : Obligations.WireCarriesOnlyRequestFrames := by
  intro s t h
  exact step_induction (P := WireStep s) h
    (busy := fun _ _ _ _ _ => .inl rfl)
    (malformed := fun _ _ _ _ _ => .inl rfl)
    (runs := fun _ _ _ _ _ _ _ hd _ hv => wireStep_runs hv ⟨rfl, rfl⟩ hd)
    (engine := fun _ _ _ _ hv => wireStep_engine hv ⟨rfl, rfl⟩ fun hs =>
      (RestOk.congr ((legal_iff s).1 hs).2.2 {}).2.1)
    (deliver := fun _ _ _ _ => .inl rfl)
    (send := fun _ _ _ => .inl (lineSend_wire _))
    (tick := fun _ _ _ => .inl rfl)
    (reset := fun _ _ _ => .inl rfl)

/-! ### Terminal states -/

section
variable {s t : State}

theorem ExecTo.txnState {i : Instr} (h : ExecTo i s t) :
    t.txnState = s.txnState ∨ (requestOf i).isSome = true ∨
      ∃ slave fc start qty, i = .requestFrom slave fc start qty := by
  cases h with
  | completes h => exact .inl h.txnState
  | unsupported hi => exact .inr (.inr ⟨_, _, _, _, hi⟩)
  | starts hq => exact .inr (.inl (by rw [hq]; rfl))
  | _ => exact .inl rfl

theorem not_terminal_of_receiving {u : TxnState} (h : u.receiving = true) : u.terminal = false := by
  rcases (receiving_iff u).1 h with rfl | rfl | rfl <;> rfl

/-- "no engine step leaves them" (R160). -/
theorem EngineTo.eq_of_terminal (h : EngineTo s t) (ht : s.txnState.terminal = true) : t = s := by
  cases h with
  | waits => rfl
  | sends hs => rw [hs] at ht; cases ht
  | settles hs => rw [hs] at ht; cases ht
  | listens hs => rw [hs] at ht; cases ht
  | turns hs => rw [hs] at ht; cases ht
  | timesOut hr => rw [not_terminal_of_receiving hr] at ht; cases ht
  | takes hr => rw [not_terminal_of_receiving hr] at ht; cases ht

end

/-- What may change STATE in the step from a terminal state, as O51 says it. -/
def TerminalStep (s t : State) : Prop :=
  t.txnState ≠ s.txnState → (nextMove s).1 = .reset ∨ ∃ i, acceptedNext s = some i ∧
    ((requestOf i).isSome = true ∨ ∃ slave fc start qty, i = .requestFrom slave fc start qty)

/-- Settles O51: besides reset only a command writes a terminal STATE. -/
theorem terminalStateIsHeld : Obligations.TerminalStateIsHeld := by
  intro s t h hterm
  have same {u : State} (hs : u.txnState = s.txnState) : TerminalStep s u :=
    fun hne => absurd hs hne
  exact step_induction (P := TerminalStep s) h
    (busy := fun _ _ _ _ _ => same rfl)
    (malformed := fun _ _ _ _ _ => same rfl)
    (runs := fun _ _ _ i _ _ _ _ hi hv hne => .inr ⟨i, hi, hv.txnState.resolve_left hne⟩)
    (engine := fun _ _ _ _ hv => same (by rw [hv.eq_of_terminal hterm]))
    (deliver := fun _ _ _ _ => same rfl)
    (send := fun _ _ _ => same (lineSend_txnState _))
    (tick := fun _ _ _ => same rfl)
    (reset := fun _ _ hm _ => .inl hm)

/-! ### How commands end -/

/-- Settles O52: a command that succeeds or starts a transaction is none that fails at
acceptance. -/
theorem failuresArePrecise : Obligations.FailuresArePrecise := by
  intro i s t hb h ht hfail
  cases execTo_of_next h with
  | completes h => exact .inl h
  | unsupported hi => exact .inr ⟨⟨_, _, _, _, hi⟩, onlyCompletes_raise _ _ _⟩
  | starts _ h =>
    rw [(started_of_next h).busy, hb] at ht
    cases ht
  | _ => exact absurd rfl hfail

/-- A command that completes in its accepting step has a status of its row of R272. -/
theorem ExecTo.mayEndWith {i : Instr} {s t : State} (h : ExecTo i s t) (hb : s.busy = true)
    (ht : t.busy = false) : mayEndWith i t.cmdStatus = true := by
  cases h with
  | completes _ hs => exact hs
  | unsupported hi => rw [hi]; rfl
  | starts _ h =>
    rw [(started_of_next h).busy, hb] at ht
    cases ht
  | _ => cases i <;> rfl

theorem mayEndWith_ok (i : Instr) : mayEndWith i .ok = true := by
  cases i <;> rfl

/-- A transaction command may fail, and a read wrapper also for a reply too short. -/
theorem mayEndWith_of_requestOf {i : Instr} {q : Byte × Half × Half} (h : requestOf i = some q) :
    mayEndWith i .transactionFailed = true ∧
      (i.op ≠ 0x20#8 → mayEndWith i .decodePrecondition = true) := by
  cases i with
  | requestFrom => exact ⟨rfl, fun hne => absurd rfl hne⟩
  | coilRead | discreteInputRead | holdingRegisterRead | inputRegisterRead =>
    exact ⟨rfl, fun _ => rfl⟩
  | _ => cases h

theorem fieldOp_of_decode {cw : CmdWord} {i : Instr} (h : decode cw = .ok i) :
    fieldOp cw = i.op := by
  rw [← (encodeOfDecodeIsTheWord cw i h).2, fieldOp_encode]

/-- An engine step that ends a transaction leaves a status of the row of its command. -/
theorem EngineTo.mayEndWith {i : Instr} {q : Byte × Half × Half} {s t : State} (h : EngineTo s t)
    (hb : s.busy = true) (ht : t.busy = false) (hd : decode s.pend = .ok i)
    (hq : requestOf i = some q) : mayEndWith i t.cmdStatus = true := by
  have running {u : State} (hu : u.busy = s.busy) (hu' : u.busy = false) : False := by
    rw [hu', hb] at hu
    cases hu
  obtain ⟨hfails, hshort⟩ := mayEndWith_of_requestOf hq
  cases h with
  | timesOut => exact hfails
  | takes _ _ _ h =>
    cases h with
    | validates _ _ _ hu _ _ _ _ h =>
      subst hu
      rcases completeTxn_status h with hst | hst | ⟨hop, hst⟩ <;> rw [hst]
      · exact mayEndWith_ok i
      · exact hfails
      · exact hshort fun he => hop ((fieldOp_of_decode hd).trans he)
    | _ => exact (running rfl ht).elim
  | _ => exact (running rfl ht).elim

/-- Settles O53: at acceptance by the command's own meaning; at the end of a transaction PEND's
command is a transaction command, since the state is legal. -/
theorem commandsEndOnlyWithTheirStatuses : Obligations.CommandsEndOnlyWithTheirStatuses := by
  intro s t i hs h ht
  refine ⟨fun hi => ?_, fun hb hd hm => ?_⟩
  · obtain ⟨cw, ms, mi, -, -, he⟩ := step_of_acceptedNext h hi
    exact (execTo_of_next he).mayEndWith rfl ht
  · obtain ⟨ms, mi, hu⟩ := eq_of_nextMove (s := s) rfl
    have hrun := (step_next_iff.1 h).2
    rw [hm, hu] at hrun
    obtain ⟨j, fc, start, qty, hj, hq, -⟩ := requestHeld_iff.1 (hs.request (hs.busy ▸ hb))
    obtain rfl : i = j := Except.ok.inj (hd.symm.trans hj)
    exact (engineTo_of_next hrun).mayEndWith hb ht hd hq

theorem code_of_not_active {t : TxnState} (h : t.active = false) :
    t.code.setWidth 32 = 0#32 ∨ t.code.setWidth 32 = 8#32 ∨ t.code.setWidth 32 = 9#32 ∨
      t.code.setWidth 32 = 10#32 := by
  revert h
  cases t <;> decide

/-- Settles O54: a command is accepted only while BUSY = 0, so in a legal state without a
transaction. -/
theorem hostReadsOnlyIdleOrTerminalStates : Obligations.HostReadsOnlyIdleOrTerminalStates := by
  intro s t hs h hi
  obtain ⟨cw, ms, mi, hb, -, he⟩ := step_of_acceptedNext h hi
  cases he
  exact code_of_not_active (hs.busy.symm.trans hb)

end Machine
end Sys2Proof
end

section
/-! Runs: the transmit phase under the vectors' schedule, and the receive phase on a reply
(95_test_vectors.md sections 0, 1, 3). -/

namespace Sys2Proof
namespace Machine

/-! ### The transmit phase -/

theorem step_engine {s : State} {rest : List Move} (hc : 512 ≤ s.params.rxCap)
    (hm : s.moves = .engine :: rest) : step s = engineStep { s with moves := rest } :=
  step_of_cons hc hm

theorem step_tick {s : State} {rest : List Move} (hc : 512 ≤ s.params.rxCap)
    (hm : s.moves = .tick :: rest) : step s = .next { s with moves := rest, now := s.now + 1#32 } :=
  step_of_cons hc hm

theorem add_one_ne (n : Word) : n + 1#32 ≠ n := by
  intro h
  have := congrArg BitVec.toNat h
  rw [toNat_add_one] at this
  omega

/-- The first settling delay ends with the first tick, and the frame goes to OUTQ. -/
theorem run_settlePre {s : State} {f : List Byte} {more : List Move} (hc : 512 ≤ s.params.rxCap)
    (hs : s.txnState = .txSettlePre) (ht : s.tMark = s.now) (hl : f.length = 8)
    (hf : ∀ k < 8, Memory.read s.txbuf k = f[k]?) (hm : s.moves = .tick :: .engine :: more) :
    Host.Core.run Sys2Proof.core 2 s = .next { s with
      moves := more, now := s.now + 1#32, outq := s.outq ++ f, txnState := .txSending } := by
  refine (run_succ (step_tick hc hm) 1).trans (run_succ (t := { s with
    moves := more, now := s.now + 1#32, outq := s.outq ++ f, txnState := .txSending }) ?_ 0)
  rw [step_engine (by exact hc) rfl]
  refine (settlePreSendsTheFrame { s with moves := more, now := s.now + 1#32 } f hs hl hf).2 ?_
  rw [ht]
  exact add_one_ne s.now

/-- OUTQ is sent byte by byte. -/
theorem run_sends (f : List Byte) {s : State} {more : List Move} (hc : 512 ≤ s.params.rxCap)
    (hq : s.outq = f) (hm : s.moves = List.replicate f.length .send ++ more) :
    Host.Core.run Sys2Proof.core f.length s = .next { s with
      moves := more, outq := [], wireTx := s.wireTx ++ f } := by
  induction f generalizing s with
  | nil =>
    obtain ⟨⟩ := s
    cases hq
    cases hm
    simp [Host.Core.run]
  | cons b f ih =>
    have hm : s.moves = .send :: (List.replicate f.length .send ++ more) := hm
    obtain ⟨-, -, hline, -⟩ := clockAndLineSteps s (List.replicate f.length Move.send ++ more) hc
    have hsend := hline b f hm hq
    refine (run_succ hsend f.length).trans ((ih (by exact hc) rfl rfl).trans ?_)
    simp

/-- Once the line has drained, the second settling delay runs for one tick and the receiver
begins. -/
theorem run_settlePost {s : State} {more : List Move} (hc : 512 ≤ s.params.rxCap)
    (hd : s.params.dirPresent = true) (hs : s.txnState = .txSending) (hq : s.outq = [])
    (hm : s.moves = .engine :: .tick :: .engine :: more) :
    Host.Core.run Sys2Proof.core 3 s = .next { s with
      moves := more, now := s.now + 1#32, tMark := s.now, tLast := s.now + 1#32,
      dir := s.params.dirRxLevel, txnState := .awaitingSync } := by
  have hflush := (sendingWaitsForTheFlush { s with moves := .tick :: .engine :: more } hs).2.1 hq hd
  have hturn := (settlePostBeginsReceiving { s with
    moves := more, now := s.now + 1#32, tMark := s.now, txnState := .txSettlePost } rfl).2.2
      (add_one_ne s.now)
  refine (run_succ ((step_engine hc hm).trans hflush) 2).trans
    ((run_succ (step_tick (by exact hc) rfl) 1).trans
      ((run_succ ((step_engine (by exact hc) rfl).trans hturn) 0).trans ?_))
  simp only [Host.Core.run, if_pos hd]

/-- Settles O22: the three parts of the phase, one run after the other. -/
theorem transmitPhaseSendsTheFrame : Obligations.TransmitPhaseSendsTheFrame := by
  intro s f more hc hd hs ht hq hl hf hm
  have hpre := run_settlePre (more := List.replicate f.length .send ++
    (.engine :: .tick :: .engine :: more)) hc hs ht hl hf (by rw [hm, hl]; rfl)
  rw [hq, List.nil_append] at hpre
  have hsend := run_sends f (s := { s with
    moves := List.replicate f.length .send ++ (.engine :: .tick :: .engine :: more),
    now := s.now + 1#32, outq := f, txnState := .txSending }) hc rfl rfl
  rw [hl] at hsend hpre
  have hpost := run_settlePost (s := { s with
    moves := .engine :: .tick :: .engine :: more, now := s.now + 1#32, outq := [],
    wireTx := s.wireTx ++ f, txnState := .txSending }) hc hd rfl rfl rfl
  refine ⟨_, (run_add 2 11 hpre).trans ((run_add 8 3 hsend).trans hpost), ?_⟩
  simp only [hq, BitVec.add_assoc]
  rfl

end Machine
end Sys2Proof
end

section
/-! Runs: the receive phase on a reply waiting in INQ, one engine step a byte
(42_receiver.md R161 to R166, R171; 95_test_vectors.md X4, E9). -/

namespace Sys2Proof
namespace Machine

/-- `s` is `s₀` later in its receive phase: the bytes `q` still wait in INQ, the next `n` moves are
the engine's, the timeout has not elapsed, and only the receiver has written. -/
structure Hears (s₀ : State) (q : List Byte) (n : Nat) (more : List Move) (s : State) : Prop where
  params : s.params = s₀.params
  txbuf : s.txbuf = s₀.txbuf
  pend : s.pend = s₀.pend
  curSlave : s.curSlave = s₀.curSlave
  crcAcc : s.crcAcc = s₀.crcAcc
  inq : s.inq = q
  moves : s.moves = List.replicate n .engine ++ more
  fresh : (s.now - s.tLast).toNat < s.timeoutMs.toNat

/-- What the receiver makes of `s` when it takes a byte: the rest of INQ, a new T_LAST, and its own
registers. -/
def hearing (s : State) (q : List Byte) (m : Fin 3) (rxbuf : Memory) (rxLen : Half)
    (expLen : BitVec 9) (st : TxnState) : State :=
  { s with inq := q, tLast := s.now, m := m, rxbuf := rxbuf, rxLen := rxLen, expLen := expLen,
           txnState := st }

/-- RXBUF holds the bytes `xs` from its start. -/
def HoldsPrefix (mem : Memory) (xs : List Byte) : Prop :=
  ∀ k < xs.length, Memory.read mem k = xs[k]?

theorem HoldsPrefix.append_one {mem mem' : Memory} {xs : List Byte} {b : Byte}
    (h : HoldsPrefix mem xs)
    (hw : ∀ k, Memory.read mem' k = if k = xs.length then some b else Memory.read mem k) :
    HoldsPrefix mem' (xs ++ [b]) := by
  intro k hk
  rw [List.length_append, List.length_singleton] at hk
  rw [hw k]
  by_cases hlast : k = xs.length
  · simp [hlast]
  · have hk : k < xs.length := by omega
    rw [if_neg hlast, h k hk, List.getElem?_append_left hk]

section
variable {s₀ s : State} {b p0 p1 : Byte} {q : List Byte} {n : Nat} {more : List Move}

theorem Hears.takesByte (h : Hears s₀ (b :: q) n more s) (mv : List Move) :
    takesByte { s with moves := mv } b q := ⟨h.inq, h.fresh⟩

/-- One step of the receiver, from what `engineStep` makes of the state without the move. -/
theorem Hears.step (h : Hears s₀ (b :: q) (n + 1) more s) (hc : 512 ≤ s₀.params.rxCap) {x : State}
    (hx : engineStep { s with moves := List.replicate n .engine ++ more } = .next x) :
    step s = .next x :=
  (step_engine (by rw [h.params]; exact hc) h.moves).trans hx

theorem Hears.hearing (h : Hears s₀ (b :: q) (n + 1) more s) (m : Fin 3) (rxbuf : Memory)
    (rxLen : Half) (expLen : BitVec 9) (st : TxnState) :
    Hears s₀ q n more
      (hearing { s with moves := List.replicate n .engine ++ more } q m rxbuf rxLen expLen st) where
  params := h.params
  txbuf := h.txbuf
  pend := h.pend
  curSlave := h.curSlave
  crcAcc := h.crcAcc
  inq := rfl
  moves := rfl
  fresh := by
    have hfresh := h.fresh
    change (s.now - s.now).toNat < s.timeoutMs.toNat
    rw [BitVec.sub_self]
    exact Nat.zero_lt_of_lt hfresh

/-! ### The synchronizer -/

/-- The match counter after the bytes `l`, none of them a second match. -/
def matchedAfter (p0 : Byte) (m : Fin 3) (l : List Byte) : Fin 3 :=
  l.foldl (fun _ b => if b = p0 then 1 else 0) m

/-- The bytes hold no [p0, p1] at consecutive positions. -/
abbrev PrefixFree (p0 p1 : Byte) (l : List Byte) : Prop :=
  List.IsChain (fun a b => ¬ (a = p0 ∧ b = p1)) l

/-- A byte that completes no match: the counter says whether it is a first match. -/
theorem Hears.sync_step (h : Hears s₀ (b :: q) (n + 1) more s) (hc : 512 ≤ s₀.params.rxCap)
    (h0 : Memory.read s₀.txbuf 0 = some p0) (h1 : Memory.read s₀.txbuf 1 = some p1)
    (hs : s.txnState = .awaitingSync) (hm : s.m = 0 ∨ s.m = 1 ∧ b ≠ p1) :
    ∃ t, Machine.step s = .next t ∧ Hears s₀ q n more t ∧ t.txnState = .awaitingSync ∧
      t.m = if b = p0 then 1 else 0 := by
  refine ⟨_, h.step hc ?_,
    h.hearing (if b = p0 then 1 else 0) s.rxbuf s.rxLen s.expLen .awaitingSync, rfl, rfl⟩
  obtain ⟨hfirst, hnone, hagain, hlost, -⟩ := synchronizerMatchesThePrefix
    { s with moves := List.replicate n .engine ++ more } b p0 p1 q (by rw [h.params]; exact hc) hs
    (h.takesByte _) (by rw [h.txbuf]; exact h0) (by rw [h.txbuf]; exact h1)
  have hstate := hs.symm
  by_cases hb : b = p0
  · rw [if_pos hb, Machine.hearing, hstate]
    rcases hm with hm | ⟨hm, hb1⟩
    · exact hfirst hm hb
    · exact hagain hm hb1 hb
  · rw [if_neg hb, Machine.hearing, hstate]
    rcases hm with hm | ⟨hm, hb1⟩
    · exact hnone hm hb
    · exact hlost hm hb1 hb

/-- Bytes without [p0, p1] leave the synchronizer waiting, with the counter they give. -/
theorem run_sync (l : List Byte) {s : State} (h : Hears s₀ (l ++ q) (l.length + n) more s)
    (hc : 512 ≤ s₀.params.rxCap)
    (h0 : Memory.read s₀.txbuf 0 = some p0) (h1 : Memory.read s₀.txbuf 1 = some p1)
    (hs : s.txnState = .awaitingSync) (hl : PrefixFree p0 p1 l)
    (hm : s.m = 0 ∨ s.m = 1 ∧ l.head? ≠ some p1) :
    ∃ t, Host.Core.run Sys2Proof.core l.length s = .next t ∧ Hears s₀ q n more t ∧
      t.txnState = .awaitingSync ∧ t.m = matchedAfter p0 s.m l := by
  induction l generalizing s with
  | nil => exact ⟨s, rfl, by simpa using h, hs, rfl⟩
  | cons b l ih =>
    rw [List.length_cons, Nat.succ_add] at h
    obtain ⟨t, hst, ht, hts, htm⟩ := Hears.sync_step h hc h0 h1 hs (by simpa using hm)
    have hnext : t.m = 0 ∨ t.m = 1 ∧ l.head? ≠ some p1 := by
      by_cases hb : b = p0
      · refine .inr ⟨by rw [htm, if_pos hb], fun hhead => ?_⟩
        obtain ⟨l', rfl⟩ := List.head?_eq_some_iff.1 hhead
        exact (List.isChain_cons_cons.1 hl).1 ⟨hb, rfl⟩
      · exact .inl (by rw [htm, if_neg hb])
    obtain ⟨u, hrun, hu, hus, hum⟩ := ih ht hts hl.tail hnext
    exact ⟨u, (run_succ hst l.length).trans hrun, hu, hus, by rw [hum, htm]; rfl⟩

/-- Harmless noise and one p0 behind it hold no [p0, p1]. -/
theorem prefixFree_of_harmless {noise : List Byte} (h : harmlessNoise p0 p1 noise) :
    PrefixFree p0 p1 (noise ++ [p0]) := by
  obtain ⟨hfree, hlast⟩ := h
  refine List.isChain_append.2 ⟨List.isChain_iff_getElem.2 fun k hk => ?_, .singleton p0, ?_⟩
  · rintro ⟨ha, hb⟩
    exact hfree k ⟨List.getElem?_eq_some_iff.2 ⟨_, ha⟩, List.getElem?_eq_some_iff.2 ⟨_, hb⟩⟩
  · rintro a ha b hb ⟨rfl, rfl⟩
    cases hb
    exact hlast rfl ha

/-- The header P = [p0, p1] is captured at its second byte. -/
theorem Hears.capture (h : Hears s₀ (p1 :: q) (n + 1) more s) (hc : 512 ≤ s₀.params.rxCap)
    (h0 : Memory.read s₀.txbuf 0 = some p0) (h1 : Memory.read s₀.txbuf 1 = some p1)
    (hs : s.txnState = .awaitingSync) (hm : s.m = 1) :
    ∃ t, Machine.step s = .next t ∧ Hears s₀ q n more t ∧ t.txnState = .headerCaptured ∧
      HoldsPrefix t.rxbuf [p0, p1] := by
  obtain ⟨-, -, -, -, hcap⟩ := synchronizerMatchesThePrefix
    { s with moves := List.replicate n .engine ++ more } p1 p0 p1 q (by rw [h.params]; exact hc) hs
    (h.takesByte _) (by rw [h.txbuf]; exact h0) (by rw [h.txbuf]; exact h1)
  obtain ⟨t, het, hread, ht⟩ := hcap hm rfl
  refine ⟨t, h.step hc het, ?_, by rw [ht], fun k hk => ?_⟩
  · rw [ht]
    exact h.hearing 2 t.rxbuf 2#16 s.expLen .headerCaptured
  · rw [hread]
    match k with
    | 0 => rfl
    | 1 => rfl

/-! ### The header and the data -/

/-- The byte count is the third byte of RXBUF, and EXP_LEN follows from it. -/
theorem Hears.header (h : Hears s₀ (b :: q) (n + 1) more s) (hc : 512 ≤ s₀.params.rxCap)
    (hs : s.txnState = .headerCaptured) (hx : HoldsPrefix s.rxbuf [p0, p1]) :
    ∃ t, Machine.step s = .next t ∧ Hears s₀ q n more t ∧ t.txnState = .accumulating ∧
      HoldsPrefix t.rxbuf [p0, p1, b] ∧ t.rxLen = 3#16 ∧ t.expLen.toNat = b.toNat + 5 := by
  obtain ⟨t, het, hread, hexp, ht⟩ := headerStepTakesTheByteCount
    { s with moves := List.replicate n .engine ++ more } b q (by rw [h.params]; exact hc) hs
    (h.takesByte _)
  refine ⟨t, h.step hc het, ?_, by rw [ht], hx.append_one hread, by rw [ht], hexp⟩
  rw [ht]
  exact h.hearing s.m t.rxbuf 3#16 t.expLen .accumulating

/-- The bytes before the last one go to RXBUF one by one. -/
theorem run_accumulate (ys : List Byte) {xs : List Byte} {s : State}
    (h : Hears s₀ (ys ++ q) (ys.length + n) more s) (hc : 512 ≤ s₀.params.rxCap)
    (hs : s.txnState = .accumulating) (hx : HoldsPrefix s.rxbuf xs)
    (hlen : s.rxLen.toNat = xs.length) (hexp : xs.length + ys.length < s.expLen.toNat)
    (hmax : s.expLen.toNat ≤ 260) :
    ∃ t, Host.Core.run Sys2Proof.core ys.length s = .next t ∧ Hears s₀ q n more t ∧
      t.txnState = .accumulating ∧ HoldsPrefix t.rxbuf (xs ++ ys) ∧
      t.rxLen.toNat = (xs ++ ys).length ∧ t.expLen = s.expLen := by
  induction ys generalizing s xs with
  | nil => exact ⟨s, rfl, by simpa using h, hs, by simpa using hx, by simpa using hlen, rfl⟩
  | cons b ys ih =>
    rw [List.length_cons, Nat.succ_add] at h
    rw [List.length_cons] at hexp
    obtain ⟨t, het, hread, hrx, ht⟩ := accumulateStepAppendsTheByte
      { s with moves := List.replicate (ys.length + n) .engine ++ more } b (ys ++ q)
      (by rw [h.params]; exact hc) hs (h.takesByte _) (by change s.rxLen.toNat < 260; omega)
      (by change s.rxLen.toNat + 1 ≠ s.expLen.toNat; omega)
    have hst : t.txnState = .accumulating := by rw [ht]; exact hs
    have hte : t.expLen = s.expLen := by rw [ht]
    have hears : Hears s₀ (ys ++ q) (ys.length + n) more t := by
      rw [ht]
      exact h.hearing s.m t.rxbuf t.rxLen s.expLen s.txnState
    obtain ⟨u, hrun, hu, hus, hux, hul, hue⟩ := ih hears hst (hx.append_one (hlen ▸ hread))
      (by rw [hrx, List.length_append]; exact congrArg (· + 1) hlen)
      (by rw [hte, List.length_append]; simp only [List.length_singleton]; omega)
      (by rw [hte]; exact hmax)
    exact ⟨u, (run_succ (h.step hc het) ys.length).trans hrun, hu, hus, by simpa using hux,
      by simpa using hul, hue.trans hte⟩

/-! ### The last byte -/

/-- The second byte of the CRC that the bytes before it ask for completes a REQUEST_FROM with its
byte count. -/
theorem Hears.completes {body : List Byte} {bc : Byte}
    (h : Hears s₀ (hi8 (crc16 body) :: q) (n + 1) more s) (hc : 512 ≤ s₀.params.rxCap)
    (hp : s₀.pend.extractLsb' 0 8 = 0x20#8) (hs : s.txnState = .accumulating)
    (hx : HoldsPrefix s.rxbuf (body ++ [lo8 (crc16 body)])) (hlen : s.rxLen.toNat = body.length + 1)
    (hexp : s.expLen.toNat = body.length + 2) (hmax : s.expLen.toNat ≤ 260)
    (hbc : body[2]? = some bc) :
    ∃ t, Machine.step s = .next t ∧ Hears s₀ q n more t ∧ t.txnState = .complete ∧
      t.cmdStatus = .ok ∧ t.busy = false ∧ t.result = bc.setWidth 32 ∧
      t.rxLen.toNat = body.length + 2 ∧
      HoldsPrefix t.rxbuf (body ++ [lo8 (crc16 body)] ++ [hi8 (crc16 body)]) := by
  obtain ⟨v, hev, hread, hrx, hv⟩ := lastByteIsValidated
    { s with moves := List.replicate n .engine ++ more } (hi8 (crc16 body)) (lo8 (crc16 body)) body
    q (by rw [h.params]; exact hc) hs (h.takesByte _) (by change s.rxLen.toNat < 260; omega)
    (by change s.rxLen.toNat + 1 = s.expLen.toNat; omega) hlen (by simpa [HoldsPrefix] using hx)
  rw [le16_lo8_hi8, if_pos rfl] at hv
  have hvx : HoldsPrefix v.rxbuf (body ++ [lo8 (crc16 body)] ++ [hi8 (crc16 body)]) :=
    hx.append_one (by rw [List.length_append, List.length_singleton, ← hlen]; exact hread)
  have h2 : 2 < body.length := (List.getElem?_eq_some_iff.1 hbc).1
  have hv2 : Memory.read v.rxbuf 2 = some bc := by
    rw [hvx 2 (by simp; omega), List.append_assoc, List.getElem?_append_left h2, hbc]
  have hvp : v.pend.extractLsb' 0 8 = 0x20#8 := by rw [hv]; exact h.pend ▸ hp
  have hvs : v.txnState = .complete := by rw [hv]
  have hears : Hears s₀ q n more v := by
    rw [hv]
    exact h.hearing s.m v.rxbuf v.rxLen s.expLen .complete
  refine ⟨_, h.step hc (hev.trans ((requestCompletesWithTheByteCount v hvp).1 bc hvs hv2)),
    { hears with }, hvs, rfl, rfl, rfl, ?_, hvx⟩
  exact hrx.trans (congrArg (· + 1) hlen)

/-! ### The whole reply -/

/-- The bytes of a reply that its CRC covers. -/
def replyBody (slave fc : Byte) (data : List Byte) : List Byte :=
  [slave, fc, BitVec.ofNat 8 data.length] ++ data

@[simp] theorem length_replyBody (slave fc : Byte) (data : List Byte) :
    (replyBody slave fc data).length = data.length + 3 := by simp [replyBody]

theorem replyFrame_eq (slave fc : Byte) (data : List Byte) :
    replyFrame slave fc data = replyBody slave fc data ++ [lo8 (crc16 (replyBody slave fc data))] ++
      [hi8 (crc16 (replyBody slave fc data))] := by
  simp [replyFrame, replyBody]

/-- Harmless noise, the header and the byte count bring the receiver to its data. -/
theorem run_header {noise : List Byte} {bc : Byte}
    (h : Hears s₀ (noise ++ p0 :: p1 :: bc :: q) (noise.length + 3 + n) more s)
    (hc : 512 ≤ s₀.params.rxCap) (hs : s.txnState = .awaitingSync) (hm : s.m = 0)
    (h0 : Memory.read s₀.txbuf 0 = some p0) (h1 : Memory.read s₀.txbuf 1 = some p1)
    (hn : harmlessNoise p0 p1 noise) :
    ∃ t, Host.Core.run Sys2Proof.core (noise.length + 3) s = .next t ∧ Hears s₀ q n more t ∧
      t.txnState = .accumulating ∧ HoldsPrefix t.rxbuf [p0, p1, bc] ∧ t.rxLen = 3#16 ∧
      t.expLen.toNat = bc.toNat + 5 := by
  have h :
      Hears s₀ ((noise ++ [p0]) ++ p1 :: bc :: q) ((noise ++ [p0]).length + (n + 2)) more s := by
    convert h using 1
    · simp
    · simp
      omega
  obtain ⟨t, hrun, ht, hts, htm⟩ := run_sync _ h hc h0 h1 hs (prefixFree_of_harmless hn) (.inl hm)
  have htm : t.m = 1 := by rw [htm]; simp [matchedAfter]
  obtain ⟨u, hcap, hu, hus, hux⟩ := ht.capture hc h0 h1 hts htm
  obtain ⟨v, hhead, hv⟩ := hu.header hc hus hux
  rw [List.length_append] at hrun
  exact ⟨v, (run_add _ 2 hrun).trans ((run_succ hcap 1).trans (run_succ hhead 0)), hv⟩

/-- The data and the CRC that belongs to them end the transaction. -/
theorem run_payload {data : List Byte}
    (h : Hears s₀ (data ++ lo8 (crc16 (replyBody p0 p1 data)) ::
      hi8 (crc16 (replyBody p0 p1 data)) :: q) (data.length + 2 + n) more s)
    (hc : 512 ≤ s₀.params.rxCap) (hp : s₀.pend.extractLsb' 0 8 = 0x20#8) (hd : data.length ≤ 255)
    (hs : s.txnState = .accumulating)
    (hx : HoldsPrefix s.rxbuf [p0, p1, BitVec.ofNat 8 data.length]) (hlen : s.rxLen = 3#16)
    (hexp : s.expLen.toNat = data.length + 5) :
    ∃ t, Host.Core.run Sys2Proof.core (data.length + 2) s = .next t ∧ Hears s₀ q n more t ∧
      t.txnState = .complete ∧ t.cmdStatus = .ok ∧ t.busy = false ∧
      t.result = BitVec.ofNat 32 data.length ∧ t.rxLen.toNat = data.length + 5 ∧
      HoldsPrefix t.rxbuf (replyFrame p0 p1 data) := by
  have h : Hears s₀ ((data ++ [lo8 (crc16 (replyBody p0 p1 data))]) ++
      hi8 (crc16 (replyBody p0 p1 data)) :: q)
      ((data ++ [lo8 (crc16 (replyBody p0 p1 data))]).length + (n + 1)) more s := by
    convert h using 1
    · simp
    · simp
      omega
  obtain ⟨t, hrun, ht, hts, htx, htl, hte⟩ := run_accumulate _ h hc hs hx (by rw [hlen]; rfl)
    (by rw [hexp]; simp; omega) (by omega)
  rw [← List.append_assoc] at htx htl
  obtain ⟨u, hlast, hu, hus, hok, hb, hres, hul, hux⟩ := ht.completes
    (body := replyBody p0 p1 data) (bc := BitVec.ofNat 8 data.length) hc hp hts htx
    (by rw [htl]; simp) (by rw [hte, hexp, length_replyBody]) (by rw [hte]; omega) rfl
  rw [List.length_append] at hrun
  refine ⟨u, (run_add _ 1 hrun).trans (run_succ hlast 0), hu, hus, hok, hb, ?_, ?_, ?_⟩
  · rw [hres]
    exact BitVec.setWidth_ofNat_of_le_of_lt (by decide) (by omega)
  · rw [hul, length_replyBody]
  · rw [replyFrame_eq]
    exact hux

end

/-- Settles O35: the header, then the payload. -/
theorem replyAfterNoiseCompletesTheRequest : Obligations.ReplyAfterNoiseCompletesTheRequest := by
  intro s p0 p1 noise data rest more hc hs hm h0 h1 hp hfresh hd hn hq hmv
  have hstart : Hears s (noise ++ p0 :: p1 :: BitVec.ofNat 8 data.length ::
      (data ++ lo8 (crc16 (replyBody p0 p1 data)) :: hi8 (crc16 (replyBody p0 p1 data)) :: rest))
      (noise.length + 3 + (data.length + 2 + 0)) more s :=
    { params := rfl, txbuf := rfl, pend := rfl, curSlave := rfl, crcAcc := rfl, fresh := hfresh
      inq := by rw [hq]; simp [replyFrame, replyBody]
      moves := by rw [hmv]; congr 2; omega }
  obtain ⟨t, hrun, ht, hts, htx, htl, hte⟩ := run_header hstart hc hs hm h0 h1 hn
  have hcount : (BitVec.ofNat 8 data.length).toNat = data.length :=
    Nat.mod_eq_of_lt (by omega : data.length < 2 ^ 8)
  obtain ⟨u, hrun', hu, hus, hok, hb, hres, hul, hux⟩ := run_payload ht hc hp hd hts htx htl
    (by rw [hte, hcount])
  refine ⟨u, ?_, hus, hok, hb, hres, hul, hu.inq, hu.moves, ?_, hu.txbuf, hu.curSlave, hu.crcAcc⟩
  · have hlen : noise.length + data.length + 5 = noise.length + 3 + (data.length + 2) := by omega
    rw [hlen]
    exact (run_add _ _ hrun).trans hrun'
  · intro k hk
    exact hux k (by simpa [replyFrame_eq] using hk)

/-! ### The echo of a request -/

/-- A request whose start address has high byte 3 reads as a reply of three bytes. -/
theorem frame_eq_replyFrame {start : Half} (slave fc : Byte) (qty : Half) (h : hi8 start = 3#8) :
    frame slave fc start qty = replyFrame slave fc [lo8 start, hi8 qty, lo8 qty] := by
  simp [frame, frameHead, replyFrame, h]

/-- Settles O36: the echo is a reply without noise before it. -/
theorem echoWithHighByteThreeCompletesOnItself :
    Obligations.EchoWithHighByteThreeCompletesOnItself := by
  intro s slave fc start qty rest more hc hs hm htx hp hfresh hstart hq hmv
  have hframe := frame_eq_replyFrame slave fc qty (start := start) hstart
  have hquiet : harmlessNoise slave fc [] := ⟨by simp, by simp⟩
  obtain ⟨t, hrun, hts, hok, -, hres, -, hinq, -, hrx, -⟩ := replyAfterNoiseCompletesTheRequest s
    slave fc [] [lo8 start, hi8 qty, lo8 qty] rest more hc hs hm (htx 0 (by omega))
    (htx 1 (by omega)) hp hfresh (by simp) hquiet (by rw [hq, hframe]; rfl) hmv
  refine ⟨t, hrun, hts, hok, hres, hinq, fun k hk => ?_⟩
  rw [hrx k hk, htx k hk, hframe]

end Machine
end Sys2Proof
end

section
/-! Fair runs (60_exceptions.md R287): a transaction waits unchanged until the engine's step or a
reset, fairness brings one, and each brings the transaction nearer to its end. -/

namespace Sys2Proof
namespace Machine

/-! ### Moves that leave a running transaction waiting -/

/-- The move changes a running transaction: a reset, or an enabled engine step. -/
def Firing (mv : Move) (s : State) : Prop := mv = .reset ∨ mv = .engine ∧ engineEnabled s = true

/-- The transaction stands where it stood. -/
structure SameTxn (s t : State) : Prop where
  txnState : t.txnState = s.txnState := by rfl
  tMark : t.tMark = s.tMark := by rfl
  tLast : t.tLast = s.tLast := by rfl
  timeoutMs : t.timeoutMs = s.timeoutMs := by rfl
  rxLen : t.rxLen = s.rxLen := by rfl
  expLen : t.expLen = s.expLen := by rfl

theorem SameTxn.trans {s t u : State} (h : SameTxn s t) (h' : SameTxn t u) : SameTxn s u where
  txnState := h'.txnState.trans h.txnState
  tMark := h'.tMark.trans h.tMark
  tLast := h'.tLast.trans h.tLast
  timeoutMs := h'.timeoutMs.trans h.timeoutMs
  rxLen := h'.rxLen.trans h.rxLen
  expLen := h'.expLen.trans h.expLen

/-- What a move that does not fire does: the clock counts, the line takes a byte of OUTQ. -/
structure Waits (mv : Move) (s t : State) : Prop extends SameTxn s t where
  now : t.now = if mv = .tick then s.now + 1#32 else s.now
  outq : t.outq = if mv = .send then s.outq.tail else s.outq

theorem engineStep_of_not_enabled {s : State} (h : engineEnabled s = false) :
    engineStep s = .next s := by
  cases hs : s.txnState with
  | txSettlePre =>
    rw [engineStep_of_txSettlePre hs, txSettlePreStep,
      if_neg (by simpa [engineEnabled, hs] using h)]
  | txSending =>
    rw [engineStep_of_txSending hs, txSendingStep, if_neg (by simpa [engineEnabled, hs] using h)]
  | txSettlePost =>
    rw [engineStep_of_txSettlePost hs, txSettlePostStep,
      if_neg (by simpa [engineEnabled, hs] using h)]
  | awaitingSync | headerCaptured | accumulating =>
    simp only [engineEnabled, hs, Bool.or_eq_false_iff] at h
    obtain ⟨ht, hq⟩ := h
    have hq : s.inq = [] := by simpa [lineAvail] using hq
    rw [engineStep_of_receiving (by rw [hs]; rfl), receiveStep, ht, hq]
    rfl
  | idle | complete | timedOut | crcError => simp only [engineStep, hs]

theorem waits_of_not_firing {mv : Move} {s t : State} (hb : s.busy = true) (hf : ¬ Firing mv s)
    (h : runMove mv s = .next t) : Waits mv s t := by
  cases mv with
  | host cw =>
    cases (hostWrite_busy hb cw).symm.trans h
    exact { now := rfl, outq := rfl }
  | engine =>
    have he : engineEnabled s = false := Bool.eq_false_iff.2 fun he => hf (.inr ⟨rfl, he⟩)
    cases (engineStep_of_not_enabled he).symm.trans h
    exact { now := rfl, outq := rfl }
  | deliver => cases h; exact { now := rfl, outq := rfl }
  | send =>
    cases h
    cases hq : s.outq with
    | nil => rw [lineSend_of_nil hq]; exact { now := rfl, outq := by simp [hq] }
    | cons b out => rw [lineSend_of_cons hq]; exact { now := rfl, outq := by simp [hq] }
  | tick => cases h; exact { now := rfl, outq := rfl }
  | reset => exact absurd (.inl rfl) hf

/-! ### Runs -/

section
variable {σ : Nat → Move} {r : Nat → State}

theorem RunOf.shift (h : RunOf σ r) (n : Nat) : RunOf (fun k => σ (n + k)) fun k => r (n + k) :=
  fun k => h (n + k)

/-- A moment at or after `n + k` of the run is one at or after `k` of the run from `n` on. -/
theorem exists_shift {P : Nat → Prop} {n k : Nat} (h : ∃ m, n + k ≤ m ∧ P m) :
    ∃ m, k ≤ m ∧ P (n + m) := by
  obtain ⟨m, hm, hp⟩ := h
  exact ⟨m - n, by omega, by rwa [Nat.add_sub_cancel' (by omega)]⟩

theorem Fair.shift (h : Fair σ r) (n : Nat) : Fair (fun k => σ (n + k)) fun k => r (n + k) where
  engine k he := exists_shift (h.engine (n + k) he)
  clock k := exists_shift (h.clock (n + k))
  line k hq := exists_shift (h.line (n + k) hq)

theorem Legal.withMoves {s : State} (h : Legal s) (ms : List Move) :
    Legal { s with moves := ms } := by
  obtain ⟨hmode, hbuffers, hrest⟩ := (legal_iff s).1 h
  exact (legal_iff _).2 ⟨hmode, hbuffers, hrest.congr {}⟩

/-- A step of a run from a legal state is its scheduled move. -/
theorem RunOf.runMove (h : RunOf σ r) {n : Nat} (hl : Legal (r n)) :
    runMove (σ n) { r n with moves := [] } = .next (r (n + 1)) :=
  (step_of_cons (s := { r n with moves := [σ n] }) hl.params rfl).symm.trans (h n)

theorem RunOf.legal (h : RunOf σ r) (h0 : Legal (r 0)) (n : Nat) : Legal (r n) := by
  induction n with
  | zero => exact h0
  | succ n ih => exact everyStepKeepsTheStateLegal _ _ (ih.withMoves _) (h n)

theorem RunOf.waits (h : RunOf σ r) {n : Nat} (hl : Legal (r n))
    (ha : (r n).txnState.active = true) (hf : ¬ Firing (σ n) (r n)) :
    Waits (σ n) (r n) (r (n + 1)) := by
  obtain ⟨hsame, hnow, hq⟩ := waits_of_not_firing (s := { r n with moves := [] })
    (hl.busy.trans ha) hf (h.runMove hl)
  exact ⟨{ hsame with }, hnow, hq⟩

/-- Until something fires, the transaction stands still. -/
theorem RunOf.sameTxn (h : RunOf σ r) (h0 : Legal (r 0)) (ha : (r 0).txnState.active = true)
    {n : Nat} (hf : ∀ k < n, ¬ Firing (σ k) (r k)) : SameTxn (r 0) (r n) := by
  induction n with
  | zero => exact {}
  | succ n ih =>
    have hn := ih fun k hk => hf k (by omega)
    exact hn.trans (h.waits (h.legal h0 n) (hn.txnState ▸ ha) (hf n (by omega))).toSameTxn

/-! ### Fairness brings a firing move -/

/-- A measure that never grows cannot fall again and again. -/
theorem not_falls_forever {μ : Nat → Nat} (hanti : ∀ k, μ (k + 1) ≤ μ k)
    (hfalls : ∀ k, ∃ m, k ≤ m ∧ μ (m + 1) < μ m) : False := by
  obtain ⟨n, hn⟩ := WellFoundedLT.antitone_chain_condition (antitone_nat_of_succ_le hanti)
  obtain ⟨m, hm, hlt⟩ := hfalls n
  rw [← hn m hm, ← hn (m + 1) (by omega)] at hlt
  exact lt_irrefl _ hlt

/-- The time left before the timeout. -/
def timeLeft (s : State) : Nat := s.timeoutMs.toNat - (s.now - s.tLast).toNat

theorem Waits.timeLeft_tick {s t : State} (h : Waits .tick s t) (he : timeoutElapsed s = false) :
    timeLeft t < timeLeft s := by
  have hlt : (s.now - s.tLast).toNat < s.timeoutMs.toNat := by
    rw [← Nat.not_le, ← timeoutElapsed_iff, he]
    exact Bool.false_ne_true
  have hnow : t.now - t.tLast = (s.now - s.tLast) + 1#32 := by
    rw [h.now, h.tLast, if_pos rfl]
    bv_omega
  have hmax := s.timeoutMs.isLt
  rw [timeLeft, timeLeft, hnow, toNat_add_one, h.timeoutMs]
  omega

theorem Waits.timeLeft_of_ne {mv : Move} {s t : State} (h : Waits mv s t) (hm : mv ≠ .tick) :
    timeLeft t = timeLeft s := by
  rw [timeLeft, timeLeft, h.now, h.tLast, h.timeoutMs, if_neg hm]

section
variable (hfair : Fair σ r) (hw : ∀ k, Waits (σ k) (r k) (r (k + 1)))
include hfair hw

/-- A settling delay does not last: the first tick ends it. -/
theorem settles_eventually : ∃ k, settled (r k) = true := by
  by_contra hnone
  have hmark (k : Nat) : (r k).now = (r k).tMark := by
    by_contra hne
    exact hnone ⟨k, (settled_iff _).2 hne⟩
  obtain ⟨m, -, hm⟩ := hfair.clock 0
  have hnow := (hw m).now
  rw [if_pos hm, hmark (m + 1), (hw m).tMark, ← hmark m] at hnow
  exact add_one_ne _ hnow.symm

/-- The line drains: it takes a byte of OUTQ again and again. -/
theorem drains_eventually : ∃ k, lineDrained (r k) = true := by
  by_contra hnone
  have hq (k : Nat) : (r k).outq ≠ [] := fun hq => hnone ⟨k, by rw [lineDrained, hq]; rfl⟩
  refine not_falls_forever (μ := fun k => (r k).outq.length) (fun k => ?_) fun k => ?_
  · rw [(hw k).outq]
    split
    · simp
    · rfl
  · obtain ⟨m, hkm, hm, hne⟩ := hfair.line k (hq k)
    refine ⟨m, hkm, ?_⟩
    rw [(hw m).outq, if_pos hm, List.length_tail]
    have := List.length_pos_of_ne_nil hne
    omega

/-- The timeout elapses: each tick takes a millisecond of what is left. -/
theorem timesOut_eventually : ∃ k, timeoutElapsed (r k) = true := by
  by_contra hnone
  have hwait (k : Nat) : timeoutElapsed (r k) = false := Bool.eq_false_iff.2 fun he => hnone ⟨k, he⟩
  refine not_falls_forever (μ := fun k => timeLeft (r k)) (fun k => ?_) fun k => ?_
  · by_cases hm : σ k = .tick
    · exact ((hm ▸ hw k).timeLeft_tick (hwait k)).le
    · exact ((hw k).timeLeft_of_ne hm).le
  · obtain ⟨m, hkm, hm⟩ := hfair.clock k
    exact ⟨m, hkm, (hm ▸ hw m).timeLeft_tick (hwait m)⟩

/-- So the engine's step is enabled at some moment of a transaction that only waits. -/
theorem enabled_eventually (ha : (r 0).txnState.active = true)
    (hs : ∀ k, (r k).txnState = (r 0).txnState) : ∃ k, engineEnabled (r k) = true := by
  cases h0 : (r 0).txnState with
  | txSettlePre | txSettlePost =>
    obtain ⟨k, hk⟩ := settles_eventually hfair hw
    exact ⟨k, by simp only [engineEnabled, hs k, h0, hk]⟩
  | txSending =>
    obtain ⟨k, hk⟩ := drains_eventually hfair hw
    exact ⟨k, by simp only [engineEnabled, hs k, h0, hk]⟩
  | awaitingSync | headerCaptured | accumulating =>
    obtain ⟨k, hk⟩ := timesOut_eventually hfair hw
    exact ⟨k, by simp only [engineEnabled, hs k, h0, hk, Bool.true_or]⟩
  | idle | complete | timedOut | crcError => rw [h0] at ha; cases ha

end

/-- A running transaction stands still until a move fires, and one does. -/
theorem fires_eventually (hrun : RunOf σ r) (hfair : Fair σ r) (h0 : Legal (r 0))
    (ha : (r 0).txnState.active = true) :
    ∃ k, Firing (σ k) (r k) ∧ SameTxn (r 0) (r k) := by
  classical
  have hex : ∃ k, Firing (σ k) (r k) := by
    by_contra hnone
    have hquiet (k : Nat) : ¬ Firing (σ k) (r k) := fun h => hnone ⟨k, h⟩
    have hsame (k : Nat) : SameTxn (r 0) (r k) := hrun.sameTxn h0 ha fun j _ => hquiet j
    have hw (k : Nat) : Waits (σ k) (r k) (r (k + 1)) :=
      hrun.waits (hrun.legal h0 k) ((hsame k).txnState ▸ ha) (hquiet k)
    obtain ⟨k, hk⟩ := enabled_eventually hfair hw ha fun k => (hsame k).txnState
    obtain ⟨m, -, hm, he⟩ := hfair.engine k hk
    exact hquiet m (.inr ⟨hm, he⟩)
  exact ⟨Nat.find hex, Nat.find_spec hex, hrun.sameTxn h0 ha fun k hk => Nat.find_min hex hk⟩

end

/-! ### Every firing move brings the end nearer -/

/-- From `P` every firing move reaches `Done` or stays in `P` with a smaller rank. -/
structure Progress (P Done : State → Prop) (rank : State → Nat) : Prop where
  active : ∀ {s}, P s → s.txnState.active = true
  same : ∀ {s t}, SameTxn s t → P s → P t ∧ rank t = rank s
  fire : ∀ {mv s t}, P s → Firing mv s → Legal s → runMove mv s = .next t →
    Done t ∨ P t ∧ rank t < rank s

theorem Progress.done {P Done : State → Prop} {rank : State → Nat} (hp : Progress P Done rank)
    {σ : Nat → Move} {r : Nat → State} {n : Nat} (hrun : RunOf σ r) (hfair : Fair σ r)
    (hl : Legal (r n)) (hn : P (r n)) : ∃ m, n ≤ m ∧ Done (r m) := by
  induction hN : rank (r n) using Nat.strong_induction_on generalizing n with
  | _ N ih =>
    obtain ⟨k, hfire, hsame⟩ := fires_eventually (hrun.shift n) (hfair.shift n) hl (hp.active hn)
    have hlegal : Legal (r (n + k)) := (hrun.shift n).legal hl k
    obtain ⟨hk, hrank⟩ := hp.same (hsame.trans (u := { r (n + k) with moves := [] }) {}) hn
    rcases hp.fire hk hfire (hlegal.withMoves []) (hrun.runMove hlegal) with hdone | ⟨hnext, hlt⟩
    · exact ⟨n + k + 1, by omega, hdone⟩
    · rw [hrank] at hlt
      obtain ⟨m, hm, hdone⟩ := ih _ (hN ▸ hlt) ((hrun.shift n).legal hl (k + 1)) hnext rfl
      exact ⟨m, by omega, hdone⟩

/-- The transmit states left before the receive phase. -/
def txRank (s : State) : Nat :=
  match s.txnState with
  | .txSettlePre => 3
  | .txSending => 2
  | .txSettlePost => 1
  | _ => 0

theorem engineStep_leaves_tx {s t : State} (ht : s.txnState.transmitting = true)
    (he : engineEnabled s = true) (h : engineStep s = .next t) : txRank t < txRank s := by
  rcases (transmitting_iff _).1 ht with hs | hs | hs <;> simp only [engineEnabled, hs] at he
  · rw [engineStep_of_txSettlePre hs, txSettlePreStep, if_pos he] at h
    obtain ⟨f, -, rfl⟩ := sendFrame_next_iff.1 h
    simp [txRank, hs]
  · rw [engineStep_of_txSending hs, txSendingStep, if_pos he] at h
    split at h <;> cases h <;> simp [txRank, hs, beginReceive]
  · rw [engineStep_of_txSettlePost hs, txSettlePostStep, if_pos he] at h
    cases h
    simp [txRank, hs, beginReceive]

theorem transmit_progress : Progress (fun s => s.txnState.transmitting = true)
    (fun s => s.txnState.transmitting = false) txRank where
  active h := active_of_transmitting h
  same h hs := ⟨h.txnState ▸ hs, by simp only [txRank, h.txnState]⟩
  fire {mv s t} hs hf _ h := by
    rcases hf with rfl | ⟨rfl, he⟩
    · cases h
      exact .inl rfl
    · refine (Bool.eq_false_or_eq_true t.txnState.transmitting).symm.imp_right fun ht => ⟨ht, ?_⟩
      exact engineStep_leaves_tx hs he h

/-- The bytes of the reply still to come once its header is captured; more than any reply's before
its byte count is known. -/
def rxRank (s : State) : Nat :=
  match s.txnState with
  | .headerCaptured => 512
  | .accumulating => s.expLen.toNat - s.rxLen.toNat
  | _ => 0

/-- The receiver has captured a header. -/
def captured (s : State) : Prop := s.txnState = .headerCaptured ∨ s.txnState = .accumulating

theorem captured.receiving {s : State} (h : captured s) : s.txnState.receiving = true :=
  (receiving_iff _).2 (.inr h)

theorem rxRank_lt_of_accumulating {s : State} (h : s.txnState = .accumulating)
    (hl : 3 ≤ s.rxLen.toNat) : rxRank s < 512 := by
  have hexp := s.expLen.isLt
  simp only [rxRank, h]
  omega

/-- An enabled step of the receiver is the timeout or takes a byte. -/
theorem receives_of_enabled {s t : State} (hr : s.txnState.receiving = true)
    (he : engineEnabled s = true) (h : engineStep s = .next t) :
    t.txnState = .timedOut ∨
      ∃ b rest, TakeTo b { s with inq := rest, tLast := s.now } t := by
  have he : timeoutElapsed s = true ∨ lineAvail s = true := by
    rw [← Bool.or_eq_true, ← he]
    rcases (receiving_iff _).1 hr with hs | hs | hs <;> simp only [engineEnabled, hs]
  rw [engineStep_of_receiving hr] at h
  by_cases ht : timeoutElapsed s = true
  · rw [receiveStep_of_timeout ((timeoutElapsed_iff s).1 ht)] at h
    cases h
    exact .inl rfl
  · cases hq : s.inq with
    | nil => simp [ht, lineAvail, hq] at he
    | cons b rest =>
      rw [receiveStep, if_neg ht, hq] at h
      exact .inr ⟨b, rest, takeTo_of_next hr h⟩

/-- A byte taken after the header brings the reply's end nearer, or is its last. -/
theorem TakeTo.nearer {b : Byte} {s t : State} (h : TakeTo b s t) (hs : captured s)
    (hl : s.txnState = .accumulating → s.rxLen.toNat < s.expLen.toNat) :
    t.txnState.active = false ∨ captured t ∧ rxRank t < rxRank s := by
  cases h with
  | searches hw | synced hw => rcases hs with hs | hs <;> cases hw.symm.trans hs
  | header hw =>
    refine .inr ⟨.inr rfl, ?_⟩
    rw [show rxRank s = 512 by simp only [rxRank, hw]]
    exact rxRank_lt_of_accumulating rfl (le_refl 3)
  | appends hw =>
    have hlt := hl hw
    have hexp := s.expLen.isLt
    have hsucc : (s.rxLen + 1#16).toNat = s.rxLen.toNat + 1 := by bv_omega
    refine .inr ⟨.inr hw, ?_⟩
    simp only [rxRank, hw, hsucc]
    omega
  | validates _ _ _ _ _ _ _ _ h =>
    left
    rw [(completeTxn_onlyCompletes h).txnState]
    dsimp only
    split <;> rfl

theorem receive_progress : Progress captured (fun s => s.txnState.active = false) rxRank where
  active h := active_of_receiving h.receiving
  same h hs := by
    refine ⟨?_, by simp only [rxRank, h.txnState, h.rxLen, h.expLen]⟩
    rw [captured, h.txnState]
    exact hs
  fire {mv s t} hs hf hl h := by
    rcases hf with rfl | ⟨rfl, he⟩
    · cases h
      exact .inl rfl
    · rcases receives_of_enabled hs.receiving he h with ht | ⟨b, rest, ht⟩
      · exact .inl (by rw [ht]; rfl)
      · have hlen (ha : s.txnState = .accumulating) : s.rxLen.toNat < s.expLen.toNat := by
          obtain ⟨-, -, hlt, -⟩ := (receiverOk_accumulating ha).1 hl.receiver
          exact hlt
        exact ht.nearer hs hlen

/-- Settles O55: both phases progress with every firing move. -/
theorem fairRunsEndTransactions : Obligations.FairRunsEndTransactions := fun _ _ _ hrun hfair hl =>
  ⟨transmit_progress.done hrun hfair hl, receive_progress.done hrun hfair hl⟩

end Machine
end Sys2Proof
end
